-- ==== Sys2Proof/Word.lean ====
section
/-! DEFINITION. The word types of the Aurelia core (00_scope.md R5, R6). -/

namespace Sys2Proof

/-- The architectural word, the address and the bus data line: 64 bits (R5: XLEN, ALEN, bus data width). -/
abbrev Word := BitVec 64

/-- A byte: 8 bits (R26). -/
abbrev Byte := BitVec 8

/-- An instruction word: 32 bits (R5: ILEN, R90). -/
abbrev InstrWord := BitVec 32

/-- A register index 0..31 (R10, R93: every 5-bit value is legal). -/
abbrev RegIdx := Fin 32

end Sys2Proof
end

