-- ==== Sys2Proof/Config.lean ====
section
/-! DEFINITION. What an implementation of the Aurelia core fixes: the parameters of 00_scope.md R5, the device table
of 20_memory.md R70, the fixed sizes of the storage stack, and the values the spec leaves free. -/

namespace Sys2Proof

/-- The closed device set of R45, R367: "RAM, UART, PIC, Timer, Keyboard, Mouse, StorageController", with the
optional second RAM ("SSD" scratch RAM) of 60_exceptions.md R367. -/
inductive DeviceKind where
  | ram
  | scratchRam
  | controller
  | uart
  | pic
  | timer
  | keyboard
  | mouse
deriving DecidableEq, Repr

/-- One entry of the device table (10_state.md R18): a device and its address range. -/
structure DeviceEntry where
  device : DeviceKind
  /-- lowest address of the range -/
  base : Word
  /-- length of the range in bytes -/
  size : Nat
deriving DecidableEq, Repr

/-- The parameters of a step (10_state.md R28): "configuration fixed before the first tick, not state a program can
change" (R18). Log 6. -/
structure Config where
  /-- the ordered device table; it carries RAM_BASE, RAM_SIZE and CTRL_BASE -/
  devices : List DeviceEntry
  /-- RAM_LATENCY, L (R62) -/
  ramLatency : Nat
  /-- the latency of the optional scratch RAM -/
  scratchLatency : Nat
  /-- RESET_VECTOR (R393) -/
  resetVector : Word
  /-- LOAD_ADDRESS (R396) -/
  loadAddress : Word
  /-- CAP (D24) -/
  cap : BitVec 64
  /-- SQ_DEPTH (D25) -/
  sqDepth : Nat
  /-- CQ_DEPTH (D25) -/
  cqDepth : Nat
  /-- CTRL_BUSY_TICKS (D26) -/
  busyTicks : Nat
  /-- SC_INTERNAL_ERROR: below 2^15, and not zero (D27; `Config.wellFormed` checks the latter) -/
  scInternalError : BitVec 15
  /-- NAND_BLOCKS, N (R5, R211) -/
  nandBlocks : Nat
deriving DecidableEq, Repr

namespace Config

/-! ### Open parameters: no value in the source (R5 "OPEN", U6). DESIGN CHOICE, log 6: opaque at reset. -/

/-- CAP, any 64-bit value (D24). -/
opaque openCap : BitVec 64

/-- SQ_DEPTH less 1 (D25: SQ_DEPTH is at least 1). -/
opaque openSqDepthLessOne : Nat

/-- CQ_DEPTH less 1 (D25: CQ_DEPTH is at least 1). -/
opaque openCqDepthLessOne : Nat

/-- CTRL_BUSY_TICKS, any natural number (D26). -/
opaque openBusyTicks : Nat

/-- SC_INTERNAL_ERROR less 1: below 2^15 - 1, so that the code is non-zero and below 2^15 (D27). -/
opaque openScInternalErrorLessOne : Fin 32767

/-! ### Free values (U3, D30; logs 1, 3, 4): nothing is known of them. -/

/-- The n-th free value that a read of a peripheral register returns (R360: "every read of it no defined value"). -/
opaque peripheralRead : Nat → BitVec 64

/-- The n-th free value that a peripheral register takes where the spec states no behaviour (R360, R364). -/
opaque peripheralRegister : Nat → BitVec 64

/-! ### Fixed sizes -/

/-- PAGES_PER_BLOCK (R5, R210). -/
def pagesPerBlock : Nat := 64

/-- PAGE_SIZE and BLOCK_SIZE in bytes (R5, R210). -/
def pageSize : Nat := 4096

/-- OOB_SIZE in bytes (R5, R210). -/
def oobSize : Nat := 64

/-- OOB_MAGIC (R5, R232). -/
def oobMagic : BitVec 64 := 0xDEADBEEF

/-- The number of bytes the storage controller's window holds: 8 KiB (R270). -/
def controllerWindow : Nat := 0x2000

/-- The number of bytes a peripheral's window holds: 4 KiB (R360). -/
def peripheralWindow : Nat := 0x1000

/-- The base of the optional scratch RAM (R367). -/
def scratchBase : Word := 0xE0000000

/-- The number of bytes of the optional scratch RAM: 4 KiB (R367). -/
def scratchSize : Nat := 0x1000

/-- The number of entries of the keyboard's FIFO (R365). -/
def keyboardFifo : Nat := 16

/-- The default address map (R70), with the controller at 0xF000_0000, where its window is disjoint from every other
device (R71). DESIGN CHOICE, log 7. -/
def platformDevices : List DeviceEntry :=
  [ ⟨.ram, 0x00000000, 0x10000000⟩,
    ⟨.controller, 0xF0000000, controllerWindow⟩,
    ⟨.uart, 0xE0001000, peripheralWindow⟩,
    ⟨.pic, 0xE0002000, peripheralWindow⟩,
    ⟨.timer, 0xE0003000, peripheralWindow⟩,
    ⟨.keyboard, 0xE0004000, peripheralWindow⟩,
    ⟨.mouse, 0xE0005000, peripheralWindow⟩ ]

/-- The configuration at reset: the fixed defaults of R5, latency 0 and the 64 NAND blocks of scenario 5 (DESIGN CHOICE,
log 7), the open parameters opaque (log 6). -/
def platform : Config where
  devices := platformDevices
  ramLatency := 0
  scratchLatency := 0
  resetVector := 0x00000000
  loadAddress := 0x00000000
  cap := openCap
  sqDepth := openSqDepthLessOne + 1
  cqDepth := openCqDepthLessOne + 1
  busyTicks := openBusyTicks
  scInternalError := BitVec.ofNat 15 (openScInternalErrorLessOne.val + 1)
  nandBlocks := 64

end Config

end Sys2Proof
end

