-- ==== Sys2Proof/Syntax.lean ====
section
/-! DEFINITION. The instruction set of 30_encoding.md: opcodes, shapes, the seventeen instructions, and the decoded
form that the CPU latches. -/

namespace Sys2Proof

/-- The three shapes of a decoded instruction (R92). -/
inductive Shape where
  | register
  | immediate
  | branch
deriving DecidableEq, Repr

/-- The opcode of a decoded instruction: one of the seventeen of R97, or `Reserved(f)` for an opcode field `f` that no
instruction has (R96, R99). -/
inductive Op where
  | nop | add | sub | and | or | xor | lsl | lsr | asr | cmp
  | ldr | str | mov | b | beq | bne | halt
  | reserved (field : BitVec 6)
deriving DecidableEq, Repr

/-- "LDR, STR, MOV are Immediate-shaped; B, BEQ, BNE are Branch-shaped; everything else is Register-shaped" (R92). -/
def Op.shape : Op → Shape
  | .ldr | .str | .mov => .immediate
  | .b | .beq | .bne => .branch
  | .nop | .add | .sub | .and | .or | .xor | .lsl | .lsr | .asr | .cmp | .halt | .reserved _ => .register

/-- The decoded form that Fetch latches (10_state.md R15): opcode, rd, rn, rm and the 64-bit immediate. Its shape is
that of its opcode (R92), so it is computed and not stored (log 15). -/
structure Decoded where
  op : Op
  rd : RegIdx
  rn : RegIdx
  rm : RegIdx
  imm : Word
deriving DecidableEq, Repr

/-- The shape of a decoded instruction. -/
abbrev Decoded.shape (d : Decoded) : Shape := d.op.shape

/-- The decoded form of the word 0x00000000: "opcode NOP, rd = rn = rm = 0, imm = 0" (R15). -/
def Decoded.zero : Decoded := ⟨.nop, 0, 0, 0, 0⟩

/-- The seventeen instructions (R97), one constructor per row of the opcode table. Every word carries all the fields
(R93, R100), so every instruction does, the ignored ones too; `imm` is the decoded 64-bit immediate (R94). -/
inductive Instr where
  | nop (rd rn rm : RegIdx) (imm : Word)
  | add (rd rn rm : RegIdx) (imm : Word)
  | sub (rd rn rm : RegIdx) (imm : Word)
  | and (rd rn rm : RegIdx) (imm : Word)
  | or (rd rn rm : RegIdx) (imm : Word)
  | xor (rd rn rm : RegIdx) (imm : Word)
  | lsl (rd rn rm : RegIdx) (imm : Word)
  | lsr (rd rn rm : RegIdx) (imm : Word)
  | asr (rd rn rm : RegIdx) (imm : Word)
  | cmp (rd rn rm : RegIdx) (imm : Word)
  | ldr (rd rn rm : RegIdx) (imm : Word)
  | str (rd rn rm : RegIdx) (imm : Word)
  | mov (rd rn rm : RegIdx) (imm : Word)
  | b (rd rn rm : RegIdx) (imm : Word)
  | beq (rd rn rm : RegIdx) (imm : Word)
  | bne (rd rn rm : RegIdx) (imm : Word)
  | halt (rd rn rm : RegIdx) (imm : Word)
deriving DecidableEq, Repr

/-- The decoded form of an instruction (R15). -/
def Instr.decoded : Instr → Decoded
  | .nop rd rn rm imm => ⟨.nop, rd, rn, rm, imm⟩
  | .add rd rn rm imm => ⟨.add, rd, rn, rm, imm⟩
  | .sub rd rn rm imm => ⟨.sub, rd, rn, rm, imm⟩
  | .and rd rn rm imm => ⟨.and, rd, rn, rm, imm⟩
  | .or rd rn rm imm => ⟨.or, rd, rn, rm, imm⟩
  | .xor rd rn rm imm => ⟨.xor, rd, rn, rm, imm⟩
  | .lsl rd rn rm imm => ⟨.lsl, rd, rn, rm, imm⟩
  | .lsr rd rn rm imm => ⟨.lsr, rd, rn, rm, imm⟩
  | .asr rd rn rm imm => ⟨.asr, rd, rn, rm, imm⟩
  | .cmp rd rn rm imm => ⟨.cmp, rd, rn, rm, imm⟩
  | .ldr rd rn rm imm => ⟨.ldr, rd, rn, rm, imm⟩
  | .str rd rn rm imm => ⟨.str, rd, rn, rm, imm⟩
  | .mov rd rn rm imm => ⟨.mov, rd, rn, rm, imm⟩
  | .b rd rn rm imm => ⟨.b, rd, rn, rm, imm⟩
  | .beq rd rn rm imm => ⟨.beq, rd, rn, rm, imm⟩
  | .bne rd rn rm imm => ⟨.bne, rd, rn, rm, imm⟩
  | .halt rd rn rm imm => ⟨.halt, rd, rn, rm, imm⟩

/-- The instruction a decoded form stands for; the reserved opcode field where there is none (R99). -/
def Decoded.instr : Decoded → Except (BitVec 6) Instr
  | ⟨.nop, rd, rn, rm, imm⟩ => .ok (.nop rd rn rm imm)
  | ⟨.add, rd, rn, rm, imm⟩ => .ok (.add rd rn rm imm)
  | ⟨.sub, rd, rn, rm, imm⟩ => .ok (.sub rd rn rm imm)
  | ⟨.and, rd, rn, rm, imm⟩ => .ok (.and rd rn rm imm)
  | ⟨.or, rd, rn, rm, imm⟩ => .ok (.or rd rn rm imm)
  | ⟨.xor, rd, rn, rm, imm⟩ => .ok (.xor rd rn rm imm)
  | ⟨.lsl, rd, rn, rm, imm⟩ => .ok (.lsl rd rn rm imm)
  | ⟨.lsr, rd, rn, rm, imm⟩ => .ok (.lsr rd rn rm imm)
  | ⟨.asr, rd, rn, rm, imm⟩ => .ok (.asr rd rn rm imm)
  | ⟨.cmp, rd, rn, rm, imm⟩ => .ok (.cmp rd rn rm imm)
  | ⟨.ldr, rd, rn, rm, imm⟩ => .ok (.ldr rd rn rm imm)
  | ⟨.str, rd, rn, rm, imm⟩ => .ok (.str rd rn rm imm)
  | ⟨.mov, rd, rn, rm, imm⟩ => .ok (.mov rd rn rm imm)
  | ⟨.b, rd, rn, rm, imm⟩ => .ok (.b rd rn rm imm)
  | ⟨.beq, rd, rn, rm, imm⟩ => .ok (.beq rd rn rm imm)
  | ⟨.bne, rd, rn, rm, imm⟩ => .ok (.bne rd rn rm imm)
  | ⟨.halt, rd, rn, rm, imm⟩ => .ok (.halt rd rn rm imm)
  | ⟨.reserved f, _, _, _, _⟩ => .error f

end Sys2Proof
end

