-- ==== Sys2Proof/WellFormed.lean ====
section
/-! DEFINITION. Well-formed instructions (30_encoding.md R94) and configurations (00_scope.md R5, U6). -/

namespace Sys2Proof

/-- The immediate a shape can hold (R94): the sign extension of an 11-bit field for a branch, its zero extension for
every other shape. -/
def Shape.holds (shape : Shape) (imm : Word) : Bool :=
  match shape with
  | .branch => imm == (imm.setWidth 11).signExtend 64
  | .register | .immediate => imm == (imm.setWidth 11).setWidth 64

/-- An instruction is well formed when its immediate is one that its shape can hold (R94). Its register fields are
legal at every value (R93), which their type says. -/
def Instr.wellFormed (i : Instr) : Bool :=
  i.decoded.shape.holds i.decoded.imm

/-- The windows of the devices have the sizes the spec fixes (R270, R360, R367) and lie in the address space (R26); the
scratch RAM is at the base R367 gives it. -/
def DeviceEntry.wellFormed (e : DeviceEntry) : Bool :=
  decide (e.base.toNat + e.size ≤ 2 ^ 64) &&
  match e.device with
  | .ram => true
  | .scratchRam => e.base == Config.scratchBase && e.size == Config.scratchSize
  | .controller => e.size == Config.controllerWindow
  | .uart | .pic | .timer | .keyboard | .mouse => e.size == Config.peripheralWindow

/-- The constraints on a configuration: each device attached once, windows of the right size, the scratch RAM only
"instead of the storage controller" (R367), queue depths of at least 1 (U6), at least one NAND block (R5), a non-zero
internal-error code (U6, D27). Ranges "should be disjoint", which is "not enforced" (R18), so overlap is allowed. -/
def Config.wellFormed (c : Config) : Bool :=
  c.devices.all DeviceEntry.wellFormed &&
  decide (c.devices.map DeviceEntry.device).Nodup &&
  !(c.devices.any (fun e => e.device == .scratchRam) && c.devices.any (fun e => e.device == .controller)) &&
  decide (1 ≤ c.sqDepth) &&
  decide (1 ≤ c.cqDepth) &&
  decide (1 ≤ c.nandBlocks) &&
  c.scInternalError != 0

end Sys2Proof
end

