-- ==== Sys2Proof/Decode.lean ====
section
/-! DEFINITION. The instruction codec of 30_encoding.md: `decode` (R96), total on 32-bit words, the decoder of bytes
(R90), and `encode` (R95). -/

namespace Sys2Proof

/-- The opcode whose field (bits 31..26) is `f` (R97; HALT's field is 0x3F, R98); `Reserved(f)` for the other 47
values (R99). -/
def Op.ofField (f : BitVec 6) : Op :=
  if f = 0x00 then .nop
  else if f = 0x01 then .add
  else if f = 0x02 then .sub
  else if f = 0x03 then .and
  else if f = 0x04 then .or
  else if f = 0x05 then .xor
  else if f = 0x06 then .lsl
  else if f = 0x07 then .lsr
  else if f = 0x08 then .asr
  else if f = 0x09 then .cmp
  else if f = 0x10 then .ldr
  else if f = 0x11 then .str
  else if f = 0x20 then .mov
  else if f = 0x30 then .b
  else if f = 0x31 then .beq
  else if f = 0x32 then .bne
  else if f = 0x3F then .halt
  else .reserved f

/-- The 64-bit immediate that the 11-bit field of a word gives for a shape (R94). -/
def Shape.immediate64 (shape : Shape) (imm11 : BitVec 11) : Word :=
  match shape with
  | .branch => imm11.signExtend 64
  | .register | .immediate => imm11.setWidth 64

/-- `Decode(w)` of R96, with the field layout of R91. -/
def decode (w : InstrWord) : Decoded :=
  let op := Op.ofField (w.extractLsb' 26 6)
  { op := op
    rd := (w.extractLsb' 21 5).toFin
    rn := (w.extractLsb' 16 5).toFin
    rm := (w.extractLsb' 11 5).toFin
    imm := op.shape.immediate64 (w.extractLsb' 0 11) }

/-- Why bytes decode to no instruction. -/
inductive DecodeError where
  /-- the opcode field is one of the 47 reserved values (R99) -/
  | reservedOpcode (field : BitVec 6)
  /-- fewer than the four bytes of an instruction (R90) -/
  | truncated
deriving DecidableEq, Repr

/-- The instruction of a word, or its reserved opcode field (R96, R99). -/
def decodeWord (w : InstrWord) : Except DecodeError Instr :=
  match (decode w).instr with
  | .ok i => .ok i
  | .error f => .error (.reservedOpcode f)

/-- The word whose four bytes, least significant first, are given (R90). -/
def wordOfBytes (b0 b1 b2 b3 : Byte) : InstrWord :=
  b3 ++ b2 ++ b1 ++ b0

/-- The instruction at the head of a list of bytes, "least significant byte at the lowest address" (R90), and the
bytes after it. -/
def decodeBytes : List Byte → Except DecodeError (Instr × List Byte)
  | b0 :: b1 :: b2 :: b3 :: rest =>
    match decodeWord (wordOfBytes b0 b1 b2 b3) with
    | .ok i => .ok (i, rest)
    | .error e => .error e
  | _ => .error .truncated

/-! ### The encoder -/

/-- The numeric opcode tag (R97). A reserved field is its own tag: it has no instruction, and `encode` never sees
it. -/
def Op.tag : Op → BitVec 8
  | .nop => 0x00
  | .add => 0x01
  | .sub => 0x02
  | .and => 0x03
  | .or => 0x04
  | .xor => 0x05
  | .lsl => 0x06
  | .lsr => 0x07
  | .asr => 0x08
  | .cmp => 0x09
  | .ldr => 0x10
  | .str => 0x11
  | .mov => 0x20
  | .b => 0x30
  | .beq => 0x31
  | .bne => 0x32
  | .halt => 0xFF
  | .reserved f => f.setWidth 8

/-- `Encode(tag, rd, rn, rm, imm11)` of R95; the reduction modulo 2^32 keeps the low six bits of the tag. -/
def encodeFields (tag : BitVec 8) (rd rn rm : RegIdx) (imm11 : BitVec 11) : InstrWord :=
  (tag.setWidth 32 <<< 26) ||| ((BitVec.ofFin (w := 5) rd).setWidth 32 <<< 21) |||
  ((BitVec.ofFin (w := 5) rn).setWidth 32 <<< 16) ||| ((BitVec.ofFin (w := 5) rm).setWidth 32 <<< 11) |||
  imm11.setWidth 32

/-- The word of a decoded form: its fields put back by R95. -/
def Decoded.encode (d : Decoded) : InstrWord :=
  encodeFields d.op.tag d.rd d.rn d.rm (d.imm.setWidth 11)

/-- The word of an instruction (R95). -/
def encode (i : Instr) : InstrWord :=
  i.decoded.encode

/-- The four bytes of an instruction word, `w[7:0]` first (R90, R95). -/
def bytesOfWord (w : InstrWord) : List Byte :=
  [w.extractLsb' 0 8, w.extractLsb' 8 8, w.extractLsb' 16 8, w.extractLsb' 24 8]

/-- The instruction the decoder reads from an instruction whose bits are `w`, as spec/opcode_table.json numbers them:
the bits above `nbits` are 0, the bytes are laid out least significant first (R90). -/
def decodeTableWord (nbits w : Nat) : Option Instr :=
  match decodeBytes (bytesOfWord (BitVec.ofNat 32 (w % 2 ^ nbits))) with
  | .ok (i, _) => some i
  | .error _ => none

end Sys2Proof
end

