-- ==== Sys2Proof/Machine/Bits.lean ====
section
/-! DEFINITION. Bit operations (00_scope.md R6, R8) and the byte order of 64-bit transfers (20_memory.md R61, R65). -/

namespace Sys2Proof.Machine

/-- `set(v, b) = v | (1 << b)` (R8). -/
def setBit {w : Nat} (v : BitVec w) (b : Nat) : BitVec w :=
  v ||| (1#w <<< b)

/-- `clear(v, b) = v & ~(1 << b)` (R8). -/
def clearBit {w : Nat} (v : BitVec w) (b : Nat) : BitVec w :=
  v &&& ~~~(1#w <<< b)

/-- `check(v, b) = (v[b] = 1)` (R8). -/
def checkBit {w : Nat} (v : BitVec w) (b : Nat) : Bool :=
  v.getLsbD b

/-- `extract`: the field `v[hi:lo]` as an unsigned number (R6, R8). -/
def extractField {w : Nat} (v : BitVec w) (hi lo : Nat) : Nat :=
  (v.toNat >>> lo) % 2 ^ (hi - lo + 1)

/-- `popcount(v)` counts the 1 bits (R6). -/
def popcount {w : Nat} (v : BitVec w) : Nat :=
  ((List.range w).filter fun i => v.getLsbD i).length

/-- Byte `i` of a 64-bit value: `v[8i+7:8i]` (R61). -/
def byteOf (v : Word) (i : Nat) : Byte :=
  v.extractLsb' (8 * i) 8

/-- The eight bytes of a 64-bit value, the one for the lowest address first (R65). -/
def bytesOf64 (v : Word) : List Byte :=
  (List.range 8).map (byteOf v)

/-- The 64-bit value whose byte `i` is `byte i`: `mem[off+7] || ... || mem[off]` (R61). -/
def join64 (byte : Nat → Byte) : Word :=
  byte 7 ++ byte 6 ++ byte 5 ++ byte 4 ++ byte 3 ++ byte 2 ++ byte 1 ++ byte 0

/-- The 64-bit value in bytes `8 i` to `8 i + 7` of a buffer, little-endian (R65, R282). -/
def wordAt (buffer : List Byte) (i : Nat) : Word :=
  join64 fun k => buffer.getD (8 * i + k) 0

/-- The 32-bit value in four bytes of a buffer from position `at`, little-endian (R232, R275). -/
def dwordAt (buffer : List Byte) (pos : Nat) : BitVec 32 :=
  buffer.getD (pos + 3) 0 ++ buffer.getD (pos + 2) 0 ++ buffer.getD (pos + 1) 0 ++ buffer.getD pos 0

/-- The four bytes of a 32-bit value, little-endian. -/
def bytesOf32 (v : BitVec 32) : List Byte :=
  (List.range 4).map fun i => v.extractLsb' (8 * i) 8

end Sys2Proof.Machine
end

