-- ==== Sys2Proof/Machine/State.lean ====
section
/-! DEFINITION. The state of every agent of the Aurelia core (10_state.md), as plain data, its value at construction
and reset (10_state.md R29), and the reasons a step can stop. -/

namespace Sys2Proof.Machine

/-! ## CPU state (10_state.md section 1) -/

/-- The four flags (R12). -/
structure Flags where
  z : Bool
  n : Bool
  c : Bool
  v : Bool
deriving DecidableEq, Repr

/-- The five pipeline stages (R14, R120). -/
inductive Stage where
  | fetch
  | decode
  | execute
  | memory
  | writeBack
deriving DecidableEq, Repr

/-- The CPU: general registers (R10), program counter (R11), flags (R12), Halted (R13), stage and micro-op counter
(R14) and the five inter-stage latches (R15). There is no control or status register and no mode (R16, R356). -/
structure Cpu where
  /-- x[0] to x[31]; none is hardwired (R10) -/
  x : Vector Word 32
  pc : Word
  flags : Flags
  halted : Bool
  stage : Stage
  /-- the micro-op counter of Fetch and Memory, 0 or 1 -/
  uop : Fin 2
  instr : Decoded
  opA : Word
  opB : Word
  aluResult : Word
  memData : Word
deriving DecidableEq, Repr

/-! ## Bus state (section 2) -/

/-- The bus: address and data lines, the six signals of the control word (R17), and the traffic counters (R19). -/
structure Bus where
  address : Word
  data : Word
  read : Bool
  write : Bool
  wait : Bool
  /-- never driven (R17, D4) -/
  ready : Bool
  /-- never driven (R17, D4) -/
  irq : Bool
  /-- sticky: only a new bus clears it (R53, D3) -/
  error : Bool
  readCount : Nat
  writeCount : Nat
deriving DecidableEq, Repr

/-! ## Sparse data -/

/-- Sparse data by key: a list of key and value pairs. Its one canonical form is `Sparse.wf` (Machine/Ops.lean): keys
strictly rising, and no entry equal to what an unlisted key reads as. -/
abbrev Sparse (β : Type) := List (Nat × β)

/-- Memory: sparse bytes by address, a list of `Host.Cell`. -/
abbrev Memory := List Host.Cell

/-! ## Device state (section 3) -/

/-- A RAM device (R20): the byte array, keyed by the offset within it (R61), and the latency state (R62). -/
structure Ram where
  bytes : Memory
  busy : Bool
  pendingWait : Nat
deriving DecidableEq, Repr

/-- A NAND page: "4096 bytes of data plus 64 bytes of out-of-band (OOB) area" (R210). -/
structure Page where
  data : List Byte
  oob : List Byte
deriving DecidableEq, Repr

/-- Per-block metadata of the NAND chip: "bad-block flag, erase counter" (R211). -/
structure NandBlock where
  eraseCount : Nat
  bad : Bool
deriving DecidableEq, Repr

/-- The NAND chip (R21, R211): pages by page number `64 b + p`, an unlisted page being erased, and one metadata entry
per block, so that N is `blocks.length`. -/
structure Nand where
  pages : Sparse Page
  blocks : List NandBlock
deriving DecidableEq, Repr

/-- The state of a block as the FTL sees it (R230). -/
inductive BlockState where
  | free
  | active
  | full
  | bad
deriving DecidableEq, Repr

/-- `info[b]` of the FTL (R230): state, erase count, 64-bit valid-page bitmap. -/
structure BlockInfo where
  state : BlockState
  eraseCount : Nat
  valid : BitVec 64
deriving DecidableEq, Repr

/-- The active-block cursor (R22): block index and next-page offset, 0 to 63. -/
structure Cursor where
  block : Nat
  next : Fin 64
deriving DecidableEq, Repr

/-- The flash translation layer (R22, R230). -/
structure Ftl where
  /-- the partial map from LBA to PBA = 64 b + p, both 32 bits; an unlisted LBA is unmapped -/
  l2p : Sparse (Option (BitVec 32))
  info : List BlockInfo
  /-- a stack, its head the block pushed last (R231) -/
  freeList : List Nat
  active : Option Cursor
deriving DecidableEq, Repr

/-- The storage stack below the controller: the chip and the FTL over it. -/
structure Storage where
  nand : Nand
  ftl : Ftl
deriving DecidableEq, Repr

/-- The one-command latch of the controller (R23, R272). -/
structure Pending where
  valid : Bool
  opcode : BitVec 8
  prp1 : BitVec 64
  lba : BitVec 32
  nblocks : BitVec 32
deriving DecidableEq, Repr

/-- The storage controller (R23, R271, R272). CAP is configuration and VS a constant. -/
structure Ctrl where
  intms : BitVec 32
  intmc : BitVec 32
  cc : BitVec 32
  csts : BitVec 32
  aqa : BitVec 32
  asqLo : BitVec 32
  asqHi : BitVec 32
  acqLo : BitVec 32
  acqHi : BitVec 32
  /-- SQ0TDBL, the last value the host wrote -/
  sqTail : BitVec 32
  /-- CQ0HDBL, the last value the host wrote -/
  cqHead : BitVec 32
  sqHead : BitVec 32
  cqTail : BitVec 32
  pending : Pending
  busyTicks : Nat
deriving DecidableEq, Repr

/-- UART registers (R362). Widths not stated (N21): 64 bits, log 2. -/
structure Uart where
  data : Word
  status : Word
  control : Word
deriving DecidableEq, Repr

/-- The interrupt controller: "a 16-bit status (one bit per line) and a 16-bit enable" (R363), and IRQ_TRIGGER. -/
structure Pic where
  status : BitVec 16
  enable : BitVec 16
  trigger : Word
deriving DecidableEq, Repr

/-- The timer: "a 64-bit counter, a compare value and three control bits" (R25, R364). -/
structure Timer where
  counter : Word
  compare : Word
  enable : Bool
  irqEnable : Bool
  autoReset : Bool
deriving DecidableEq, Repr

/-- The keyboard: "a 16-entry FIFO" (R25, R365), oldest entry first, and its two registers. The depth is
`Config.keyboardFifo`: `Keyboard.receive` keeps it and the invariant `Keyboard.withinDepth` (Safety.lean) states it. -/
structure Keyboard where
  status : Word
  control : Word
  fifo : List Word
deriving DecidableEq, Repr

/-- The mouse: "two signed accumulators and a button word" (R25, R366), and its two registers. -/
structure Mouse where
  status : Word
  dataX : Word
  dataY : Word
  buttons : Word
  control : Word
deriving DecidableEq, Repr

/-- The peripherals (R25). -/
structure Peripherals where
  uart : Uart
  pic : Pic
  timer : Timer
  keyboard : Keyboard
  mouse : Mouse
deriving DecidableEq, Repr

/-- Everything but the CPU: the bus and what is attached to it. Keeping it apart says that no device reads or writes
the CPU ("ownership is exclusive", 10_state.md). -/
structure Soc where
  /-- the configuration; no step changes it (R18, R28; log 6) -/
  cfg : Config
  bus : Bus
  ram : Ram
  /-- the optional second RAM device (R367) -/
  scratch : Ram
  ctrl : Ctrl
  storage : Storage
  periph : Peripherals
  /-- the model's own: the index of the next free value (log 1) -/
  freeCount : Nat
deriving DecidableEq, Repr

/-- The whole machine. -/
structure State where
  cpu : Cpu
  soc : Soc
deriving DecidableEq, Repr

/-! ## Why a step stops -/

/-- Faults. `step` raises none: a bus error leaves the CPU in its waiting micro-op (R353), which is a next state. -/
inductive Fault where
  /-- Raised by `stepOrFault` alone, the reading R354 licenses ("free to surface this as a fatal CPU fault"): the bus
  has found no device at this address. Safe: it stops where the hardware is stuck for ever. -/
  | busError (address : Word)
deriving DecidableEq, Repr

/-- Refusals: what the spec puts outside the machine. -/
inductive Refusal where
  /-- Raised by `exec` for an instruction without a meaning yet. Safe: the model says nothing of it. -/
  | notModelled (mnemonic : String)
  /-- Raised by Execute for an opcode field that no instruction has: "a model must refuse a program that reaches one"
  (R99, U1). Safe. -/
  | reservedOpcode (field : BitVec 6)
  /-- Raised by Fetch for a `pc` that is not a multiple of 4: "a model should refuse a fetch" (R66, U2). Safe. -/
  | unalignedFetch (pc : Word)
  /-- Raised by a bus tick that sees Read and Write together: "no defined behaviour" (R52, U5). The CPU never asserts
  both. Safe. -/
  | readAndWriteTogether
deriving DecidableEq, Repr

/-- The outcome of a step of the machine. -/
abbrev Out := Host.Outcome State Fault Refusal

/-- The outcome of a bus tick. -/
abbrev SocOut := Host.Outcome Soc Fault Refusal

/-! ## Construction and reset (R29, R390, R391) -/

/-- The CPU after `Reset(entry)` (R390). -/
def Cpu.reset (entry : Word) : Cpu where
  x := Vector.replicate 32 0
  pc := entry
  flags := ⟨false, false, false, false⟩
  halted := false
  stage := .fetch
  uop := 0
  instr := Decoded.zero
  opA := 0
  opB := 0
  aluResult := 0
  memData := 0

/-- The bus at construction: "all lines and all six signals 0" (R17), counters 0 (R19). -/
def Bus.fresh : Bus where
  address := 0
  data := 0
  read := false
  write := false
  wait := false
  ready := false
  irq := false
  error := false
  readCount := 0
  writeCount := 0

/-- A RAM at construction: no byte listed, not busy (R20). -/
def Ram.fresh : Ram := ⟨[], false, 0⟩

/-- A fresh NAND chip of `n` blocks: every page erased, counters 0, no block bad (R21, D19). -/
def Nand.fresh (n : Nat) : Nand := ⟨[], List.replicate n ⟨0, false⟩⟩

/-- The FTL that mounting a fresh chip of `n` blocks gives (R233): nothing mapped, every block Free, block 0 on top of
the free list (R231), no cursor. Log 17. -/
def Ftl.fresh (n : Nat) : Ftl := ⟨[], List.replicate n ⟨.free, 0, 0⟩, List.range n, none⟩

/-- The controller at construction: all 0 (R271, R272). -/
def Ctrl.fresh : Ctrl where
  intms := 0
  intmc := 0
  cc := 0
  csts := 0
  aqa := 0
  asqLo := 0
  asqHi := 0
  acqLo := 0
  acqHi := 0
  sqTail := 0
  cqHead := 0
  sqHead := 0
  cqTail := 0
  pending := ⟨false, 0, 0, 0, 0⟩
  busyTicks := 0

/-- The peripherals at construction: the spec gives no value (N20). DESIGN CHOICE, log 2: zero, FIFO empty. -/
def Peripherals.fresh : Peripherals where
  uart := ⟨0, 0, 0⟩
  pic := ⟨0, 0, 0⟩
  timer := ⟨0, 0, false, false, false⟩
  keyboard := ⟨0, 0, []⟩
  mouse := ⟨0, 0, 0, 0, 0⟩

/-- Construction of the whole system (R391) with a given configuration, over a fresh chip of NAND_BLOCKS blocks, and
then `Reset` with the configured reset vector. -/
def State.construct (cfg : Config) : State where
  cpu := Cpu.reset cfg.resetVector
  soc :=
    { cfg := cfg
      bus := Bus.fresh
      ram := Ram.fresh
      scratch := Ram.fresh
      ctrl := Ctrl.fresh
      storage := ⟨Nand.fresh cfg.nandBlocks, Ftl.fresh cfg.nandBlocks⟩
      periph := Peripherals.fresh
      freeCount := 0 }

/-- The machine right after reset: the platform constructed and reset to its vector 0x0000_0000 (R29, R393). -/
def State.reset : State := State.construct Config.platform

end Sys2Proof.Machine
end

