-- ==== Sys2Proof/Machine/Ops.lean ====
section
/-! DEFINITION. The named operations over memory, registers and outcomes that every other file of the machine uses.

TAKING AN EXCEPTION does not exist on this machine: "There is no exception/trap path" (60_exceptions.md R350). No
instruction and no event saves the pc, changes a mode or goes to a handler (R355, R356, R358), and no instruction returns
from one (R202). What other machines report as an exception is, here, a defined result, the stuck state of R353 (a next
state: `busFailure` below is its one cause), or a refusal. -/

namespace Sys2Proof

/-- The range predicate of a device (R45): `base <= A < base + size`, unsigned (R60, R270). -/
def DeviceEntry.inRange (e : DeviceEntry) (a : Word) : Bool :=
  decide (e.base.toNat ≤ a.toNat) && decide (a.toNat < e.base.toNat + e.size)

/-- The offset of an address within a device's range: "each device subtracts its own base" (R45). -/
def DeviceEntry.offset (e : DeviceEntry) (a : Word) : Nat :=
  a.toNat - e.base.toNat

end Sys2Proof

namespace Sys2Proof.Machine

/-! ## Outcomes -/

/-- Do `f` after `o` when `o` answers a next state; a fault or a refusal ends it. -/
def andThen (o : Out) (f : State → Out) : Out :=
  match o with
  | .next s => f s
  | .fault r => .fault r
  | .refused r => .refused r

/-! ## Sparse data -/

/-- What key `a` holds: the listed value, or `fill`. -/
def Sparse.read {β : Type} (fill : β) : Sparse β → Nat → β
  | [], _ => fill
  | (k, v) :: rest, a => if k = a then v else Sparse.read fill rest a

/-- `m` with `v` at key `a`, in canonical form: writing `fill` removes the entry. -/
def Sparse.write {β : Type} [DecidableEq β] (fill : β) : Sparse β → Nat → β → Sparse β
  | [], a, v => if v = fill then [] else [(a, v)]
  | (k, old) :: rest, a, v =>
    if k < a then (k, old) :: Sparse.write fill rest a v
    else if k = a then (if v = fill then rest else (a, v) :: rest)
    else (if v = fill then (k, old) :: rest else (a, v) :: (k, old) :: rest)

/-- The canonical form: keys strictly rising, no entry equal to `fill`. -/
abbrev Sparse.wf {β : Type} [DecidableEq β] (fill : β) (m : Sparse β) : Prop :=
  m.Pairwise (fun p q => p.1 < q.1) ∧ ∀ e ∈ m, e.2 ≠ fill

/-! ## Memory (20_memory.md R61) -/

/-- What an unlisted address of RAM reads as: RAM bytes are 0x00 at construction (R20, D9; log 13). -/
def Memory.unlisted : Byte := 0x00

/-- The byte at an address. -/
def Memory.read (m : Memory) (a : Nat) : Byte :=
  Sparse.read Memory.unlisted m a

/-- `m` with a byte written at an address. -/
def Memory.write (m : Memory) (a : Nat) (v : Byte) : Memory :=
  Sparse.write Memory.unlisted m a v

/-- The canonical form of memory. -/
abbrev Memory.wf (m : Memory) : Prop :=
  Sparse.wf Memory.unlisted m

/-- The 64-bit value at byte address `a`, little-endian (R61, R65). -/
def Memory.read64 (m : Memory) (a : Nat) : Word :=
  join64 fun i => m.read (a + i)

/-- `m` with the bytes of a list written at `a`, `a + 1`, and so on. -/
def Memory.writeBytes (m : Memory) (a : Nat) : List Byte → Memory
  | [] => m
  | b :: rest => (m.write a b).writeBytes (a + 1) rest

/-- `m` with the 64-bit value `v` at byte address `a`, little-endian (R61, R65). -/
def Memory.write64 (m : Memory) (a : Nat) (v : Word) : Memory :=
  m.writeBytes a (bytesOf64 v)

/-! ## General registers (10_state.md R10) -/

/-- `x[i]` (R7). No register is hardwired (R10). -/
def Cpu.reg (c : Cpu) (i : RegIdx) : Word :=
  c.x[i]

/-- `x[i] <- v` (R7). -/
def Cpu.setReg (c : Cpu) (i : RegIdx) (v : Word) : Cpu :=
  { c with x := c.x.set i v }

/-! ## The bus -/

/-- The entry of the device table that claims an address, if any: "the first device whose range contains the address"
(R18, R52). -/
def Soc.target (p : Soc) (a : Word) : Option DeviceEntry :=
  p.cfg.devices.find? fun e => e.inRange a

/-- A decode failure: Error and Wait are set, no handler is called (R53). This is the only cause of the stuck state of
60_exceptions.md R353. -/
def Bus.busFailure (b : Bus) : Bus :=
  { b with error := true, wait := true }

/-! ## Free values (log 1) -/

/-- The next free value for a peripheral register, and the machine with that value used up. -/
def Soc.freeRegister (p : Soc) : Word × Soc :=
  (Config.peripheralRegister p.freeCount, { p with freeCount := p.freeCount + 1 })

/-- The next free value for a read of a peripheral, and the machine with that value used up. -/
def Soc.freeRead (p : Soc) : Word × Soc :=
  (Config.peripheralRead p.freeCount, { p with freeCount := p.freeCount + 1 })

end Sys2Proof.Machine
end

