-- ==== Sys2Proof/Machine/Nand.lean ====
section
/-! DEFINITION. The NAND cell model (45_nand.md): Erase, Program, Read. -/

namespace Sys2Proof.Machine

/-- The status of an operation of the NAND chip, the FTL or the controller (R7, R212). -/
inductive Status where
  | success
  | writeError
  | invalidAddress
  | readError
deriving DecidableEq, Repr

/-- An erased page: "every byte of an erased page reads as 0xFF", data and OOB (R211, R213). -/
def Page.erased : Page :=
  ⟨List.replicate Config.pageSize 0xFF, List.replicate Config.oobSize 0xFF⟩

/-- The page number of page `p` of block `b`: PBA = b x 64 + p (R22). -/
def pageNumber (b p : Nat) : Nat :=
  b * Config.pagesPerBlock + p

/-- N, the number of blocks (R210). -/
def Nand.blockCount (n : Nand) : Nat :=
  n.blocks.length

/-- The contents of a page. -/
def Nand.page (n : Nand) (b p : Nat) : Page :=
  Sparse.read Page.erased n.pages (pageNumber b p)

/-- `erase_count[b]` (R218); 0 for a block the chip does not have. -/
def Nand.eraseCount (n : Nand) (b : Nat) : Nat :=
  (n.blocks.getD b ⟨0, false⟩).eraseCount

/-- `Erase(b)` (R213): every byte of the block to 0xFF, its erase counter up by one; the bad flag is neither tested
nor changed (D19). -/
def Nand.erase (n : Nand) (b : Nat) : Status × Nand :=
  if n.blockCount ≤ b then (.invalidAddress, n)
  else
    (.success,
      { pages := n.pages.filter fun e => e.1 / Config.pagesPerBlock != b
        blocks := n.blocks.modify b fun m => { m with eraseCount := m.eraseCount + 1 } })

/-- "`(existing & incoming) == incoming` must hold" for every byte (R214). -/
def programmable (existing incoming : List Byte) : Bool :=
  (existing.zip incoming).all fun e => e.1 &&& e.2 == e.2

/-- "`existing &= incoming`" (R214). -/
def programBytes (existing incoming : List Byte) : List Byte :=
  List.zipWith (fun e i => e &&& i) existing incoming

/-- `Program(b, p, data_in, oob_in or none)` (R214): every check comes before any byte changes. -/
def Nand.program (n : Nand) (b p : Nat) (dataIn : List Byte) (oobIn : Option (List Byte)) : Status × Nand :=
  let old := n.page b p
  if n.blockCount ≤ b ∨ Config.pagesPerBlock ≤ p then (.invalidAddress, n)
  else if dataIn.length ≠ Config.pageSize then (.invalidAddress, n)
  else
    match oobIn with
    | none =>
      if programmable old.data dataIn then
        (.success,
          { n with pages := Sparse.write Page.erased n.pages (pageNumber b p)
                              { old with data := programBytes old.data dataIn } })
      else (.writeError, n)
    | some oob =>
      if oob.length ≠ Config.oobSize then (.invalidAddress, n)
      else if programmable old.data dataIn && programmable old.oob oob then
        (.success,
          { n with pages := Sparse.write Page.erased n.pages (pageNumber b p)
                              ⟨programBytes old.data dataIn, programBytes old.oob oob⟩ })
      else (.writeError, n)

/-- What a read of a page answers (R215). -/
structure ReadResult where
  status : Status
  data : List Byte
  oob : Option (List Byte)
deriving DecidableEq, Repr

/-- `Read(b, p, want_oob)` (R215) into a data buffer of `dataSize` bytes and, where one is supplied, an OOB buffer of
`oobBuffer` bytes: an index out of range or a buffer of the wrong size gives `InvalidAddress`. Reading changes no
state. -/
def Nand.read (n : Nand) (b p : Nat) (dataSize : Nat) (oobBuffer : Option Nat) : ReadResult :=
  if n.blockCount ≤ b ∨ Config.pagesPerBlock ≤ p then ⟨.invalidAddress, [], none⟩
  else if dataSize ≠ Config.pageSize then ⟨.invalidAddress, [], none⟩
  else
    match oobBuffer with
    | none => ⟨.success, (n.page b p).data, none⟩
    | some size =>
      if size ≠ Config.oobSize then ⟨.invalidAddress, [], none⟩
      else ⟨.success, (n.page b p).data, some (n.page b p).oob⟩

/-- A read of a page with its OOB area, as the FTL reads it. -/
def Nand.readWithOob (n : Nand) (b p : Nat) : ReadResult :=
  n.read b p Config.pageSize (some Config.oobSize)

end Sys2Proof.Machine
end

