-- ==== Sys2Proof/Machine/Ftl.lean ====
section
/-! DEFINITION. The log-structured flash translation layer (46_ftl.md): Mount, Write, Read, Allocate,
GarbageCollect. -/

namespace Sys2Proof.Machine

/-! ## The map, the OOB record and the block table -/

/-- The PBA of page `p` of block `b`, 32 bits (R22, R230). -/
def pbaOf (b p : Nat) : BitVec 32 :=
  BitVec.ofNat 32 (pageNumber b p)

/-- The block of a PBA: `PBA div 64` (R233). -/
def pbaBlock (pba : BitVec 32) : Nat :=
  pba.toNat / Config.pagesPerBlock

/-- The page of a PBA within its block: `PBA mod 64` (R233). -/
def pbaPage (pba : BitVec 32) : Nat :=
  pba.toNat % Config.pagesPerBlock

/-- `l2p[lba]`, none where the LBA is not mapped (R230). -/
def Ftl.lookup (f : Ftl) (lba : BitVec 32) : Option (BitVec 32) :=
  Sparse.read none f.l2p lba.toNat

/-- `l2p[lba] <- pba`. -/
def Ftl.map (f : Ftl) (lba pba : BitVec 32) : Ftl :=
  { f with l2p := Sparse.write none f.l2p lba.toNat (some pba) }

/-- `info[b] <- g(info[b])`. -/
def Ftl.updateInfo (f : Ftl) (b : Nat) (g : BlockInfo → BlockInfo) : Ftl :=
  { f with info := f.info.modify b g }

/-- `info[b].state <- st`. -/
def Ftl.setState (f : Ftl) (b : Nat) (st : BlockState) : Ftl :=
  f.updateInfo b fun i => { i with state := st }

/-- Set bit `p` of `info[b].valid`. -/
def Ftl.setValid (f : Ftl) (b p : Nat) : Ftl :=
  f.updateInfo b fun i => { i with valid := setBit i.valid p }

/-- Clear bit `p` of `info[b].valid`. -/
def Ftl.clearValid (f : Ftl) (b p : Nat) : Ftl :=
  f.updateInfo b fun i => { i with valid := clearBit i.valid p }

/-- Clear the valid bit of the page an LBA is mapped to, if it is mapped (R234 step 2). -/
def Ftl.invalidate (f : Ftl) (lba : BitVec 32) : Ftl :=
  match f.lookup lba with
  | some old => f.clearValid (pbaBlock old) (pbaPage old)
  | none => f

/-- The OOB record of an LBA (R232, D20): the magic as a little-endian 64-bit value, the LBA little-endian, and 0xFF
up to 64 bytes. -/
def oobRecord (lba : BitVec 32) : List Byte :=
  bytesOf64 Config.oobMagic ++ bytesOf32 lba ++ List.replicate 52 0xFF

/-- `has_magic(oob)`: bytes 0..7 equal the magic (R232). -/
def hasMagic (oob : List Byte) : Bool :=
  oob.take 8 == bytesOf64 Config.oobMagic

/-- The LBA an OOB area records: bytes 8..11, little-endian (R232). -/
def oobLba (oob : List Byte) : BitVec 32 :=
  dwordAt oob 8

/-- The OOB area a read returned; empty where it returned none. -/
def ReadResult.oobBytes (r : ReadResult) : List Byte :=
  r.oob.getD []

/-! ## Mount (R233) -/

/-- `Contribute(b, p, oob)` (R233). -/
def Ftl.contribute (f : Ftl) (b p : Nat) (oob : List Byte) : Ftl :=
  ((f.invalidate (oobLba oob)).map (oobLba oob) (pbaOf b p)).setValid b p

/-- The scan of the pages of a block after page 0: pages with the magic contribute; the first without it makes the
block Active with that page as the next-write offset, and later pages are not scanned (R233). -/
def Ftl.scanPages (nand : Nand) (b : Nat) (f : Ftl) : List (Fin 64) → Ftl
  | [] => f
  | p :: rest =>
    let r := nand.readWithOob b p
    if r.status = .success ∧ hasMagic r.oobBytes then
      Ftl.scanPages nand b (f.contribute b p r.oobBytes) rest
    else { f.setState b .active with active := some ⟨b, p⟩ }

/-- The pages 1 to 63 of a block, ascending. -/
def pagesAfterFirst : List (Fin 64) :=
  (List.finRange 64).drop 1

/-- The scan of one block (R233). -/
def Ftl.scanBlock (nand : Nand) (f : Ftl) (b : Nat) : Ftl :=
  let r := nand.readWithOob b 0
  if r.status ≠ .success then f.setState b .bad
  else if !hasMagic r.oobBytes then
    { f.setState b .free with freeList := b :: f.freeList }
  else Ftl.scanPages nand b ((f.contribute b 0 r.oobBytes).setState b .full) pagesAfterFirst

/-- The FTL before the scan: every block Free with the chip's erase count and no valid page (R233). -/
def Ftl.unscanned (nand : Nand) : Ftl :=
  { l2p := []
    info := nand.blocks.map fun m => ⟨.free, m.eraseCount, 0⟩
    freeList := []
    active := none }

/-- `Mount()` (R233): the blocks are scanned from N - 1 down to 0. -/
def Ftl.mount (nand : Nand) : Ftl :=
  (List.range nand.blockCount).reverse.foldl (Ftl.scanBlock nand) (Ftl.unscanned nand)

/-! ## Write, Allocate, GarbageCollect (R234 to R237) -/

/-- The cursor after page `next` of block `b` has been written: the next page, or none after page 63 (R234). -/
def Cursor.advance (c : Cursor) : Option Cursor :=
  if h : c.next.val + 1 < 64 then some ⟨c.block, ⟨c.next.val + 1, h⟩⟩ else none

/-- Steps 4 and 5 of Write (R234): program the page under the cursor and, on success, map the LBA to it, set its valid
bit and move the cursor; a block whose last page was written becomes Full. -/
def Storage.programAt (st : Storage) (c : Cursor) (lba : BitVec 32) (buf : List Byte) : Status × Storage :=
  match st.nand.program c.block c.next buf (some (oobRecord lba)) with
  | (.success, nand) =>
    let f := ((st.ftl.map lba (pbaOf c.block c.next)).setValid c.block c.next)
    let f := match c.advance with
      | some c' => { f with active := some c' }
      | none => { f.setState c.block .full with active := none }
    (.success, { nand := nand, ftl := f })
  | (status, nand) => (status, { st with nand := nand })

/-- Pop the free list and make the block the Active one, with its cursor at page 0 (R231, R236); none where the list
is empty. -/
def Ftl.openFreeBlock (f : Ftl) : Option (Cursor × Ftl) :=
  match f.freeList with
  | [] => none
  | b :: rest => some (⟨b, 0⟩, { f.setState b .active with freeList := rest, active := some ⟨b, 0⟩ })

/-- The Write of a survivor inside garbage collection (R237 step 5). "GC never recurses: the nested Writes find the
freed block on the free list" (R237), so its allocation is a pop of the free list alone (log 18). -/
def Storage.writeSurvivor (st : Storage) (lba : BitVec 32) (buf : List Byte) : Status × Storage :=
  let f := st.ftl.invalidate lba
  match f.active with
  | some c => Storage.programAt { st with ftl := f } c lba buf
  | none =>
    match f.openFreeBlock with
    | some (c, f) => Storage.programAt { st with ftl := f } c lba buf
    | none => (.writeError, { st with ftl := f })

/-- Write the survivors in order; the first failure is GC's failure (R237 step 5). -/
def Storage.writeSurvivors (st : Storage) : List (BitVec 32 × List Byte) → Bool × Storage
  | [] => (true, st)
  | (lba, data) :: rest =>
    match st.writeSurvivor lba data with
    | (.success, st) => st.writeSurvivors rest
    | (_, st) => (false, st)

/-- Whether block `b` may be GC's victim: not Free, not Bad, not the cursor's block (R237 step 1). -/
def Ftl.victimCandidate (f : Ftl) (b : Nat) (i : BlockInfo) : Bool :=
  i.state != .free && i.state != .bad && f.active.map Cursor.block != some b

/-- The better victim of the one found so far and block `b`: fewer valid pages, ties to the lower index, which was
found first (R237 step 1, D22). -/
def betterVictim (f : Ftl) (best : Option (Nat × BlockInfo)) (e : BlockInfo × Nat) : Option (Nat × BlockInfo) :=
  if f.victimCandidate e.2 e.1 then
    match best with
    | none => some (e.2, e.1)
    | some (v, i) => if popcount e.1.valid < popcount i.valid then some (e.2, e.1) else some (v, i)
  else best

/-- GC's victim and its block info, if there is a candidate (R237 step 1). -/
def Ftl.victim (f : Ftl) : Option (Nat × BlockInfo) :=
  f.info.zipIdx.foldl (betterVictim f) none

/-- The survivors among the given pages of the victim, in ascending page order: pages with a valid bit whose LBA still
maps to them; none where a page cannot be read (R237 step 3). -/
def Storage.survivors (st : Storage) (victim : Nat) (valid : BitVec 64) :
    List Nat → Option (List (BitVec 32 × List Byte))
  | [] => some []
  | p :: rest =>
    if checkBit valid p then
      let r := st.nand.readWithOob victim p
      if r.status ≠ .success then none
      else
        match st.survivors victim valid rest with
        | none => none
        | some later =>
          let lba := oobLba r.oobBytes
          if (st.ftl.lookup lba).map BitVec.toNat = some (pageNumber victim p) then some ((lba, r.data) :: later)
          else some later
    else st.survivors victim valid rest

/-- The FTL after the victim has been erased: valid bitmap 0, state Free, erase counter up by one, on the free list
(R237 step 4). -/
def Ftl.freeVictim (f : Ftl) (victim : Nat) : Ftl :=
  { f.updateInfo victim fun i => ⟨.free, i.eraseCount + 1, 0⟩ with freeList := victim :: f.freeList }

/-- `GarbageCollect()` (R237). -/
def Storage.garbageCollect (st : Storage) : Bool × Storage :=
  match st.ftl.victim with
  | none => (false, st)
  | some (victim, info) =>
    match st.survivors victim info.valid (List.range Config.pagesPerBlock) with
    | none => (false, st)
    | some live =>
      match st.nand.erase victim with
      | (.success, nand) => Storage.writeSurvivors { nand := nand, ftl := st.ftl.freeVictim victim } live
      | (_, nand) => (false, { nand := nand, ftl := st.ftl.setState victim .bad })

/-- `Allocate()` (R236), called with no active block: the cursor to write at, or none. After a successful GC an active
block that GC's survivors opened satisfies the allocation (C10). -/
def Storage.allocate (st : Storage) : Option Cursor × Storage :=
  match st.ftl.openFreeBlock with
  | some (c, f) => (some c, { st with ftl := f })
  | none =>
    match st.garbageCollect with
    | (false, st) => (none, st)
    | (true, st) =>
      match st.ftl.active with
      | some c => (some c, st)
      | none =>
        match st.ftl.openFreeBlock with
        | some (c, f) => (some c, { st with ftl := f })
        | none => (none, st)

/-- `Write(lba, buf)` (R234). The old copy's valid bit is cleared first and not restored on a failure (R245). -/
def Storage.write (st : Storage) (lba : BitVec 32) (buf : List Byte) : Status × Storage :=
  let st := { st with ftl := st.ftl.invalidate lba }
  match st.ftl.active with
  | some c => st.programAt c lba buf
  | none =>
    match st.allocate with
    | (some c, st) => st.programAt c lba buf
    | (none, st) => (.writeError, st)

/-- `Read(lba)` (R235): 4096 bytes of 0xFF for an LBA with no mapping, else the mapped page and the chip's status. It
changes no state. -/
def Storage.read (st : Storage) (lba : BitVec 32) : Status × List Byte :=
  match st.ftl.lookup lba with
  | none => (.success, List.replicate Config.pageSize 0xFF)
  | some pba =>
    let r := st.nand.read (pbaBlock pba) (pbaPage pba) Config.pageSize none
    (r.status, r.data)

end Sys2Proof.Machine
end

