-- ==== Sys2Proof/Machine/Memory.lean ====
section
/-! DEFINITION. The RAM device (20_memory.md R60 to R62). -/

namespace Sys2Proof.Machine

/-- Whether all eight bytes of an access at `off` lie in an array of `size` bytes (R61). -/
def Ram.covers (size off : Nat) : Bool :=
  decide (off + 8 ≤ size)

/-- `RAM.transfer_read` (R61): the 8 bytes from byte offset `off`, little-endian, unaligned (C4); 0 out of range. -/
def Ram.transferRead (r : Ram) (size off : Nat) : Word :=
  if Ram.covers size off then r.bytes.read64 off else 0

/-- `RAM.transfer_write` (R61): the 8 bytes from byte offset `off`; nothing out of range. -/
def Ram.transferWrite (r : Ram) (size off : Nat) (v : Word) : Ram :=
  if Ram.covers size off then { r with bytes := r.bytes.write64 off v } else r

/-- What a handler call meets (R62): the transfer happens in this call, or the device is waiting. The waiting RAM is
given: the first call of a transaction makes it busy with `pending_wait = L` (D9). -/
def Ram.waiting (r : Ram) (latency : Nat) : Option Ram :=
  if latency = 0 then none
  else if !r.busy then some { r with busy := true, pendingWait := latency }
  else if r.pendingWait ≠ 0 then some r
  else none

/-- The RAM after the call that transfers: no longer busy, where it has a latency (R62). -/
def Ram.settled (r : Ram) (latency : Nat) : Ram :=
  if latency = 0 then r else { r with busy := false }

/-- The read handler (R62): `(done, data)` and the RAM after it. -/
def Ram.read (r : Ram) (size latency off : Nat) : Bool × Word × Ram :=
  match r.waiting latency with
  | some r' => (false, 0, r')
  | none => (true, r.transferRead size off, r.settled latency)

/-- The write handler (R62): `done` and the RAM after it. -/
def Ram.write (r : Ram) (size latency off : Nat) (v : Word) : Bool × Ram :=
  match r.waiting latency with
  | some r' => (false, r')
  | none => (true, (r.transferWrite size off v).settled latency)

/-- `RAM.tick` (R62). -/
def Ram.tick (r : Ram) : Ram :=
  if r.busy && decide (0 < r.pendingWait) then { r with pendingWait := r.pendingWait - 1 } else r

end Sys2Proof.Machine
end

