-- ==== Sys2Proof/Machine/Peripherals.lean ====
section
/-! DEFINITION. UART, PIC, timer, keyboard and mouse (60_exceptions.md R360 to R366), as far as the spec goes: the
registers, the side effects it states, and free values for the rest (U3, D30; logs 1 to 5). No peripheral reads or
writes the CPU, RAM, the controller or the storage stack (R360). -/

namespace Sys2Proof.Machine

/-! ## The interrupt controller (R359, R363) -/

/-- "`raise(i)` sets status bit i" (R363). -/
def Pic.raise (p : Pic) (line : Fin 16) : Pic :=
  { p with status := setBit p.status line }

/-- "`clear(i)` clears it" (R363). -/
def Pic.clear (p : Pic) (line : Fin 16) : Pic :=
  { p with status := clearBit p.status line }

/-- `pending()`: whether `IRQ_STATUS & IRQ_ENABLE` is non-zero (R359). -/
def Pic.pending (p : Pic) : Bool :=
  p.status &&& p.enable != 0

/-- `lowest-pending-line()`: the smallest i with bit i set in `IRQ_STATUS & IRQ_ENABLE` (R359). -/
def Pic.lowestPendingLine (p : Pic) : Option (Fin 16) :=
  (List.finRange 16).find? fun i => (p.status &&& p.enable).getLsbD i

/-- "writing a word clears each status bit whose written bit is 1" (R363). Line i is bit i of the data lines (log 3). -/
def Pic.acknowledge (p : Pic) (word : Word) : Pic :=
  { p with status := p.status &&& ~~~(word.setWidth 16) }

/-- A device's line driven to a level: raised or cleared (R361: "Peripherals call the PIC's `raise(line)` and
`clear(line)`"). -/
def Pic.drive (p : Pic) (line : Fin 16) (raised : Bool) : Pic :=
  if raised then p.raise line else p.clear line

/-- The line of a device: "UART-RX = 0, Timer = 1, Keyboard = 2, Mouse = 3" (R357). Lines 4 to 15 have no source, and no
other device has a line. -/
def Peripherals.irqLine (device : DeviceKind) : Option (Fin 16) :=
  match device with
  | .uart => some 0
  | .timer => some 1
  | .keyboard => some 2
  | .mouse => some 3
  | .ram | .scratchRam | .controller | .pic => none

/-! ## The keyboard's FIFO (R365) -/

/-- The host gives the keyboard a key code (R361): the FIFO holds 16 entries; "what happens to a 17th key" is not stated
(R365), so there is no keyboard after it. No step of the machine does this (log 31). -/
def Keyboard.receive (k : Keyboard) (key : Word) : Option Keyboard :=
  if k.fifo.length < Config.keyboardFifo then some { k with fifo := k.fifo ++ [key] } else none

/-! ## Reads -/

/-- The side effect of a completed read at offset `off` of a peripheral: the keyboard DATA register pops its FIFO
(R365), the mouse DATA_X and DATA_Y registers zero their accumulators (R366); no other read has one (R68). -/
def Peripherals.afterRead (p : Peripherals) (device : DeviceKind) (off : Nat) : Peripherals :=
  match device with
  | .keyboard =>
    if off = 0x4 then { p with keyboard := { p.keyboard with fifo := p.keyboard.fifo.tail } } else p
  | .mouse =>
    if off = 0x4 then { p with mouse := { p.mouse with dataX := 0 } }
    else if off = 0x8 then { p with mouse := { p.mouse with dataY := 0 } }
    else p
  | .uart | .pic | .timer | .ram | .scratchRam | .controller => p

/-- A read of a peripheral: a free value on the data lines (R360, U3), and the side effect of the register read. -/
def Soc.peripheralRead (p : Soc) (device : DeviceKind) (off : Nat) : Word × Soc :=
  let (v, p) := p.freeRead
  (v, { p with periph := p.periph.afterRead device off })

/-! ## Writes -/

/-- UART registers after a write: their behaviour is not stated (R362), so the register written takes a free value. -/
def Uart.afterWrite (u : Uart) (off : Nat) (free : Word) : Uart :=
  if off = 0x0 then { u with data := free }
  else if off = 0x4 then { u with status := free }
  else if off = 0x8 then { u with control := free }
  else u

/-- PIC registers after a write (R363): IRQ_STATUS is read-only, IRQ_ENABLE is stored, IRQ_ACK clears status bits; what
writing IRQ_TRIGGER does to the status is not stated, so the status takes a free value. -/
def Pic.afterWrite (p : Pic) (off : Nat) (v free : Word) : Pic :=
  if off = 0x4 then { p with enable := v.setWidth 16 }
  else if off = 0x8 then p.acknowledge v
  else if off = 0xC then { p with trigger := v, status := free.setWidth 16 }
  else p

/-- Timer registers after a write (R364): COUNTER is read-only, COMPARE is stored; the bit positions of CONTROL are not
stated, so its three bits take free values. -/
def Timer.afterWrite (t : Timer) (off : Nat) (v free : Word) : Timer :=
  if off = 0x08 then { t with compare := v }
  else if off = 0x10 then
    { t with enable := free.getLsbD 0, irqEnable := free.getLsbD 1, autoReset := free.getLsbD 2 }
  else t

/-- Keyboard registers after a write (R365): DATA is a read register; STATUS and CONTROL take a free value. -/
def Keyboard.afterWrite (k : Keyboard) (off : Nat) (free : Word) : Keyboard :=
  if off = 0x0 then { k with status := free }
  else if off = 0x8 then { k with control := free }
  else k

/-- Mouse registers after a write (R366): DATA_X and DATA_Y are read registers; the others take a free value. -/
def Mouse.afterWrite (m : Mouse) (off : Nat) (free : Word) : Mouse :=
  if off = 0x00 then { m with status := free }
  else if off = 0x0C then { m with buttons := free }
  else if off = 0x10 then { m with control := free }
  else m

/-- The peripheral's registers after a write of `v` at offset `off`. -/
def Peripherals.afterWrite (p : Peripherals) (device : DeviceKind) (off : Nat) (v free : Word) : Peripherals :=
  match device with
  | .uart => { p with uart := p.uart.afterWrite off free }
  | .pic => { p with pic := p.pic.afterWrite off v free }
  | .timer => { p with timer := p.timer.afterWrite off v free }
  | .keyboard => { p with keyboard := p.keyboard.afterWrite off free }
  | .mouse => { p with mouse := p.mouse.afterWrite off free }
  | .ram | .scratchRam | .controller => p

/-- A write to a peripheral: it changes that peripheral alone (R360, D30). -/
def Soc.peripheralWrite (p : Soc) (device : DeviceKind) (off : Nat) (v : Word) : Soc :=
  let (free, p) := p.freeRegister
  { p with periph := p.periph.afterWrite device off v free }

/-! ## Ticks -/

/-- The registers a peripheral's own time may change, by rules the spec does not state (R360, R364, N21), take free values
at its tick, one of its own for each register: the UART registers, the timer COUNTER, keyboard STATUS, mouse STATUS and
BUTTONS. Key codes and movement come from the host, whose injection is out of scope (00_scope.md R4). DESIGN CHOICE,
log 5. -/
def Peripherals.ownTick (p : Peripherals) (device : DeviceKind) (free : Nat → Word) : Peripherals :=
  match device with
  | .uart => { p with uart := ⟨free 0, free 1, free 2⟩ }
  | .timer => { p with timer := { p.timer with counter := free 0 } }
  | .keyboard => { p with keyboard := { p.keyboard with status := free 0 } }
  | .mouse => { p with mouse := { p.mouse with status := free 0, buttons := free 1 } }
  | .pic | .ram | .scratchRam | .controller => p

/-- The device's interrupt line, if it has one, after the device has driven it to a level (R357, R361). -/
def Peripherals.driveLine (p : Peripherals) (device : DeviceKind) (raised : Bool) : Peripherals :=
  match Peripherals.irqLine device with
  | some line => { p with pic := p.pic.drive line raised }
  | none => p

/-- The number of free values a tick uses up. -/
def Peripherals.tickValues : Nat := 4

/-- A peripheral at its tick: its registers, and its interrupt line, which the device raises or clears by rules the spec
does not state (R357, R361): a free bit. DESIGN CHOICE, log 5. -/
def Peripherals.afterTick (p : Peripherals) (device : DeviceKind) (free : Nat → Word) : Peripherals :=
  (p.ownTick device free).driveLine device ((free 3).getLsbD 0)

/-- The tick of a peripheral. -/
def Soc.peripheralTick (p : Soc) (device : DeviceKind) : Soc :=
  { p with
    periph := p.periph.afterTick device fun k => Config.peripheralRegister (p.freeCount + k)
    freeCount := p.freeCount + Peripherals.tickValues }

end Sys2Proof.Machine
end

