-- ==== Sys2Proof/Machine/Controller.lean ====
section
/-! DEFINITION. The storage controller (47_storage_controller.md) and the bus's bypass path (20_memory.md R56, R57),
over which it moves every byte. -/

namespace Sys2Proof.Machine

/-! ## The register file (R271, R273) -/

/-- VS: "returns version 0x00010000" (R271). -/
def Ctrl.version : BitVec 32 := 0x00010000

/-- CSTS bit 0, Ready (R271). -/
def Ctrl.ready (c : Ctrl) : Bool :=
  checkBit c.csts 0

/-- ASQ = ASQ_HI || ASQ_LO (R271). -/
def Ctrl.asq (c : Ctrl) : Word :=
  c.asqHi ++ c.asqLo

/-- ACQ = ACQ_HI || ACQ_LO (R271). -/
def Ctrl.acq (c : Ctrl) : Word :=
  c.acqHi ++ c.acqLo

/-- The register at an exact offset, 0 at any other offset (R271, R273). -/
def Ctrl.register (c : Ctrl) (cap : BitVec 64) (off : Nat) : BitVec 32 :=
  if off = 0x00 then cap.extractLsb' 0 32
  else if off = 0x04 then cap.extractLsb' 32 32
  else if off = 0x08 then Ctrl.version
  else if off = 0x0C then c.intms
  else if off = 0x10 then c.intmc
  else if off = 0x14 then c.cc
  else if off = 0x1C then c.csts
  else if off = 0x24 then c.aqa
  else if off = 0x28 then c.asqLo
  else if off = 0x2C then c.asqHi
  else if off = 0x30 then c.acqLo
  else if off = 0x34 then c.acqHi
  else if off = 0x1000 then c.sqTail
  else if off = 0x1004 then c.cqHead
  else 0

/-- The read handler: the register, "zero-extended to 64 bits" (R273). -/
def Ctrl.read (c : Ctrl) (cap : BitVec 64) (off : Nat) : Word :=
  (c.register cap off).setWidth 64

/-- A write to CC (R274): setting Enable sets CSTS Ready; clearing it clears Ready, `sq_head` and `cq_tail`. -/
def Ctrl.writeCc (c : Ctrl) (v : BitVec 32) : Ctrl :=
  if !checkBit c.cc 0 && checkBit v 0 then { c with cc := v, csts := setBit c.csts 0 }
  else if checkBit c.cc 0 && !checkBit v 0 then
    { c with cc := v, csts := clearBit c.csts 0, sqHead := 0, cqTail := 0 }
  else { c with cc := v }

/-- A write of a 32-bit register at an exact offset; ignored for read-only registers and any other offset (R273). The
command fetch that a write to SQ0TDBL may start is in `Soc.ringSubmission`. -/
def Ctrl.store (c : Ctrl) (off : Nat) (v : BitVec 32) : Ctrl :=
  if off = 0x0C then { c with intms := v }
  else if off = 0x10 then { c with intmc := v }
  else if off = 0x14 then c.writeCc v
  else if off = 0x24 then { c with aqa := v }
  else if off = 0x28 then { c with asqLo := v }
  else if off = 0x2C then { c with asqHi := v }
  else if off = 0x30 then { c with acqLo := v }
  else if off = 0x34 then { c with acqHi := v }
  else if off = 0x1000 then { c with sqTail := v }
  else if off = 0x1004 then { c with cqHead := v }
  else c

/-! ## Transfers of one device and the bypass read (R56) -/

/-- `dev.transfer_read(A)`: the data transfer a read handler performs when it is done (R56), with its side effect. -/
def Soc.transferRead (p : Soc) (e : DeviceEntry) (a : Word) : Word × Soc :=
  match e.device with
  | .ram => (p.ram.transferRead e.size (e.offset a), p)
  | .scratchRam => (p.scratch.transferRead e.size (e.offset a), p)
  | .controller => (p.ctrl.read p.cfg.cap (e.offset a), p)
  | .uart | .pic | .timer | .keyboard | .mouse => p.peripheralRead e.device (e.offset a)

/-- One more read handler call on the traffic counter (R19, D7). -/
def Soc.countRead (p : Soc) : Soc :=
  { p with bus := { p.bus with readCount := p.bus.readCount + 1 } }

/-- One more write handler call on the traffic counter (R19, D7). -/
def Soc.countWrite (p : Soc) : Soc :=
  { p with bus := { p.bus with writeCount := p.bus.writeCount + 1 } }

/-- `BypassRead(A)` (R56): `(ok, data)`; it touches no line and no signal of the bus. -/
def Soc.bypassRead (p : Soc) (a : Word) : Bool × Word × Soc :=
  match p.target a with
  | none => (false, 0, p)
  | some e =>
    let (v, p) := p.countRead.transferRead e a
    (true, v, p)

/-! ## Command fetch (R275 to R277) -/

/-- `(pointer + 1) mod depth` (R277, R280). The pointers have 32 bits (R272), so a depth above 2^32, which U6 allows, acts
as 2^32, "no wrap" (D25): DESIGN CHOICE, log 33. -/
def nextPointer (pointer : BitVec 32) (depth : Nat) : BitVec 32 :=
  BitVec.ofNat 32 ((pointer.toNat + 1) % depth)

/-- Slot i of the submission queue is at ASQ + i x 64 (R275). -/
def Ctrl.submissionSlot (c : Ctrl) : Word :=
  c.asq + c.sqHead.setWidth 64 * 64

/-- `FetchCommand()` (R277). -/
def Soc.fetchCommand (p : Soc) : Soc :=
  let slot := p.ctrl.submissionSlot
  let (_, q0, p) := p.bypassRead slot
  let (_, q3, p) := p.bypassRead (slot + 24)
  let (_, q5, p) := p.bypassRead (slot + 40)
  let (_, q6, p) := p.bypassRead (slot + 48)
  { p with ctrl := { p.ctrl with
      pending := ⟨true, q0.extractLsb' 0 8, q3, q5.extractLsb' 0 32, q6.extractLsb' 0 32⟩
      sqHead := nextPointer p.ctrl.sqHead p.cfg.sqDepth
      busyTicks := p.cfg.busyTicks } }

/-- What follows a write to SQ0TDBL (R276): a fetch when the controller is ready, no command is in flight and the tail
differs from the head. -/
def Soc.ringSubmission (p : Soc) : Soc :=
  if p.ctrl.ready && !p.ctrl.pending.valid && p.ctrl.sqTail != p.ctrl.sqHead then p.fetchCommand else p

/-- The controller's write handler (R273): `data[31:0]` into the register at that exact offset, with its side effect
(R274, R276, R284). -/
def Soc.controllerWrite (p : Soc) (off : Nat) (v : Word) : Soc :=
  let p := { p with ctrl := p.ctrl.store off (v.extractLsb' 0 32) }
  if off = 0x1000 then p.ringSubmission else p

/-! ## The bypass write (R57) -/

/-- `dev.transfer_write(A, v)` (R57). -/
def Soc.transferWrite (p : Soc) (e : DeviceEntry) (a v : Word) : Soc :=
  match e.device with
  | .ram => { p with ram := p.ram.transferWrite e.size (e.offset a) v }
  | .scratchRam => { p with scratch := p.scratch.transferWrite e.size (e.offset a) v }
  | .controller => p.controllerWrite (e.offset a) v
  | .uart | .pic | .timer | .keyboard | .mouse => p.peripheralWrite e.device (e.offset a) v

/-- `BypassWrite(A, v)` (R57): `ok`. -/
def Soc.bypassWrite (p : Soc) (a v : Word) : Bool × Soc :=
  match p.target a with
  | none => (false, p)
  | some e => (true, p.countWrite.transferWrite e a v)

/-! ## Command execution (R279 to R283) -/

/-- The bypass reads of a DMA, at ascending addresses, for the given word indices: the bytes read, none where a read
fails (R281). -/
def Soc.dmaRead (p : Soc) (base : Word) : List Nat → Option (List Byte) × Soc
  | [] => (some [], p)
  | i :: rest =>
    match p.bypassRead (base + BitVec.ofNat 64 (8 * i)) with
    | (false, _, p) => (none, p)
    | (true, q, p) =>
      match p.dmaRead base rest with
      | (some later, p) => (some (bytesOf64 q ++ later), p)
      | (none, p) => (none, p)

/-- The bypass writes of a DMA, at ascending addresses, for the given word indices: false where one fails; earlier
words stay written (R282). -/
def Soc.dmaWrite (p : Soc) (base : Word) (buffer : List Byte) : List Nat → Bool × Soc
  | [] => (true, p)
  | i :: rest =>
    match p.bypassWrite (base + BitVec.ofNat 64 (8 * i)) (wordAt buffer i) with
    | (false, p) => (false, p)
    | (true, p) => p.dmaWrite base buffer rest

/-- The 512 words of a 4096-byte block (R281). -/
def dmaWords : List Nat := List.range 512

/-- The Write command, opcode 0x01 (R281): the completion status code and the machine. -/
def Soc.executeWrite (p : Soc) : BitVec 15 × Soc :=
  let lba := p.ctrl.pending.lba
  match p.dmaRead p.ctrl.pending.prp1 dmaWords with
  | (none, p) => (p.cfg.scInternalError, p)
  | (some buffer, p) =>
    match p.storage.write lba buffer with
    | (.success, st) => (0, { p with storage := st })
    | (_, st) => (p.cfg.scInternalError, { p with storage := st })

/-- The Read command, opcode 0x02 (R282). -/
def Soc.executeRead (p : Soc) : BitVec 15 × Soc :=
  match p.storage.read p.ctrl.pending.lba with
  | (.success, buffer) =>
    match p.dmaWrite p.ctrl.pending.prp1 buffer dmaWords with
    | (true, p) => (0, p)
    | (false, p) => (p.cfg.scInternalError, p)
  | _ => (p.cfg.scInternalError, p)

/-- `ExecuteCommand()` (R281 to R283): any other opcode does nothing and completes with the error code; the length
field is ignored (R283). -/
def Soc.executeCommand (p : Soc) : BitVec 15 × Soc :=
  if p.ctrl.pending.opcode = 0x01 then p.executeWrite
  else if p.ctrl.pending.opcode = 0x02 then p.executeRead
  else (p.cfg.scInternalError, p)

/-- `status_dword = (sc << 17) | 1` (R279). -/
def statusDword (sc : BitVec 15) : BitVec 32 :=
  (sc.setWidth 32 <<< 17) ||| 1

/-- Where the controller posts: `ACQ + cq_tail x 16 + 8` (R279). -/
def Ctrl.completionAddress (c : Ctrl) : Word :=
  c.acq + c.cqTail.setWidth 64 * 16 + 8

/-- `PostCompletion(sc)` (R279, R280). -/
def Soc.postCompletion (p : Soc) (sc : BitVec 15) : Soc :=
  let (_, p) := p.bypassWrite p.ctrl.completionAddress ((statusDword sc).setWidth 64 <<< 32)
  { p with ctrl := { p.ctrl with cqTail := nextPointer p.ctrl.cqTail p.cfg.cqDepth } }

/-- The pending command executes, its completion is posted, and the latch is emptied (R280). -/
def Soc.completeCommand (p : Soc) : Soc :=
  let (sc, p) := p.executeCommand
  let p := p.postCompletion sc
  { p with ctrl := { p.ctrl with pending := { p.ctrl.pending with valid := false } } }

/-- `Controller.tick()` (R280). -/
def Soc.controllerTick (p : Soc) : Soc :=
  if p.ctrl.pending.valid then
    let p := { p with ctrl := { p.ctrl with busyTicks := p.ctrl.busyTicks - 1 } }
    if p.ctrl.busyTicks = 0 then p.completeCommand else p
  else if p.ctrl.ready && p.ctrl.sqTail != p.ctrl.sqHead then p.fetchCommand
  else p

end Sys2Proof.Machine
end

