-- ==== Sys2Proof/Machine/BusCycle.lean ====
section
/-! DEFINITION. The bus tick and the device ticks: what follows the CPU's tick in every cycle (20_memory.md R40,
R52). -/

namespace Sys2Proof.Machine

/-- The read handler of a device (R45): `(done, data)`. Only RAM ever answers not done (R62, R273, U3). -/
def Soc.handleRead (p : Soc) (e : DeviceEntry) (a : Word) : Bool × Word × Soc :=
  match e.device with
  | .ram =>
    let (done, v, r) := p.ram.read e.size p.cfg.ramLatency (e.offset a)
    (done, v, { p with ram := r })
  | .scratchRam =>
    let (done, v, r) := p.scratch.read e.size p.cfg.scratchLatency (e.offset a)
    (done, v, { p with scratch := r })
  | .controller | .uart | .pic | .timer | .keyboard | .mouse =>
    let (v, p) := p.transferRead e a
    (true, v, p)

/-- The write handler of a device (R45): `done`. -/
def Soc.handleWrite (p : Soc) (e : DeviceEntry) (a v : Word) : Bool × Soc :=
  match e.device with
  | .ram =>
    let (done, r) := p.ram.write e.size p.cfg.ramLatency (e.offset a) v
    (done, { p with ram := r })
  | .scratchRam =>
    let (done, r) := p.scratch.write e.size p.cfg.scratchLatency (e.offset a) v
    (done, { p with scratch := r })
  | .controller | .uart | .pic | .timer | .keyboard | .mouse => (true, p.transferWrite e a v)

/-- A bus tick with Read asserted and a device found (R52): Data is driven only by a completed read (D6). -/
def Soc.serveRead (p : Soc) (e : DeviceEntry) : Soc :=
  let (done, v, p) := p.countRead.handleRead e p.bus.address
  { p with bus := { p.bus with data := if done then v else p.bus.data, wait := !done } }

/-- A bus tick with Write asserted and a device found (R52). -/
def Soc.serveWrite (p : Soc) (e : DeviceEntry) : Soc :=
  let (done, p) := p.countWrite.handleWrite e p.bus.address p.bus.data
  { p with bus := { p.bus with wait := !done } }

/-- `Bus.tick()` (R52, R53). Read and Write together have "no defined behaviour" (U5) and are refused. -/
def Soc.busTick (p : Soc) : SocOut :=
  if p.bus.read && p.bus.write then .refused .readAndWriteTogether
  else if !p.bus.read && !p.bus.write then .next p
  else
    match p.target p.bus.address with
    | none => .next { p with bus := p.bus.busFailure }
    | some e => .next (if p.bus.read then p.serveRead e else p.serveWrite e)

/-- `d.tick()` (R40, R45): RAM (R62), the storage controller (R280), a peripheral (R360). -/
def Soc.deviceTick (p : Soc) (e : DeviceEntry) : Soc :=
  match e.device with
  | .ram => { p with ram := p.ram.tick }
  | .scratchRam => { p with scratch := p.scratch.tick }
  | .controller => p.controllerTick
  | .uart | .pic | .timer | .keyboard | .mouse => p.peripheralTick e.device

/-- Each device's tick, "in device-table order" (R40, D1). -/
def Soc.deviceTicks (p : Soc) : Soc :=
  p.cfg.devices.foldl Soc.deviceTick p

/-- The bus tick and then the device ticks of one cycle (R40). -/
def Soc.cycle (p : Soc) : SocOut :=
  match p.busTick with
  | .next p => .next p.deviceTicks
  | .fault r => .fault r
  | .refused r => .refused r

/-- The rest of the cycle after the CPU's tick (R40). -/
def State.finishCycle (s : State) : Out :=
  match s.soc.cycle with
  | .next p => .next { s with soc := p }
  | .fault r => .fault r
  | .refused r => .refused r

/-- Whether a device claims the address on the bus. -/
def Soc.claimed (p : Soc) : Bool :=
  (p.target p.bus.address).isSome

/-- A bound on the wait states of one transaction: no RAM holds one longer than its latency, or than the count an
abandoned transaction left (R62, R392; log 14). -/
def Soc.waitBound (p : Soc) : Nat :=
  p.cfg.ramLatency + p.cfg.scratchLatency + p.ram.pendingWait + p.scratch.pendingWait

end Sys2Proof.Machine
end

