-- ==== Sys2Proof/Machine/Flags.lean ====
section
/-! DEFINITION. The ALU and its flags (41_alu_ops.md R150). -/

namespace Sys2Proof.Machine

/-- The eight operations of the ALU (R150). -/
inductive AluOp where
  | add | sub | and | or | xor | lsl | lsr | asr
deriving DecidableEq, Repr

/-- "Shift amount is masked to its low 6 bits before use" (R150): `s = b[5:0]`. -/
def shiftAmount (b : Word) : Nat :=
  (b.extractLsb' 0 6).toNat

/-- The result of an ALU operation on `a` and `b` (R150). -/
def AluOp.result (op : AluOp) (a b : Word) : Word :=
  match op with
  | .add => a + b
  | .sub => a - b
  | .and => a &&& b
  | .or => a ||| b
  | .xor => a ^^^ b
  | .lsl => a <<< shiftAmount b
  | .lsr => a >>> shiftAmount b
  | .asr => a.sshiftRight (shiftAmount b)

/-- The carry flag (R150): carry out of ADD, borrow of SUB, passed through by AND, OR, XOR, the last bit shifted out by
a shift, passed through when the amount is 0. -/
def AluOp.carry (op : AluOp) (a b : Word) (cIn : Bool) : Bool :=
  match op with
  | .add => decide ((a + b).toNat < a.toNat)
  | .sub => decide (a.toNat < b.toNat)
  | .and | .or | .xor => cIn
  | .lsl => if shiftAmount b = 0 then cIn else a.getLsbD (64 - shiftAmount b)
  | .lsr | .asr => if shiftAmount b = 0 then cIn else a.getLsbD (shiftAmount b - 1)

/-- The overflow flag (R150): signed overflow of ADD and SUB, cleared by every other operation. -/
def AluOp.overflow (op : AluOp) (a b : Word) : Bool :=
  match op with
  | .add => (a.msb == b.msb) && (a.msb != (a + b).msb)
  | .sub => (a.msb != b.msb) && ((a - b).msb != a.msb)
  | .and | .or | .xor | .lsl | .lsr | .asr => false

/-- The ALU: `(op, a, b, flags_in) -> (result, flags_out)` (R150). Z and N always describe the result; of the flags
coming in only C is used. -/
def alu (op : AluOp) (a b : Word) (flags : Flags) : Word × Flags :=
  let r := op.result a b
  (r, { z := r == 0, n := r.msb, c := op.carry a b flags.c, v := op.overflow a b })

end Sys2Proof.Machine
end

