-- ==== Sys2Proof/Machine/Operands.lean ====
section
/-! DEFINITION. The operand forms: what the Decode stage reads for each shape (40_pipeline.md R124), and the effective
address of LDR and STR (42_load_store.md R182). -/

namespace Sys2Proof.Machine

/-- Register shape: `OpA <- x[rn]`, `OpB <- x[rm]`; enter Execute (R124). -/
def State.readRegisterOperands (s : State) (rn rm : RegIdx) : State :=
  { s with cpu := { s.cpu with opA := s.cpu.reg rn, opB := s.cpu.reg rm, stage := .execute } }

/-- Immediate shape: `OpA <- x[rn]`, `OpB <- imm`; enter Execute (R124). -/
def State.readImmediateOperands (s : State) (rn : RegIdx) (imm : Word) : State :=
  { s with cpu := { s.cpu with opA := s.cpu.reg rn, opB := imm, stage := .execute } }

/-- Branch shape: `OpB <- imm`, "OpA keeps its old value" (R124, D16); enter Execute. -/
def State.readBranchOperand (s : State) (imm : Word) : State :=
  { s with cpu := { s.cpu with opB := imm, stage := .execute } }

/-- The Decode stage (R124), by the shape of the latched instruction. -/
def State.decodeStage (s : State) : State :=
  match s.cpu.instr.shape with
  | .register => s.readRegisterOperands s.cpu.instr.rn s.cpu.instr.rm
  | .immediate => s.readImmediateOperands s.cpu.instr.rn s.cpu.instr.imm
  | .branch => s.readBranchOperand s.cpu.instr.imm

/-- The effective address of LDR and STR: `(x[rn] + imm) mod 2^64` (R182); the immediate is not sign-extended (C3). -/
def State.effectiveAddress (s : State) (rn : RegIdx) (imm : Word) : Word :=
  s.cpu.reg rn + imm

end Sys2Proof.Machine
end

