-- ==== Sys2Proof/Machine/Stages.lean ====
section
/-! DEFINITION. What one CPU tick does in each stage (40_pipeline.md R122 to R128), and the sequences of cycles that
instructions are made of. The Decode stage is in Machine/Operands.lean. -/

namespace Sys2Proof.Machine

/-! ## Fetch (R122, R123) -/

/-- Fetch micro-op 0 (R122). A `pc` that is not a multiple of 4 is refused (R66, U2; log 11). -/
def State.fetchRequest (s : State) : Out :=
  if s.cpu.pc.toNat % 4 = 0 then
    .next
      { cpu := { s.cpu with uop := 1 }
        soc := { s.soc with bus := { s.soc.bus with address := s.cpu.pc, read := true, write := false } } }
  else .refused (.unalignedFetch s.cpu.pc)

/-- Fetch micro-op 1 with Wait clear (R123): decode the low 32 bits of the data lines, de-assert Read, enter Decode. -/
def State.fetchLatch (s : State) : State :=
  { cpu := { s.cpu with instr := decode (s.soc.bus.data.extractLsb' 0 32), stage := .decode, uop := 0 }
    soc := { s.soc with bus := { s.soc.bus with read := false } } }

/-! ## Execute (R125) -/

/-- ADD SUB AND OR XOR LSL LSR ASR in Execute (R125). -/
def State.executeAlu (s : State) (op : AluOp) : State :=
  let (r, flags) := alu op s.cpu.opA s.cpu.opB s.cpu.flags
  { s with cpu := { s.cpu with aluResult := r, flags := flags, stage := .writeBack } }

/-- MOV in Execute: "force OpA = 0 and dispatch to the ALU as ADD" (R125, R190); the flags are committed (D12). -/
def State.executeMov (s : State) : State :=
  State.executeAlu { s with cpu := { s.cpu with opA := 0 } } .add

/-- CMP in Execute: "dispatch to the ALU as SUB, update flags"; the difference is latched (R125, R159, D11). -/
def State.executeCmp (s : State) : State :=
  s.executeAlu .sub

/-- LDR and STR in Execute: the effective address is latched in `alu_result`; flags unchanged (R125, R183, D11). -/
def State.executeAddress (s : State) : State :=
  { s with cpu := { s.cpu with aluResult := s.cpu.opA + s.cpu.opB, stage := .memory, uop := 0 } }

/-- A branch in Execute: taken, `pc <- pc + OpB` and back to Fetch; not taken, "fall through to WriteBack" (R125). -/
def State.executeBranch (s : State) (taken : Bool) : State :=
  if taken then { s with cpu := { s.cpu with pc := s.cpu.pc + s.cpu.opB, stage := .fetch, uop := 0 } }
  else { s with cpu := { s.cpu with stage := .writeBack } }

/-- HALT in Execute: "set the Halted flag"; the stage stays Execute (R125, R201, D13). -/
def State.executeHalt (s : State) : State :=
  { s with cpu := { s.cpu with halted := true } }

/-- NOP in Execute: "no ALU action, fall through to WriteBack" (R125, R200). -/
def State.executeNop (s : State) : State :=
  { s with cpu := { s.cpu with stage := .writeBack } }

/-! ## Memory (R126, R127) -/

/-- LDR in Memory micro-op 0 (R126). -/
def State.requestLoad (s : State) : State :=
  { cpu := { s.cpu with uop := 1 }
    soc := { s.soc with bus := { s.soc.bus with address := s.cpu.aluResult, read := true } } }

/-- STR in Memory micro-op 0 (R126): the store data is `x[rd]`, read here. -/
def State.requestStore (s : State) (rd : RegIdx) : State :=
  { cpu := { s.cpu with uop := 1 }
    soc := { s.soc with bus :=
      { s.soc.bus with address := s.cpu.aluResult, data := s.cpu.reg rd, write := true } } }

/-- LDR in Memory micro-op 1 with Wait clear (R127). -/
def State.latchLoad (s : State) : State :=
  { cpu := { s.cpu with memData := s.soc.bus.data, stage := .writeBack, uop := 0 }
    soc := { s.soc with bus := { s.soc.bus with read := false } } }

/-- STR in Memory micro-op 1 with Wait clear (R127). -/
def State.latchStore (s : State) : State :=
  { cpu := { s.cpu with stage := .writeBack, uop := 0 }
    soc := { s.soc with bus := { s.soc.bus with write := false } } }

/-! ## WriteBack (R128) -/

/-- "PC advances by 4; re-enter Fetch at µop 0" (R128), modulo 2^64 (D10). -/
def Cpu.retire (c : Cpu) : Cpu :=
  { c with pc := c.pc + 4, stage := .fetch, uop := 0 }

/-- WriteBack of LDR: `x[rd] <- mem_data` (R128). -/
def State.writeBackLoad (s : State) (rd : RegIdx) : State :=
  { s with cpu := (s.cpu.setReg rd s.cpu.memData).retire }

/-- WriteBack of "any non-STR, non-CMP, non-Branch instruction": `x[rd] <- alu_result` (R128). -/
def State.writeBackResult (s : State) (rd : RegIdx) : State :=
  { s with cpu := (s.cpu.setReg rd s.cpu.aluResult).retire }

/-- WriteBack of STR, CMP and a branch not taken: no register is written (R128). -/
def State.writeBackNone (s : State) : State :=
  { s with cpu := s.cpu.retire }

/-! ## Sequences of cycles -/

/-- Cycles in which the CPU sees Wait and changes nothing (R123, R127), at most `n` of them, while a device claims the
address. What is left waiting after them is stuck: no device claims its address (R353). -/
def State.waitStates : Nat → State → Out
  | 0, s => .next s
  | n + 1, s => if s.soc.bus.wait && s.soc.claimed then andThen s.finishCycle (State.waitStates n) else .next s

/-- The rest of a transaction after its request cycle (R54): the wait states, then `latch` in the first tick that sees
Wait = 0. If Wait stays asserted, the CPU is stuck in its waiting micro-op (R353), and that state is the answer. -/
def State.completeTransaction (s : State) (latch : State → State) : Out :=
  andThen (s.waitStates s.soc.waitBound) fun s =>
    if s.soc.bus.wait then .next s else (latch s).finishCycle

/-- The fetch of an instruction: request, wait states, latch (R122, R123). It ends in Decode with the instruction
latched, or stuck in Fetch. -/
def State.fetch (s : State) : Out :=
  andThen s.fetchRequest fun s =>
  andThen s.finishCycle fun s =>
    s.completeTransaction State.fetchLatch

/-- Decode, Execute and WriteBack, one cycle each (R120: the path D E W). -/
def State.threeCycles (s : State) (decodeStage executeStage writeBack : State → State) : Out :=
  andThen (decodeStage s).finishCycle fun s =>
  andThen (executeStage s).finishCycle fun s =>
    (writeBack s).finishCycle

/-- A register-shaped ALU instruction that writes its result to `x[rd]` (R163, R125). -/
def State.aluInstruction (s : State) (op : AluOp) (rd rn rm : RegIdx) : Out :=
  s.threeCycles (fun s => s.readRegisterOperands rn rm) (fun s => s.executeAlu op) (fun s => s.writeBackResult rd)

/-- A load or store (R120: the path D E M0 M1 W): effective address, bus transaction, WriteBack. It ends retired, or
stuck in Memory (R353). -/
def State.memoryInstruction (s : State) (rn : RegIdx) (imm : Word) (request latch writeBack : State → State) : Out :=
  andThen (s.readImmediateOperands rn imm).finishCycle fun s =>
  andThen s.executeAddress.finishCycle fun s =>
  andThen (request s).finishCycle fun s =>
  andThen (s.completeTransaction latch) fun s =>
    if s.cpu.stage = .writeBack then (writeBack s).finishCycle else .next s

/-- A branch (R120: the path D E when taken, D E W when not). -/
def State.branchInstruction (s : State) (imm : Word) (taken : Flags → Bool) : Out :=
  andThen (s.readBranchOperand imm).finishCycle fun s =>
  andThen (s.executeBranch (taken s.cpu.flags)).finishCycle fun s =>
    if s.cpu.stage = .writeBack then s.writeBackNone.finishCycle else .next s

end Sys2Proof.Machine
end

