-- ==== Sys2Proof/Machine/Arithmetic.lean ====
section
/-! DEFINITION. The arithmetic and compare instructions: ADD, SUB, CMP (41_alu_ops.md R151, R152, R159). -/

namespace Sys2Proof.Machine

/-- ADD (R151): `(r, flags) <- ALU(ADD, x[rn], x[rm], flags) ; x[rd] <- r ; pc <- pc + 4`. -/
def execAdd (rd rn rm : RegIdx) (s : State) : Out :=
  s.aluInstruction .add rd rn rm

/-- SUB (R152): as ADD with the ALU's SUB; C is the borrow. -/
def execSub (rd rn rm : RegIdx) (s : State) : Out :=
  s.aluInstruction .sub rd rn rm

/-- CMP (R159): SUB's flags, no register written whatever `rd` holds; the difference stays in `alu_result` (D11). -/
def execCmp (rn rm : RegIdx) (s : State) : Out :=
  s.threeCycles (fun s => s.readRegisterOperands rn rm) State.executeCmp State.writeBackNone

end Sys2Proof.Machine
end

