-- ==== Sys2Proof/Machine/LoadStore.lean ====
section
/-! DEFINITION. The load and store instructions: LDR, STR (42_load_store.md R180, R181). -/

namespace Sys2Proof.Machine

/-- LDR (R180): `x[rd] <- MemRead(x[rn] + zext(imm11), 8)`, flags unchanged; an address no device claims leaves the CPU
stuck in Memory micro-op 1 with `x[rd]` unchanged (R353). -/
def execLdr (rd rn : RegIdx) (imm : Word) (s : State) : Out :=
  s.memoryInstruction rn imm State.requestLoad State.latchLoad (fun s => s.writeBackLoad rd)

/-- STR (R181): `MemWrite(x[rn] + zext(imm11), 8, x[rd])`; no flag and no register is written. -/
def execStr (rd rn : RegIdx) (imm : Word) (s : State) : Out :=
  s.memoryInstruction rn imm (fun s => s.requestStore rd) State.latchStore State.writeBackNone

end Sys2Proof.Machine
end

