-- ==== Sys2Proof/Machine/Logic.lean ====
section
/-! DEFINITION. The logic instructions: AND, OR, XOR (41_alu_ops.md R153 to R155). -/

namespace Sys2Proof.Machine

/-- AND (R153). -/
def execAnd (rd rn rm : RegIdx) (s : State) : Out :=
  s.aluInstruction .and rd rn rm

/-- OR (R154). -/
def execOr (rd rn rm : RegIdx) (s : State) : Out :=
  s.aluInstruction .or rd rn rm

/-- XOR (R155). -/
def execXor (rd rn rm : RegIdx) (s : State) : Out :=
  s.aluInstruction .xor rd rn rm

end Sys2Proof.Machine
end

