-- ==== Sys2Proof/Machine/MoveBranch.lean ====
section
/-! DEFINITION. The move and branch instructions: MOV, B, BEQ, BNE (43_move_branch.md R190 to R194). -/

namespace Sys2Proof.Machine

/-- MOV (R190): `x[rd] <- zext(imm11)`; the flags are those of ADD(0, imm) (D12, log 10). `x[rn]` is read and
discarded; there is no register form (C2). -/
def execMov (rd rn : RegIdx) (imm : Word) (s : State) : Out :=
  s.threeCycles (fun s => s.readImmediateOperands rn imm) State.executeMov (fun s => s.writeBackResult rd)

/-- B (R191): always taken. -/
def execB (imm : Word) (s : State) : Out :=
  s.branchInstruction imm (fun _ => true)

/-- BEQ (R192): taken when Z = 1. -/
def execBeq (imm : Word) (s : State) : Out :=
  s.branchInstruction imm (fun flags => flags.z)

/-- BNE (R193): taken when Z = 0. -/
def execBne (imm : Word) (s : State) : Out :=
  s.branchInstruction imm (fun flags => !flags.z)

end Sys2Proof.Machine
end

