-- ==== Sys2Proof/Machine/Shift.lean ====
section
/-! DEFINITION. The shift instructions: LSL, LSR, ASR (41_alu_ops.md R156 to R158). -/

namespace Sys2Proof.Machine

/-- LSL (R156): the amount is `x[rm][5:0]`. -/
def execLsl (rd rn rm : RegIdx) (s : State) : Out :=
  s.aluInstruction .lsl rd rn rm

/-- LSR (R157). -/
def execLsr (rd rn rm : RegIdx) (s : State) : Out :=
  s.aluInstruction .lsr rd rn rm

/-- ASR (R158). -/
def execAsr (rd rn rm : RegIdx) (s : State) : Out :=
  s.aluInstruction .asr rd rn rm

end Sys2Proof.Machine
end

