-- ==== Sys2Proof/Machine/System.lean ====
section
/-! DEFINITION. NOP and HALT (44_system.md R200, R201). The ISA has no other system instruction: no environment call, no
breakpoint, no return from a trap, no fence, no control register and no privilege (R202). -/

namespace Sys2Proof.Machine

/-- NOP (R200): `x[rd] <- alu_result`, which is stale, and `pc <- pc + 4` (D32, C13; log 9). -/
def execNop (rd rn rm : RegIdx) (s : State) : Out :=
  s.threeCycles (fun s => s.readRegisterOperands rn rm) State.executeNop (fun s => s.writeBackResult rd)

/-- HALT (R201): Halted is set in Execute and WriteBack is never reached, so `pc` stays (C5). -/
def execHalt (rn rm : RegIdx) (s : State) : Out :=
  andThen (s.readRegisterOperands rn rm).finishCycle fun s => s.executeHalt.finishCycle

end Sys2Proof.Machine
end

