-- ==== Sys2Proof/Machine/Dispatch.lean ====
section
/-! DEFINITION. The dispatch of an instruction to its meaning: what it does from its Decode stage, with the instruction
latched, to its end (retired, halted or stuck). -/

namespace Sys2Proof.Machine

def exec (i : Instr) (s : State) : Host.Outcome State Fault Refusal :=
  match i with
  | .nop rd rn rm _ => Sys2Proof.Machine.execNop rd rn rm s
  | .add rd rn rm _ => Sys2Proof.Machine.execAdd rd rn rm s
  | .sub rd rn rm _ => Sys2Proof.Machine.execSub rd rn rm s
  | .and rd rn rm _ => Sys2Proof.Machine.execAnd rd rn rm s
  | .or rd rn rm _ => Sys2Proof.Machine.execOr rd rn rm s
  | .xor rd rn rm _ => Sys2Proof.Machine.execXor rd rn rm s
  | .lsl rd rn rm _ => Sys2Proof.Machine.execLsl rd rn rm s
  | .lsr rd rn rm _ => Sys2Proof.Machine.execLsr rd rn rm s
  | .asr rd rn rm _ => Sys2Proof.Machine.execAsr rd rn rm s
  | .cmp _ rn rm _ => Sys2Proof.Machine.execCmp rn rm s
  | .ldr rd rn _ imm => Sys2Proof.Machine.execLdr rd rn imm s
  | .str rd rn _ imm => Sys2Proof.Machine.execStr rd rn imm s
  | .mov rd rn _ imm => Sys2Proof.Machine.execMov rd rn imm s
  | .b _ _ _ imm => Sys2Proof.Machine.execB imm s
  | .beq _ _ _ imm => Sys2Proof.Machine.execBeq imm s
  | .bne _ _ _ imm => Sys2Proof.Machine.execBne imm s
  | .halt _ rn rm _ => Sys2Proof.Machine.execHalt rn rm s

end Sys2Proof.Machine
end

