-- ==== Sys2Proof/Machine/Pipeline.lean ====
section
/-! DEFINITION. The cycle-level machine: the CPU tick of 40_pipeline.md R121, one state transition a tick, and the
cycle of 20_memory.md R40. The instruction-level step (Machine/Step.lean) is a whole number of these cycles. -/

namespace Sys2Proof.Machine

/-- The Execute stage, "opcode-driven dispatch" (R125); a reserved opcode has no meaning (R99, U1). -/
def State.executeStage (s : State) : Out :=
  match s.cpu.instr.op with
  | .add => .next (s.executeAlu .add)
  | .sub => .next (s.executeAlu .sub)
  | .and => .next (s.executeAlu .and)
  | .or => .next (s.executeAlu .or)
  | .xor => .next (s.executeAlu .xor)
  | .lsl => .next (s.executeAlu .lsl)
  | .lsr => .next (s.executeAlu .lsr)
  | .asr => .next (s.executeAlu .asr)
  | .mov => .next s.executeMov
  | .cmp => .next s.executeCmp
  | .ldr => .next s.executeAddress
  | .str => .next s.executeAddress
  | .b => .next (s.executeBranch true)
  | .beq => .next (s.executeBranch s.cpu.flags.z)
  | .bne => .next (s.executeBranch (!s.cpu.flags.z))
  | .halt => .next s.executeHalt
  | .nop => .next s.executeNop
  | .reserved f => .refused (.reservedOpcode f)

/-- Memory micro-op 0 (R126). -/
def State.memRequest (s : State) : State :=
  if s.cpu.instr.op = .ldr then s.requestLoad else s.requestStore s.cpu.instr.rd

/-- Memory micro-op 1 (R127). -/
def State.memLatch (s : State) : State :=
  if s.soc.bus.wait then s
  else if s.cpu.instr.op = .ldr then s.latchLoad
  else s.latchStore

/-- WriteBack (R128). -/
def State.writeBackStage (s : State) : State :=
  match s.cpu.instr.op with
  | .ldr => s.writeBackLoad s.cpu.instr.rd
  | .str | .cmp | .b | .beq | .bne => s.writeBackNone
  | .nop | .add | .sub | .and | .or | .xor | .lsl | .lsr | .asr | .mov | .halt | .reserved _ =>
    s.writeBackResult s.cpu.instr.rd

/-- `CPU.tick()` (R121): at most one step, chosen by `stage` and `uop`; nothing when Halted. -/
def State.cpuTick (s : State) : Out :=
  if s.cpu.halted then .next s
  else
    match s.cpu.stage with
    | .fetch =>
      if s.cpu.uop = 0 then s.fetchRequest
      else .next (if s.soc.bus.wait then s else s.fetchLatch)
    | .decode => .next s.decodeStage
    | .execute => s.executeStage
    | .memory => .next (if s.cpu.uop = 0 then s.memRequest else s.memLatch)
    | .writeBack => .next s.writeBackStage

/-- `Cycle()` (R40): the CPU's tick, the bus's, then each device's. -/
def cycle (s : State) : Out :=
  andThen s.cpuTick State.finishCycle

/-- `n` cycles. -/
def cycles : Nat → State → Out
  | 0, s => .next s
  | n + 1, s => andThen (cycle s) (cycles n)

end Sys2Proof.Machine
end

