-- ==== Sys2Proof/Machine/Instruction.lean ====
section
/-! DEFINITION. One instruction, from its fetch to its end (log 8). -/

namespace Sys2Proof.Machine

/-- Whether the CPU is about to fetch an instruction: running, at Fetch micro-op 0. -/
def State.atInstructionStart (s : State) : Bool :=
  !s.cpu.halted && s.cpu.stage == .fetch && s.cpu.uop == 0

/-- Run the instruction that the fetch latched. A fetch that is stuck has latched none (R353). A reserved opcode has no
meaning (R99, U1). -/
def State.runFetched (s : State) : Out :=
  if s.cpu.stage = .decode then
    match s.cpu.instr.instr with
    | .ok i => exec i s
    | .error f => .refused (.reservedOpcode f)
  else .next s

/-- Fetch an instruction and run it. -/
def State.fetchAndRun (s : State) : Out :=
  andThen s.fetch State.runFetched

/-- At an instruction's start: fetch it and run it to its end. Elsewhere (Halted, or in the middle of an instruction,
which after a step is the stuck state of R353): one cycle. -/
def State.advance (s : State) : Out :=
  if s.atInstructionStart then s.fetchAndRun else cycle s

end Sys2Proof.Machine
end

