-- ==== Sys2Proof/Machine/HostActions.lean ====
section
/-! DEFINITION. What the host does to the machine from outside: CPU Reset (70_reset_and_hazards.md R390), construction
of a new FTL or bus (R391), the loader (R396), bypass accesses (20_memory.md R56, R57), the driver's loop (R42), and the
fatal-fault reading of a bus error (60_exceptions.md R354). -/

namespace Sys2Proof.Machine

/-- `Reset(entry)` (R390), taken between two cycles (D38). It touches nothing but the CPU (R392). -/
def cpuReset (entry : Word) (s : State) : State :=
  { s with cpu := Cpu.reset entry }

/-- "Destroy the FTL (retaining the NAND), construct a fresh FTL over the same NAND" (R241): mount runs (R233). -/
def remount (s : State) : State :=
  { s with soc := { s.soc with storage := { s.soc.storage with ftl := Ftl.mount s.soc.storage.nand } } }

/-- "A host that wants Error = 0 builds a new bus" (R353): every line, signal and counter at its construction value. -/
def rebuildBus (s : State) : State :=
  { s with soc := { s.soc with bus := Bus.fresh } }

/-- The entry of the RAM device in the device table: it gives RAM_BASE and RAM_SIZE (R60). -/
def ramEntry (c : Config) : Option DeviceEntry :=
  c.devices.find? fun e => e.device == .ram

/-- The loader (R396): the image's bytes go into RAM from the given address, "validating that the destination range lies
entirely within RAM"; none where it does not, and then nothing is written (D37). D37 leaves open of how many bypass writes
a load is composed, each of which R57 would count; DESIGN CHOICE, log 34: a load leaves both traffic counters as they
were. -/
def loadImage (addr : Word) (image : List Byte) (s : State) : Option State :=
  match ramEntry s.soc.cfg with
  | none => none
  | some e =>
    if e.base.toNat ≤ addr.toNat ∧ addr.toNat + image.length ≤ e.base.toNat + e.size then
      some { s with soc := { s.soc with ram :=
        { s.soc.ram with bytes := s.soc.ram.bytes.writeBytes (addr.toNat - e.base.toNat) image } } }
    else none

/-- Boot (R395, R396): load an image at LOAD_ADDRESS and reset the CPU to it. -/
def boot (image : List Byte) (s : State) : Option State :=
  (loadImage s.soc.cfg.loadAddress image s).map (cpuReset s.soc.cfg.loadAddress)

/-- The driver (R42): cycles until the CPU is halted or the cap is reached; Halted is tested before each cycle (D31). -/
def run : Nat → State → Out
  | 0, s => .next s
  | maxCycles + 1, s => if s.cpu.halted then .next s else andThen (cycle s) (run maxCycles)

/-- Store an instruction word at `pc`, least significant byte first (R90), in the RAM that claims it, as a loader would
(R396), and put the CPU at the start of an instruction, so that it is the next one fetched. -/
def State.placeInstruction (s : State) (w : InstrWord) : State :=
  let cpu := { s.cpu with halted := false, stage := .fetch, uop := 0 }
  match s.soc.target s.cpu.pc with
  | some e =>
    match e.device with
    | .ram =>
      { cpu := cpu
        soc := { s.soc with ram :=
          { s.soc.ram with bytes := s.soc.ram.bytes.writeBytes (e.offset s.cpu.pc) (bytesOfWord w) } } }
    | .scratchRam =>
      { cpu := cpu
        soc := { s.soc with scratch :=
          { s.soc.scratch with bytes := s.soc.scratch.bytes.writeBytes (e.offset s.cpu.pc) (bytesOfWord w) } } }
    | .controller | .uart | .pic | .timer | .keyboard | .mouse => { s with cpu := cpu }
  | none => { s with cpu := cpu }

/-- Whether the CPU is in one of its two waiting micro-ops (R123, R127). -/
def State.waiting (s : State) : Bool :=
  !s.cpu.halted && s.cpu.uop == 1 && (s.cpu.stage == .fetch || s.cpu.stage == .memory)

/-- The stuck state (R353): waiting with Wait asserted for an address no device claims. -/
def State.stuck (s : State) : Bool :=
  s.waiting && s.soc.bus.wait && (s.soc.bus.read || s.soc.bus.write) && !s.soc.claimed

/-- `BusFault := (Error = 1)`, "a derived predicate ... that a proof or a harness can test" (R354). -/
def State.busFault (s : State) : Bool :=
  s.soc.bus.error

/-- The step with the reading that R354 licenses: "surface this as a fatal CPU fault". It stops with a fault where the
step leaves the CPU stuck; registers, flags and memory of the stuck state are those of R353. -/
def stepOrFault (s : State) : Out :=
  match s.advance with
  | .next t => if t.stuck then .fault (.busError t.soc.bus.address) else .next t
  | .fault r => .fault r
  | .refused r => .refused r

end Sys2Proof.Machine
end

