-- ==== Sys2Proof/Machine/Step.lean ====
section
/-! DEFINITION. The step of the machine and the placing of its next instruction. -/

namespace Sys2Proof.Machine

/-- One step: one instruction at an instruction's start, one cycle elsewhere (log 8). -/
def step (s : State) : Host.Outcome State Fault Refusal :=
  s.advance

/-- `s` with the instruction whose bits are `w` (those above `nbits` zero) stored where `step` fetches its next
instruction: the bytes at `pc`. It stands for the loader's write of a program (R396; log 19). -/
def State.withFetchWord (s : State) (nbits w : Nat) : State :=
  s.placeInstruction (BitVec.ofNat 32 (w % 2 ^ nbits))

end Sys2Proof.Machine
end

