-- ==== Sys2Proof/Machine/AsmLexer.lean ====
section
/-! DEFINITION. The assembler's first stage: source text to tokens (48_assembler.md R311 to R316), and the diagnostics
all four stages share (R335). -/

namespace Sys2Proof.Machine

/-! ## Diagnostics (R335) -/

/-- The four stages (R310). -/
inductive AsmStage where
  | lexer
  | parser
  | resolver
  | encoder
deriving DecidableEq, Repr

/-- "Each stage's error is a single (message, line) pair" (R335), with the stage that reports it. -/
structure AsmError where
  stage : AsmStage
  line : Nat
  description : String
deriving DecidableEq, Repr

/-- The name of a stage in a message. -/
def AsmStage.name : AsmStage → String
  | .lexer => "Lexer"
  | .parser => "Parser"
  | .resolver => "Resolver"
  | .encoder => "Encoder"

/-- "a message of the form `[Line N] Stage: description`" (R335). -/
def AsmError.message (e : AsmError) : String :=
  "[Line " ++ toString e.line ++ "] " ++ e.stage.name ++ ": " ++ e.description

/-! ## Tokens (R312) -/

/-- An identifier's characters. -/
abbrev Name := List Char

/-- The token classes, "the complete list" (R312), and the end-of-file token (R311). -/
inductive TokenKind where
  | mnemonic (op : Op)
  | register (index : Nat)
  | immediate (value : Word)
  | directive (name : Name)
  | string (bytes : List Byte)
  | label (name : Name)
  | labelRef (name : Name)
  | comma
  | leftBracket
  | rightBracket
  | newLine
  | unknown (c : Char)
  | endOfFile
deriving DecidableEq, Repr

/-- "Line and column are tracked on every token" (R311). Lines count from 1 (D35); that a column is the number of the
token's first character in its line, from 1, is a DESIGN CHOICE, log 20. -/
structure Token where
  kind : TokenKind
  line : Nat
  column : Nat
deriving DecidableEq, Repr

/-! ## Characters and names -/

/-- White space that is skipped; a line end is not white space (R311). Log 20: blank, tab and carriage return. -/
def isBlank (c : Char) : Bool :=
  c == ' ' || c == '\t' || c == '\r'

/-- "An identifier is a letter or `_`" ... (R316, D35). A letter is an ASCII letter; any other character starts no
identifier: DESIGN CHOICE, log 20. -/
def isIdentStart (c : Char) : Bool :=
  c.isAlpha || c == '_'

/-- ... "followed by letters, digits or `_`" (R316, D35), ASCII letters and digits: DESIGN CHOICE, log 20. -/
def isIdentChar (c : Char) : Bool :=
  c.isAlphanum || c == '_'

/-- The seventeen mnemonics (R312). -/
def mnemonicTable : List (Name × Op) :=
  [ (['N', 'O', 'P'], .nop), (['A', 'D', 'D'], .add), (['S', 'U', 'B'], .sub), (['A', 'N', 'D'], .and),
    (['O', 'R'], .or), (['X', 'O', 'R'], .xor), (['L', 'S', 'L'], .lsl), (['L', 'S', 'R'], .lsr),
    (['A', 'S', 'R'], .asr), (['C', 'M', 'P'], .cmp), (['L', 'D', 'R'], .ldr), (['S', 'T', 'R'], .str),
    (['M', 'O', 'V'], .mov), (['B'], .b), (['B', 'E', 'Q'], .beq), (['B', 'N', 'E'], .bne),
    (['H', 'A', 'L', 'T'], .halt) ]

/-- The opcode of a mnemonic, "case-insensitive" (R312). -/
def mnemonicOf (name : Name) : Option Op :=
  (mnemonicTable.find? fun e => e.1 == name.map Char.toUpper).map Prod.snd

/-- The value of a digit. R314's example `#0x7B` has an upper-case hexadecimal digit; that lower-case ones are accepted
too is a DESIGN CHOICE, log 20. -/
def digitValue (c : Char) : Option Nat :=
  if '0' ≤ c ∧ c ≤ '9' then some (c.toNat - '0'.toNat)
  else if 'a' ≤ c ∧ c ≤ 'f' then some (c.toNat - 'a'.toNat + 10)
  else if 'A' ≤ c ∧ c ≤ 'F' then some (c.toNat - 'A'.toNat + 10)
  else none

/-- The index a register name stands for: "R0..R31, and aliases SP -> 30, LR -> 31, PC -> 32" (R313), in either case,
with 1 or 2 digits and no superfluous leading zero (D34). -/
def registerOf (name : Name) : Option Nat :=
  match name.map Char.toUpper with
  | ['S', 'P'] => some 30
  | ['L', 'R'] => some 31
  | ['P', 'C'] => some 32
  | ['R', d] => if d.isDigit then digitValue d else none
  | ['R', d, e] =>
    if d.isDigit && e.isDigit && d != '0' then
      match digitValue d, digitValue e with
      | some m, some n => if 10 * m + n ≤ 31 then some (10 * m + n) else none
      | _, _ => none
    else none
  | _ => none

/-! ## Literals (R314, R315) -/

/-- The number that digits stand for in a base; none for no digit, or a character that is no digit of the base. -/
def numberOf (base : Nat) (digits : List Char) : Option Nat :=
  if digits = [] then none
  else
    digits.foldl (fun acc c =>
      match acc, digitValue c with
      | some n, some d => if d < base then some (base * n + d) else none
      | _, _ => none) (some 0)

/-- An unsigned literal: "decimal or `0x` hex or `0b` binary" (R314). That the prefixes are lower case alone, so that
`#0X10` is malformed, is a DESIGN CHOICE, log 20. -/
def literalOf (chars : List Char) : Option Nat :=
  match chars with
  | '0' :: 'x' :: digits => numberOf 16 digits
  | '0' :: 'b' :: digits => numberOf 2 digits
  | digits => numberOf 10 digits

/-- The 64-bit pattern of a signed literal, "stored as the two's-complement 64-bit bit pattern"; none where it "does not
fit 64 bits" (R314). Log 20: a negative one fits down to -2^63. -/
def signedPattern (negative : Bool) (n : Nat) : Option Word :=
  if negative then (if n ≤ 2 ^ 63 then some (-(BitVec.ofNat 64 n)) else none)
  else (if n < 2 ^ 64 then some (BitVec.ofNat 64 n) else none)

/-- The Immediate token after a `#` (R314): the sign "directly after the `#`", then the literal, which is the whole run
of identifier characters; its value and the number of characters after the `#`. -/
def lexImmediate (rest : List Char) : Except String (Word × Nat) :=
  let (negative, signs, body) := match rest with
    | '-' :: body => (true, 1, body)
    | '+' :: body => (false, 1, body)
    | body => (false, 0, body)
  let run := body.takeWhile isIdentChar
  match literalOf run with
  | none => .error "malformed immediate literal"
  | some n =>
    match signedPattern negative n with
    | none => .error "immediate literal does not fit 64 bits"
    | some v => .ok (v, signs + run.length)

/-- The byte an escape stands for: "`\n \t \r \0 \\ \"`" (R315). -/
def escapeByte (c : Char) : Option Byte :=
  if c = 'n' then some 0x0A
  else if c = 't' then some 0x09
  else if c = 'r' then some 0x0D
  else if c = '0' then some 0x00
  else if c = '\\' then some 0x5C
  else if c = '"' then some 0x22
  else none

/-- The bytes of a character "as they appear in the source text" (R315): its UTF-8 encoding. -/
def sourceBytes (c : Char) : List Byte :=
  if c.toNat < 128 then [BitVec.ofNat 8 c.toNat] else (String.utf8EncodeChar c).map UInt8.toBitVec

/-- The String token after its opening quote (R315): its bytes, and the number of characters up to and with the closing
quote. -/
def lexString : List Char → Except String (List Byte × Nat)
  | [] => .error "unterminated string"
  | '"' :: _ => .ok ([], 1)
  | '\n' :: _ => .error "unterminated string"
  | '\\' :: c :: rest =>
    match escapeByte c with
    | none => .error "unknown escape sequence"
    | some b =>
      match lexString rest with
      | .ok (bytes, n) => .ok (b :: bytes, n + 2)
      | .error e => .error e
  | c :: rest =>
    match lexString rest with
    | .ok (bytes, n) => .ok (sourceBytes c ++ bytes, n + 1)
    | .error e => .error e

/-- An identifier with what follows it: a Label where a colon follows immediately, "colon consumed and stripped" (R316),
else a mnemonic (R312), a register (R313) or a LabelRef (R316); and the number of characters used. -/
def lexIdentifier (name : Name) (next : Option Char) : TokenKind × Nat :=
  if next = some ':' then (.label name, name.length + 1)
  else
    match mnemonicOf name with
    | some op => (.mnemonic op, name.length)
    | none =>
      match registerOf name with
      | some r => (.register r, name.length)
      | none => (.labelRef name, name.length)

/-- The token that starts with the character `c`, which is no blank, line end or comment, and the number of characters
it uses. -/
def lexToken (c : Char) (rest : List Char) : Except String (TokenKind × Nat) :=
  if c = ',' then .ok (.comma, 1)
  else if c = '[' then .ok (.leftBracket, 1)
  else if c = ']' then .ok (.rightBracket, 1)
  else if c = '#' then
    match lexImmediate rest with
    | .ok (v, n) => .ok (.immediate v, n + 1)
    | .error e => .error e
  else if c = '"' then
    match lexString rest with
    | .ok (bytes, n) => .ok (.string bytes, n + 1)
    | .error e => .error e
  else if c = '.' then
    let name := rest.takeWhile isIdentChar
    match name.head? with
    | some d => if isIdentStart d then .ok (.directive name, name.length + 1) else .ok (.unknown c, 1)
    | none => .ok (.unknown c, 1)
  else if isIdentStart c then
    let name := c :: rest.takeWhile isIdentChar
    .ok (lexIdentifier name (rest.dropWhile isIdentChar).head?)
  else .ok (.unknown c, 1)

/-- The tokens of the text from a line and column on (R311). Each call uses up at least one character, so `fuel` equal to
the number of characters is enough. -/
def lexFrom : Nat → List Char → Nat → Nat → Except AsmError (List Token)
  | fuel + 1, c :: rest, line, column =>
    if c = '\n' then
      match lexFrom fuel rest (line + 1) 1 with
      | .ok tokens => .ok (⟨.newLine, line, column⟩ :: tokens)
      | .error e => .error e
    else if isBlank c then lexFrom fuel rest line (column + 1)
    else if c = ';' then
      lexFrom fuel (rest.dropWhile (· ≠ '\n')) line (column + 1 + (rest.takeWhile (· ≠ '\n')).length)
    else
      match lexToken c rest with
      | .error description => .error ⟨.lexer, line, description⟩
      | .ok (kind, used) =>
        match lexFrom fuel (rest.drop (used - 1)) line (column + used) with
        | .ok tokens => .ok (⟨kind, line, column⟩ :: tokens)
        | .error e => .error e
  | _, _, line, column => .ok [⟨.endOfFile, line, column⟩]

/-- The lexer (R311): a "token stream ending in an explicit end-of-file token". It starts at line 1 (D35) and column 1
(DESIGN CHOICE, log 20). -/
def lexSource (source : List Char) : Except AsmError (List Token) :=
  lexFrom source.length source 1 1

end Sys2Proof.Machine
end

