-- ==== Sys2Proof/Machine/AsmParser.lean ====
section
/-! DEFINITION. The assembler's second stage: tokens to the AST (48_assembler.md R317 to R322). -/

namespace Sys2Proof.Machine

/-- The operand variants (R318). -/
inductive AsmOperand where
  | register (index : Nat)
  | immediate (value : Word)
  /-- "Pre-indexed and write-back are parsed but unused today" (R321): always false -/
  | memory (base : Nat) (offset : Int) (preIndexed writeBack : Bool)
  | label (name : Name)
deriving DecidableEq, Repr

/-- A parsed instruction: "opcode tag, operand list, source line and column" (R318). -/
structure AsmInstr where
  op : Op
  operands : List AsmOperand
  line : Nat
  column : Nat
deriving DecidableEq, Repr

/-- A label definition: "name, index into the instruction sequence" (R318), with its line. -/
structure AsmLabel where
  name : Name
  index : Nat
  line : Nat
deriving DecidableEq, Repr

/-- The AST (R318). -/
structure Ast where
  instrs : List AsmInstr
  labels : List AsmLabel
  data : List Byte
deriving DecidableEq, Repr

/-- A parser error at a token. -/
def parserError {α : Type} (t : Token) (description : String) : Except AsmError α :=
  .error ⟨.parser, t.line, description⟩

/-- The end of a statement: "The end-of-file token is accepted where a NewLine is required" (R317); anything else after
the last operand is an error (R322). -/
def endStatement : List Token → Except AsmError (List Token)
  | [] => .ok []
  | t :: rest =>
    match t.kind with
    | .newLine => .ok rest
    | .endOfFile => .ok (t :: rest)
    | _ => parserError t "unexpected token after the statement"

/-- What follows the base register of a memory operand: `]`, or `, #imm ]` (R317, R321). -/
def parseMemoryTail (base : Nat) (opening : Token) : List Token → Except AsmError (AsmOperand × List Token)
  | ⟨.rightBracket, _, _⟩ :: rest => .ok (.memory base 0 false false, rest)
  | ⟨.comma, _, _⟩ :: ⟨.immediate v, _, _⟩ :: ⟨.rightBracket, _, _⟩ :: rest =>
    .ok (.memory base v.toInt false false, rest)
  | _ => parserError opening "missing ]"

/-- One operand (R317). -/
def parseOperand (before : Token) : List Token → Except AsmError (AsmOperand × List Token)
  | [] => parserError before "missing operand"
  | t :: rest =>
    match t.kind with
    | .register r => .ok (.register r, rest)
    | .immediate v => .ok (.immediate v, rest)
    | .labelRef name => .ok (.label name, rest)
    | .leftBracket =>
      match rest with
      | ⟨.register r, _, _⟩ :: rest => parseMemoryTail r t rest
      | _ => parserError t "a memory operand starts with a register"
    | _ => parserError t "an operand is expected"

/-- `operand { "," operand }` (R317). Each call uses up at least one token. -/
def parseOperands : Nat → Token → List Token → Except AsmError (List AsmOperand × List Token)
  | 0, before, _ => parserError before "missing operand"
  | fuel + 1, before, tokens =>
    match parseOperand before tokens with
    | .error e => .error e
    | .ok (operand, ⟨.comma, line, column⟩ :: rest) =>
      match parseOperands fuel ⟨.comma, line, column⟩ rest with
      | .ok (operands, rest) => .ok (operand :: operands, rest)
      | .error e => .error e
    | .ok (operand, rest) => .ok ([operand], rest)

/-- `[operand { "," operand }] NewLine` after a mnemonic (R317). -/
def parseOperandList (mnemonic : Token) (tokens : List Token) : Except AsmError (List AsmOperand × List Token) :=
  match endStatement tokens with
  | .ok rest => .ok ([], rest)
  | .error _ =>
    match parseOperands tokens.length mnemonic tokens with
    | .error e => .error e
    | .ok (operands, rest) =>
      match endStatement rest with
      | .ok rest => .ok (operands, rest)
      | .error e => .error e

/-- A directive (R320): `.string` "consumes one String and appends its bytes followed by a terminating zero to the data
segment"; "`.data` and `.text` are accepted as no-op section markers". The grammar's "[args]" (R317) is defined for `.string`
alone. DESIGN CHOICE, log 20: `.data` and `.text` take none, and directive names are lower case, so that `.STRING` is
unrecognized. -/
def parseDirective (name : Name) (t : Token) (tokens : List Token) : Except AsmError (List Byte × List Token) :=
  if name = ['s', 't', 'r', 'i', 'n', 'g'] then
    match tokens with
    | ⟨.string bytes, _, _⟩ :: rest =>
      match endStatement rest with
      | .ok rest => .ok (bytes ++ [0], rest)
      | .error e => .error e
    | _ => parserError t ".string takes exactly one string"
  else if name = ['d', 'a', 't', 'a'] ∨ name = ['t', 'e', 'x', 't'] then
    match endStatement tokens with
    | .ok rest => .ok ([], rest)
    | .error e => .error e
  else parserError t "unrecognized directive"

/-- A label: recorded "as (name, next-instruction-index)"; a duplicate is an error (R319). -/
def Ast.addLabel (ast : Ast) (name : Name) (t : Token) : Except AsmError Ast :=
  if ast.labels.any fun l => l.name == name then parserError t "duplicate label"
  else .ok { ast with labels := ast.labels ++ [⟨name, ast.instrs.length, t.line⟩] }

/-- `program := { statement }` (R317), adding to the AST so far. Each statement uses up at least one token. -/
def parseStatements : Nat → List Token → Ast → Except AsmError Ast
  | fuel + 1, t :: rest, ast =>
    match t.kind with
    | .endOfFile => .ok ast
    | .newLine => parseStatements fuel rest ast
    | .label name =>
      match ast.addLabel name t with
      | .ok ast => parseStatements fuel rest ast
      | .error e => .error e
    | .directive name =>
      match parseDirective name t rest with
      | .ok (bytes, rest) => parseStatements fuel rest { ast with data := ast.data ++ bytes }
      | .error e => .error e
    | .mnemonic op =>
      match parseOperandList t rest with
      | .ok (operands, rest) =>
        parseStatements fuel rest { ast with instrs := ast.instrs ++ [⟨op, operands, t.line, t.column⟩] }
      | .error e => .error e
    | _ => parserError t "no statement starts with this token"
  | _, _, ast => .ok ast

/-- The parser (R317, R318). -/
def parseTokens (tokens : List Token) : Except AsmError Ast :=
  parseStatements tokens.length tokens ⟨[], [], []⟩

end Sys2Proof.Machine
end

