-- ==== Sys2Proof/Machine/AsmResolver.lean ====
section
/-! DEFINITION. The assembler's third stage: labels to offsets and addresses (48_assembler.md R323 to R327). -/

namespace Sys2Proof.Machine

/-- "label name -> byte address; addresses are instruction-index x 4" (R323). -/
abbrev SymbolTable := List (Name × Nat)

/-- Pass 1 (R323): "assigns each label the byte address `4 x instruction-index`; duplicate definitions in this pass are
errors". -/
def symbolTable : List AsmLabel → Except AsmError SymbolTable
  | [] => .ok []
  | l :: rest =>
    match symbolTable rest with
    | .error e => .error e
    | .ok table =>
      if table.any fun e => e.1 == l.name then .error ⟨.resolver, l.line, "duplicate label"⟩
      else .ok ((l.name, 4 * l.index) :: table)

/-- The address of a label. -/
def SymbolTable.address (table : SymbolTable) (name : Name) : Option Nat :=
  (table.find? fun e => e.1 == name).map Prod.snd

/-- A signed offset of 11 bits: "[-1024, +1023]" (R326, R332). -/
def fitsS11 (offset : Int) : Bool :=
  decide (-1024 ≤ offset) && decide (offset ≤ 1023)

/-- An operand of instruction `index` without its label (R325): the offset from the branch itself for B, BEQ, BNE
(R326), the absolute address for every other opcode (R327). "Undefined symbols are errors" (R325). -/
def resolveOperand (table : SymbolTable) (op : Op) (index line : Nat) : AsmOperand → Except AsmError AsmOperand
  | .label name =>
    match table.address name with
    | none => .error ⟨.resolver, line, "undefined symbol " ++ String.ofList name⟩
    | some addr =>
      if op.shape = .branch then
        let offset : Int := (addr : Int) - (4 * index : Nat)
        if fitsS11 offset then .ok (.immediate (BitVec.ofInt 64 offset))
        else .error ⟨.resolver, line, "branch offset out of range: " ++ toString offset⟩
      else .ok (.immediate (BitVec.ofNat 64 addr))
  | operand => .ok operand

/-- The operands of an instruction without their labels. -/
def resolveOperands (table : SymbolTable) (op : Op) (index line : Nat) :
    List AsmOperand → Except AsmError (List AsmOperand)
  | [] => .ok []
  | operand :: rest =>
    match resolveOperand table op index line operand with
    | .error e => .error e
    | .ok operand =>
      match resolveOperands table op index line rest with
      | .ok operands => .ok (operand :: operands)
      | .error e => .error e

/-- Pass 2 (R325) over the instructions from index `index` on. -/
def resolveInstrs (table : SymbolTable) : Nat → List AsmInstr → Except AsmError (List AsmInstr)
  | _, [] => .ok []
  | index, i :: rest =>
    match resolveOperands table i.op index i.line i.operands with
    | .error e => .error e
    | .ok operands =>
      match resolveInstrs table (index + 1) rest with
      | .ok instrs => .ok ({ i with operands := operands } :: instrs)
      | .error e => .error e

/-- The resolver (R323 to R327): the instructions with no Label operand left. -/
def resolveAst (ast : Ast) : Except AsmError (List AsmInstr) :=
  match symbolTable ast.labels with
  | .error e => .error e
  | .ok table => resolveInstrs table 0 ast.instrs

end Sys2Proof.Machine
end

