-- ==== Sys2Proof/Machine/AsmEncoder.lean ====
section
/-! DEFINITION. The assembler's fourth stage and the whole pipeline: operand shapes and ranges, the image and the exit
codes (48_assembler.md R330 to R334). -/

namespace Sys2Proof.Machine

/-- The fields of an instruction word that an operand form populates; "every field the table does not populate set to
0" (R330, D17). -/
structure AsmFields where
  op : Op
  rd : RegIdx
  rn : RegIdx
  rm : RegIdx
  imm11 : BitVec 11
deriving DecidableEq, Repr

/-- The instruction word of the fields (R95, R330). -/
def AsmFields.word (f : AsmFields) : InstrWord :=
  encodeFields f.op.tag f.rd f.rn f.rm f.imm11

/-- An encoder error at an instruction. -/
def encoderError {α : Type} (i : AsmInstr) (description : String) : Except AsmError α :=
  .error ⟨.encoder, i.line, description⟩

/-- A register operand's field; "a Register index above 31" is an error (R330, D18). -/
def regField (i : AsmInstr) (index : Nat) : Except AsmError RegIdx :=
  if h : index < 32 then .ok ⟨index, h⟩
  else encoderError i ("register index out of range: " ++ toString index)

/-- "Unsigned immediates in [0, 2047]": the token's 64-bit value read as unsigned (R332). That the error
prints the offending value signed, as `#-1` is written, is a DESIGN CHOICE, log 20. -/
def u11Field (i : AsmInstr) (v : Word) : Except AsmError (BitVec 11) :=
  if v.toNat ≤ 2047 then .ok (v.setWidth 11)
  else encoderError i ("immediate out of range: " ++ toString v.toInt)

/-- "signed offsets in [-1024, +1023] (packed as the low 11 bits of the two's-complement representation)" (R332). -/
def s11Field (i : AsmInstr) (offset : Int) : Except AsmError (BitVec 11) :=
  if fitsS11 offset then .ok (BitVec.ofInt 11 offset)
  else encoderError i ("offset out of range: " ++ toString offset)

/-- `Rd, Rn, Rm` or `Rd, Rn, #u11` (R331). -/
def threeOperandFields (i : AsmInstr) : Except AsmError AsmFields :=
  match i.operands with
  | [.register d, .register n, .register m] => do
    .ok ⟨i.op, ← regField i d, ← regField i n, ← regField i m, 0⟩
  | [.register d, .register n, .immediate v] => do
    .ok ⟨i.op, ← regField i d, ← regField i n, 0, ← u11Field i v⟩
  | _ => encoderError i "operands Rd, Rn, (Rm or immediate) are required"

/-- `Rn, Rm` or `Rn, #u11` (R331). -/
def compareFields (i : AsmInstr) : Except AsmError AsmFields :=
  match i.operands with
  | [.register n, .register m] => do .ok ⟨i.op, 0, ← regField i n, ← regField i m, 0⟩
  | [.register n, .immediate v] => do .ok ⟨i.op, 0, ← regField i n, 0, ← u11Field i v⟩
  | _ => encoderError i "operands Rn, (Rm or immediate) are required"

/-- `Rd, #u11` or `Rd, Rm` (R331). -/
def moveFields (i : AsmInstr) : Except AsmError AsmFields :=
  match i.operands with
  | [.register d, .immediate v] => do .ok ⟨i.op, ← regField i d, 0, 0, ← u11Field i v⟩
  | [.register d, .register m] => do .ok ⟨i.op, ← regField i d, 0, ← regField i m, 0⟩
  | _ => encoderError i "operands Rd, (immediate or Rm) are required"

/-- `Rd, [Rn]` or `Rd, [Rn, #s11]` (R331). -/
def memoryFields (i : AsmInstr) : Except AsmError AsmFields :=
  match i.operands with
  | [.register d, .memory n offset _ _] => do .ok ⟨i.op, ← regField i d, ← regField i n, 0, ← s11Field i offset⟩
  | _ => encoderError i "operands Rd, [Rn, immediate] are required"

/-- `#s11`, or a label, which the resolver has rewritten (R331). -/
def branchFields (i : AsmInstr) : Except AsmError AsmFields :=
  match i.operands with
  | [.immediate v] => do .ok ⟨i.op, 0, 0, 0, ← s11Field i v.toInt⟩
  | _ => encoderError i "a branch target is required"

/-- No operands (R331). -/
def bareFields (i : AsmInstr) : Except AsmError AsmFields :=
  match i.operands with
  | [] => .ok ⟨i.op, 0, 0, 0, 0⟩
  | _ => encoderError i "no operands are allowed"

/-- The operand table (R331): "validate operand shape against the opcode's expected pattern" (R330). -/
def encoderFields (i : AsmInstr) : Except AsmError AsmFields :=
  match i.op with
  | .nop | .halt => bareFields i
  | .add | .sub | .and | .or | .xor | .lsl | .lsr | .asr => threeOperandFields i
  | .cmp => compareFields i
  | .mov => moveFields i
  | .ldr | .str => memoryFields i
  | .b | .beq | .bne => branchFields i
  | .reserved _ => encoderError i "no instruction has this opcode"

/-- The words of the instructions, in order (R330). -/
def encodeInstrs : List AsmInstr → Except AsmError (List InstrWord)
  | [] => .ok []
  | i :: rest =>
    match encoderFields i with
    | .error e => .error e
    | .ok fields =>
      match encodeInstrs rest with
      | .ok words => .ok (fields.word :: words)
      | .error e => .error e

/-- The image (R334): "the concatenation of the 32-bit little-endian instruction image and the data-segment bytes, with
no header". -/
def imageOf (words : List InstrWord) (data : List Byte) : List Byte :=
  words.flatMap bytesOfWord ++ data

/-- The assembler (R310): four stages, "each stage refuses to advance on first error". -/
def assemble (source : List Char) : Except AsmError (List Byte) :=
  match lexSource source with
  | .error e => .error e
  | .ok tokens =>
    match parseTokens tokens with
    | .error e => .error e
    | .ok ast =>
      match resolveAst ast with
      | .error e => .error e
      | .ok instrs =>
        match encodeInstrs instrs with
        | .error e => .error e
        | .ok words => .ok (imageOf words ast.data)

/-- How the assembler's command line ends (R333). The last two are its driver's, which is out of scope (00_scope.md
R4). -/
inductive AsmExit where
  | success
  | assemblyError
  | ioError
  | invalidArguments
deriving DecidableEq, Repr

/-- "exit codes 0 success, 1 assembly error, 2 I/O error, 3 invalid arguments" (R333). -/
def AsmExit.code : AsmExit → Nat
  | .success => 0
  | .assemblyError => 1
  | .ioError => 2
  | .invalidArguments => 3

/-- How a run of the assembler over a source ends, with its arguments valid and its files readable and writable. -/
def assembleExit (source : List Char) : AsmExit :=
  match assemble source with
  | .ok _ => .success
  | .error _ => .assemblyError

/-- The name of the output file where `-o` gives none (R333). -/
def defaultOutput : String := "a.out"

end Sys2Proof.Machine
end

