-- ==== Sys2Proof/Safety.lean ====
section
/-! DEFINITION. The terms in which statements about the machine are made: idle buses and quiet controllers, what passes
in cycles the CPU spends inside itself, the stuck state, and the invariants of the state. -/

namespace Sys2Proof.Machine

/-! ## Idle and quiet -/

/-- Neither Read nor Write is asserted (R52: "the bus is idle"). -/
abbrev Soc.busIdle (p : Soc) : Prop :=
  p.bus.read = false ∧ p.bus.write = false

/-- The machine after `n` rounds of device ticks, which is all that happens outside the CPU in `n` cycles with an idle
bus (R40, R52). -/
def Soc.afterTicks : Nat → Soc → Soc
  | 0, p => p
  | n + 1, p => Soc.afterTicks n p.deviceTicks

/-- The controller has nothing to do: no command pending, and none it could fetch (R280). -/
abbrev Soc.quiet (p : Soc) : Prop :=
  p.ctrl.pending.valid = false ∧ (p.ctrl.ready = false ∨ p.ctrl.sqTail = p.ctrl.sqHead)

/-- The lines and signals of the bus, less its traffic counters (R17). -/
def Bus.signals (b : Bus) : Bus :=
  { b with readCount := 0, writeCount := 0 }

/-- The address is served by the RAM device `e` (R60), which is not in the middle of a latency count (R62). -/
abbrev Soc.servedByRam (p : Soc) (a : Word) (e : DeviceEntry) : Prop :=
  p.target a = some e ∧ e.device = .ram ∧ p.ram.busy = false

/-- The RAM device of a kind: the scratch RAM (R367), or RAM (R60). -/
def Soc.ramOf (p : Soc) (device : DeviceKind) : Ram :=
  if device = .scratchRam then p.scratch else p.ram

/-- The 64 bits a RAM device gives for an address (R61): 0 where the 8 bytes do not all lie in the array. -/
def Soc.ramValue (p : Soc) (e : DeviceEntry) (a : Word) : Word :=
  (p.ramOf e.device).transferRead e.size (e.offset a)

/-! ## Invariants -/

/-- The keyboard's FIFO holds no more than its 16 entries (R25, R365). -/
abbrev Keyboard.withinDepth (k : Keyboard) : Prop :=
  k.fifo.length ≤ Config.keyboardFifo

/-- A page of the right size: 4096 data bytes and 64 OOB bytes (R210). -/
abbrev Page.sized (g : Page) : Prop :=
  g.data.length = Config.pageSize ∧ g.oob.length = Config.oobSize

/-- The chip's pages are in canonical form, and each has its size. -/
abbrev Nand.wf (n : Nand) : Prop :=
  Sparse.wf Page.erased n.pages ∧ ∀ e ∈ n.pages, e.2.sized

/-- Every sparse map of the machine is in its canonical form: RAM, scratch RAM, NAND pages, the FTL's map. -/
abbrev Soc.canonical (p : Soc) : Prop :=
  Memory.wf p.ram.bytes ∧ Memory.wf p.scratch.bytes ∧ Nand.wf p.storage.nand ∧
  Sparse.wf (none : Option (BitVec 32)) p.storage.ftl.l2p

/-- What the bus lines show in each stage of a running CPU (R122, R123, R126, R127): Read alone while a fetch or an LDR
waits, Write alone while a STR waits, neither elsewhere; before a fetch, not both (a CPU Reset may have left one, R392).
The micro-op counter is 0 outside Fetch and Memory (R14), and Ready and Irq are never driven (R17). -/
def State.busProtocol (s : State) : Prop :=
  s.soc.bus.ready = false ∧ s.soc.bus.irq = false ∧
  match s.cpu.stage with
  | .fetch =>
    if s.cpu.uop = 0 then ¬ (s.soc.bus.read = true ∧ s.soc.bus.write = true)
    else s.soc.bus.read = true ∧ s.soc.bus.write = false
  | .memory =>
    if s.cpu.uop = 0 then s.soc.busIdle
    else if s.cpu.instr.op = .ldr then s.soc.bus.read = true ∧ s.soc.bus.write = false
    else s.soc.bus.read = false ∧ s.soc.bus.write = true
  | .decode | .execute | .writeBack => s.cpu.uop = 0 ∧ s.soc.busIdle

/-- CSTS shows Ready exactly while CC.Enable is set, and no other bit (R271, R274). -/
abbrev Ctrl.statusLegal (c : Ctrl) : Prop :=
  c.csts = c.cc &&& 1

/-- The FTL's tables describe one another (R22, R230, R231): one entry per block; the free list holds each Free block
once; the cursor's block is Active and no other block is. -/
structure Storage.bookkeeping (st : Storage) : Prop where
  blocks : st.ftl.info.length = st.nand.blockCount
  freeOnce : st.ftl.freeList.Nodup
  freeListed : ∀ b i, st.ftl.info[b]? = some i → (i.state = .free ↔ b ∈ st.ftl.freeList)
  freeInRange : ∀ b ∈ st.ftl.freeList, b < st.ftl.info.length
  activeIsCursor : ∀ b i, st.ftl.info[b]? = some i → (i.state = .active ↔ st.ftl.active.map Cursor.block = some b)
  cursorInRange : ∀ c, st.ftl.active = some c → c.block < st.ftl.info.length

end Sys2Proof.Machine
end

