-- ==== Sys2Proof/Certificates/Slice0/Obligations.lean ====
section
/-! DEFINITION. The statements for the provers, from the numbered rules of spec/. `exec i s` is an instruction from its
Decode stage to its end; `Soc.afterTicks n` is what n cycles with an idle bus make of everything outside the CPU. -/

open Sys2Proof Sys2Proof.Machine

/-! ## Encoding (30_encoding.md) -/

/-- R103, R90: a well-formed instruction is what its word, and the word's four bytes, decode to. -/
def Obligations.DecodeOfEncode : Prop :=
  ∀ i : Instr, i.wellFormed = true →
    decodeWord (encode i) = .ok i ∧ decodeBytes (bytesOfWord (encode i)) = .ok (i, [])

/-- R103, last clause: the instruction a word decodes to is well formed, and `Encode` gives the word back. -/
def Obligations.EncodeOfDecode : Prop :=
  ∀ (w : InstrWord) (i : Instr), decodeWord w = .ok i → i.wellFormed = true ∧ encode i = w

/-- R95: the word is the numeric cast of its fields, reduced modulo 2^32; the reduction matters for HALT's tag alone,
whose low six bits stay; the bytes come out least significant first. -/
def Obligations.EncodeWord : Prop :=
  (∀ (tag : BitVec 8) (rd rn rm : RegIdx) (imm11 : BitVec 11),
    let w := encodeFields tag rd rn rm imm11
    w.toNat = (tag.toNat <<< 26 ||| rd.val <<< 21 ||| rn.val <<< 16 ||| rm.val <<< 11 ||| imm11.toNat) % 2 ^ 32 ∧
    (w.extractLsb' 26 6).toNat = tag.toNat % 64 ∧
    bytesOfWord w = [w.extractLsb' 0 8, w.extractLsb' 8 8, w.extractLsb' 16 8, w.extractLsb' 24 8]) ∧
  (∀ i : Instr, encode i =
    encodeFields i.decoded.op.tag i.decoded.rd i.decoded.rn i.decoded.rm (i.decoded.imm.setWidth 11)) ∧
  (∀ i : Instr, i.decoded.op ≠ .halt → i.decoded.op.tag.toNat < 64) ∧
  Op.halt.tag = 0xFF

/-- Words the spec writes out (30_encoding.md section 5; 95_test_vectors.md T1 to T4, T27) decode to their
instructions. -/
def Obligations.DecodeWorkedWords : Prop :=
  decodeWord 0x04221800 = .ok (.add 1 2 3 0) ∧
  decodeWord 0x80A000FF = .ok (.mov 5 0 0 255) ∧
  decodeWord 0x41410010 = .ok (.ldr 10 1 0 16) ∧
  decodeWord 0x44410008 = .ok (.str 2 1 0 8) ∧
  decodeWord 0x8000002A = .ok (.mov 0 0 0 42) ∧
  decodeWord 0xC00007F8 = .ok (.b 0 0 0 (-8)) ∧
  decodeWord 0xFC000000 = .ok (.halt 0 0 0 0)

/-- R99: the reserved opcode fields are exactly the four ranges it lists, and their words decode to no instruction. -/
def Obligations.ReservedFields : Prop :=
  ∀ w : InstrWord,
    let f := (w.extractLsb' 26 6).toNat
    decodeWord w = .error (.reservedOpcode (w.extractLsb' 26 6)) ↔
      (0x0A ≤ f ∧ f ≤ 0x0F) ∨ (0x12 ≤ f ∧ f ≤ 0x1F) ∨ (0x21 ≤ f ∧ f ≤ 0x2F) ∨ (0x33 ≤ f ∧ f ≤ 0x3E)

/-- R98: HALT's field on the wire is 0x3F, and the decoder takes every word with that field as HALT; every other tag is
below 0x40 and equals its field; the image of `MOV R0, #42` and `HALT`. -/
def Obligations.HaltField : Prop :=
  encode (.halt 0 0 0 0) = 0xFC000000 ∧
  (∀ w : InstrWord, w.extractLsb' 26 6 = 0x3F → (decode w).op = .halt) ∧
  (∀ i : Instr, i.decoded.op ≠ .halt →
    i.decoded.op.tag.toNat < 0x40 ∧ ((encode i).extractLsb' 26 6).toNat = i.decoded.op.tag.toNat) ∧
  bytesOfWord (encode (.mov 0 0 0 42)) ++ bytesOfWord (encode (.halt 0 0 0 0)) =
    [0x2A, 0x00, 0x00, 0x80, 0x00, 0x00, 0x00, 0xFC]

/-- R8: the four bit operations, their laws, and that they touch one bit only. -/
def Obligations.BitOperations : Prop :=
  ∀ (w : Nat) (v : BitVec w) (b : Nat), b < w →
    setBit v b = v ||| (1#w <<< b) ∧ clearBit v b = v &&& ~~~(1#w <<< b) ∧ checkBit v b = v.getLsbD b ∧
    checkBit (setBit v b) b = true ∧ checkBit (clearBit v b) b = false ∧
    setBit (setBit v b) b = setBit v b ∧ clearBit (clearBit v b) b = clearBit v b ∧
    (∀ c, c ≠ b → checkBit (setBit v b) c = checkBit v c ∧ checkBit (clearBit v b) c = checkBit v c) ∧
    (∀ lo, lo ≤ b → extractField v b lo = (v.extractLsb' lo (b - lo + 1)).toNat)

/-! ## The ALU and the instructions that use it (41_alu_ops.md, 43_move_branch.md, 44_system.md) -/

/-- R161: the flag laws. -/
def Obligations.AluFlagLaws : Prop :=
  ∀ (a b : Word) (flags : Flags),
    ((alu .add a b flags).2.c = true ↔ 2 ^ 64 ≤ a.toNat + b.toNat) ∧
    ((alu .sub a b flags).2.c = true ↔ a.toNat < b.toNat) ∧
    alu .add 0x7FFFFFFFFFFFFFFF 1 flags = (0x8000000000000000, ⟨false, true, false, true⟩) ∧
    (∀ op ∈ [AluOp.and, .or, .xor], (alu op a b flags).2.v = false ∧ (alu op a b flags).2.c = flags.c) ∧
    (∀ op ∈ [AluOp.lsl, .lsr, .asr], (alu op a b flags).2.v = false ∧
      (b.toNat % 64 = 0 → (alu op a b flags).2.c = flags.c)) ∧
    (∀ op : AluOp, ((alu op a b flags).2.z = true ↔ (alu op a b flags).1 = 0) ∧
      (alu op a b flags).2.n = (alu op a b flags).1.getLsbD 63)

/-- R151, R163: ADD. The sum modulo 2^64 in `x[rd]`, the four flags from the exact sums, `pc + 4`; three cycles after its
Decode begins. -/
def Obligations.AddResult : Prop :=
  ∀ (s : State) (rd rn rm : RegIdx) (imm : Word), s.soc.busIdle →
    let a := s.cpu.reg rn
    let b := s.cpu.reg rm
    exec (.add rd rn rm imm) s = .next
      { cpu := { s.cpu with
          x := s.cpu.x.set rd (BitVec.ofNat 64 (a.toNat + b.toNat))
          pc := s.cpu.pc + 4
          flags :=
            { z := decide ((a.toNat + b.toNat) % 2 ^ 64 = 0)
              n := decide (2 ^ 63 ≤ (a.toNat + b.toNat) % 2 ^ 64)
              c := decide (2 ^ 64 ≤ a.toNat + b.toNat)
              v := decide (a.toInt + b.toInt < -2 ^ 63 ∨ 2 ^ 63 ≤ a.toInt + b.toInt) }
          stage := .fetch
          uop := 0
          opA := a
          opB := b
          aluResult := BitVec.ofNat 64 (a.toNat + b.toNat) }
        soc := s.soc.afterTicks 3 }

/-- R152, R163: SUB. C is the borrow. -/
def Obligations.SubResult : Prop :=
  ∀ (s : State) (rd rn rm : RegIdx) (imm : Word), s.soc.busIdle →
    let a := s.cpu.reg rn
    let b := s.cpu.reg rm
    exec (.sub rd rn rm imm) s = .next
      { cpu := { s.cpu with
          x := s.cpu.x.set rd (BitVec.ofInt 64 (a.toNat - b.toNat))
          pc := s.cpu.pc + 4
          flags :=
            { z := decide (a = b)
              n := (BitVec.ofInt 64 (a.toNat - b.toNat)).getLsbD 63
              c := decide (a.toNat < b.toNat)
              v := decide (a.toInt - b.toInt < -2 ^ 63 ∨ 2 ^ 63 ≤ a.toInt - b.toInt) }
          stage := .fetch
          uop := 0
          opA := a
          opB := b
          aluResult := BitVec.ofInt 64 (a.toNat - b.toNat) }
        soc := s.soc.afterTicks 3 }

/-- R153, R154, R155, R163: AND, OR, XOR. Z and N from the result, C unchanged, V cleared. -/
def Obligations.LogicResults : Prop :=
  ∀ (s : State) (rd rn rm : RegIdx) (imm : Word), s.soc.busIdle →
    let a := s.cpu.reg rn
    let b := s.cpu.reg rm
    let retired := fun r : Word => (Host.Outcome.next
      { cpu := { s.cpu with
          x := s.cpu.x.set rd r
          pc := s.cpu.pc + 4
          flags := { z := decide (r = 0), n := r.getLsbD 63, c := s.cpu.flags.c, v := false }
          stage := .fetch
          uop := 0
          opA := a
          opB := b
          aluResult := r }
        soc := s.soc.afterTicks 3 } : Out)
    exec (.and rd rn rm imm) s = retired (a &&& b) ∧
    exec (.or rd rn rm imm) s = retired (a ||| b) ∧
    exec (.xor rd rn rm imm) s = retired (a ^^^ b)

/-- R156, R157, R158, R163: LSL, LSR, ASR. The amount is `x[rm]` modulo 64; LSL multiplies and LSR and ASR divide by a
power of two, ASR as a signed number rounding down; C is the last bit shifted out, kept for the amount 0. -/
def Obligations.ShiftResults : Prop :=
  ∀ (s : State) (rd rn rm : RegIdx) (imm : Word), s.soc.busIdle →
    let a := s.cpu.reg rn
    let b := s.cpu.reg rm
    let k := b.toNat % 64
    let retired := fun (r : Word) (c : Bool) => (Host.Outcome.next
      { cpu := { s.cpu with
          x := s.cpu.x.set rd r
          pc := s.cpu.pc + 4
          flags := { z := decide (r = 0), n := r.getLsbD 63, c := c, v := false }
          stage := .fetch
          uop := 0
          opA := a
          opB := b
          aluResult := r }
        soc := s.soc.afterTicks 3 } : Out)
    exec (.lsl rd rn rm imm) s =
      retired (BitVec.ofNat 64 (a.toNat * 2 ^ k)) (if k = 0 then s.cpu.flags.c else a.getLsbD (64 - k)) ∧
    exec (.lsr rd rn rm imm) s =
      retired (BitVec.ofNat 64 (a.toNat / 2 ^ k)) (if k = 0 then s.cpu.flags.c else a.getLsbD (k - 1)) ∧
    exec (.asr rd rn rm imm) s =
      retired (BitVec.ofInt 64 (a.toInt / 2 ^ k)) (if k = 0 then s.cpu.flags.c else a.getLsbD (k - 1))

/-- R159: CMP. SUB's flags and no register; Z is equality, C unsigned order, N different from V signed order. The
difference stays in `alu_result` (the spec's decision D11). -/
def Obligations.CompareResult : Prop :=
  ∀ (s : State) (rd rn rm : RegIdx) (imm : Word), s.soc.busIdle →
    let a := s.cpu.reg rn
    let b := s.cpu.reg rm
    ∃ flags : Flags,
      exec (.cmp rd rn rm imm) s = .next
        { cpu := { s.cpu with
            pc := s.cpu.pc + 4
            flags := flags
            stage := .fetch
            uop := 0
            opA := a
            opB := b
            aluResult := a - b }
          soc := s.soc.afterTicks 3 } ∧
      (flags.z = true ↔ a = b) ∧ (flags.c = true ↔ a.toNat < b.toNat) ∧ (flags.n ≠ flags.v ↔ a.toInt < b.toInt) ∧
      flags.n = (a - b).getLsbD 63

/-- R190: MOV of any immediate its field can hold. That the four flags are committed is the spec's decision D12. -/
def Obligations.MoveResult : Prop :=
  ∀ (s : State) (rd rn rm : RegIdx) (imm : Word), s.soc.busIdle → (Instr.mov rd rn rm imm).wellFormed = true →
    exec (.mov rd rn rm imm) s = .next
      { cpu := { s.cpu with
          x := s.cpu.x.set rd imm
          pc := s.cpu.pc + 4
          flags := ⟨decide (imm = 0), false, false, false⟩
          stage := .fetch
          uop := 0
          opA := 0
          opB := imm
          aluResult := imm }
        soc := s.soc.afterTicks 3 }

/-- R200: NOP copies the stale `alu_result` into `x[rd]` (the spec's decision D32, C13) and changes no flag. -/
def Obligations.NopResult : Prop :=
  ∀ (s : State) (rd rn rm : RegIdx) (imm : Word), s.soc.busIdle →
    exec (.nop rd rn rm imm) s = .next
      { cpu := { s.cpu with
          x := s.cpu.x.set rd s.cpu.aluResult
          pc := s.cpu.pc + 4
          stage := .fetch
          uop := 0
          opA := s.cpu.reg rn
          opB := s.cpu.reg rm }
        soc := s.soc.afterTicks 3 }

/-- R201: HALT sets Halted in Execute and leaves `pc`, the flags and the registers (the spec's decision D13). -/
def Obligations.HaltResult : Prop :=
  ∀ (s : State) (rd rn rm : RegIdx) (imm : Word), s.soc.busIdle →
    exec (.halt rd rn rm imm) s = .next
      { cpu := { s.cpu with
          halted := true
          stage := .execute
          opA := s.cpu.reg rn
          opB := s.cpu.reg rm }
        soc := s.soc.afterTicks 2 }

/-- R191 to R194, R124: B always, BEQ with Z set and BNE with Z clear add the offset to the branch's own `pc` and go back
to Fetch without WriteBack. That OpA keeps its value is the spec's decision D16 (log 22). -/
def Obligations.BranchTaken : Prop :=
  ∀ (s : State) (rd rn rm : RegIdx) (imm : Word), s.soc.busIdle →
    let taken : Out := .next
      { cpu := { s.cpu with pc := s.cpu.pc + imm, stage := .fetch, uop := 0, opB := imm }
        soc := s.soc.afterTicks 2 }
    exec (.b rd rn rm imm) s = taken ∧
    (s.cpu.flags.z = true → exec (.beq rd rn rm imm) s = taken) ∧
    (s.cpu.flags.z = false → exec (.bne rd rn rm imm) s = taken)

/-- R192, R193, R124: BEQ with Z clear and BNE with Z set fall through WriteBack to `pc + 4`. That OpA keeps its value is
the spec's decision D16 (log 22). -/
def Obligations.BranchNotTaken : Prop :=
  ∀ (s : State) (rd rn rm : RegIdx) (imm : Word), s.soc.busIdle →
    let fallsThrough : Out := .next
      { cpu := { s.cpu with pc := s.cpu.pc + 4, stage := .fetch, uop := 0, opB := imm }
        soc := s.soc.afterTicks 3 }
    (s.cpu.flags.z = false → exec (.beq rd rn rm imm) s = fallsThrough) ∧
    (s.cpu.flags.z = true → exec (.bne rd rn rm imm) s = fallsThrough)

/-! ## Loads and stores (42_load_store.md) -/

/-- R180, R181, R62: at an address that any device claims, LDR and STR complete, however long the device waits. -/
def Obligations.MemoryAccessCompletes : Prop :=
  ∀ (s : State) (rd rn rm : RegIdx) (imm : Word) (e : DeviceEntry), s.soc.busIdle →
    s.soc.target (s.effectiveAddress rn imm) = some e →
    (∃ (t : State) (v : Word), exec (.ldr rd rn rm imm) s = .next t ∧ t.soc.busIdle ∧ t.soc.bus.wait = false ∧
      t.cpu = { s.cpu with
        x := s.cpu.x.set rd v
        pc := s.cpu.pc + 4
        stage := .fetch
        uop := 0
        opA := s.cpu.reg rn
        opB := imm
        aluResult := s.cpu.reg rn + imm
        memData := v }) ∧
    (∃ t : State, exec (.str rd rn rm imm) s = .next t ∧ t.soc.busIdle ∧ t.soc.bus.wait = false ∧
      t.cpu = { s.cpu with
        pc := s.cpu.pc + 4
        stage := .fetch
        uop := 0
        opA := s.cpu.reg rn
        opB := imm
        aluResult := s.cpu.reg rn + imm })

/-- R180, R182, R61, R367: LDR from RAM or from the scratch RAM loads the eight bytes from the effective address, whatever
its alignment, and 0 where they do not all lie in the device (the spec's decision D9, log 13); while the controller is
quiet no byte of memory changes. -/
def Obligations.LoadFromRam : Prop :=
  ∀ (s : State) (rd rn rm : RegIdx) (imm : Word) (e : DeviceEntry), s.soc.busIdle → s.soc.quiet →
    s.soc.target (s.effectiveAddress rn imm) = some e → e.device ∈ [DeviceKind.ram, .scratchRam] →
    let off := (s.effectiveAddress rn imm).toNat - e.base.toNat
    let v : Word := if off + 8 ≤ e.size then join64 fun k => (s.soc.ramOf e.device).bytes.read (off + k) else 0
    ∃ t : State, exec (.ldr rd rn rm imm) s = .next t ∧
      t.cpu = { s.cpu with
        x := s.cpu.x.set rd v
        pc := s.cpu.pc + 4
        stage := .fetch
        uop := 0
        opA := s.cpu.reg rn
        opB := imm
        aluResult := s.effectiveAddress rn imm
        memData := v } ∧
      (∀ a, t.soc.ram.bytes.read a = s.soc.ram.bytes.read a) ∧
      (∀ a, t.soc.scratch.bytes.read a = s.soc.scratch.bytes.read a) ∧
      t.soc.ctrl = s.soc.ctrl ∧ t.soc.storage = s.soc.storage ∧ t.soc.cfg = s.soc.cfg

/-- R181, R182, R61, R65, R367: STR to RAM or to the scratch RAM stores the eight bytes of `x[rd]` from the effective
address, least significant first, and nothing where they do not all lie in the device (the spec's decision D9, log 13);
every other byte of both reads as before. -/
def Obligations.StoreToRam : Prop :=
  ∀ (s : State) (rd rn rm : RegIdx) (imm : Word) (e : DeviceEntry), s.soc.busIdle → s.soc.quiet →
    s.soc.target (s.effectiveAddress rn imm) = some e → e.device ∈ [DeviceKind.ram, .scratchRam] →
    Memory.wf (s.soc.ramOf e.device).bytes →
    let off := (s.effectiveAddress rn imm).toNat - e.base.toNat
    ∃ t : State, exec (.str rd rn rm imm) s = .next t ∧
      t.cpu = { s.cpu with
        pc := s.cpu.pc + 4
        stage := .fetch
        uop := 0
        opA := s.cpu.reg rn
        opB := imm
        aluResult := s.effectiveAddress rn imm } ∧
      (∀ device ∈ [DeviceKind.ram, .scratchRam], ∀ a, (t.soc.ramOf device).bytes.read a =
        if device = e.device ∧ off + 8 ≤ e.size ∧ off ≤ a ∧ a < off + 8 then (s.cpu.reg rd).extractLsb' (8 * (a - off)) 8
        else (s.soc.ramOf device).bytes.read a) ∧
      t.soc.ctrl = s.soc.ctrl ∧ t.soc.storage = s.soc.storage ∧ t.soc.cfg = s.soc.cfg

/-- R180, R271, R273: LDR from the storage controller loads the 32-bit register at that exact offset of R271's table,
zero-extended, and 0 at any other offset, and changes nothing. That the registers have 32 bits and answer at exact offsets
is the spec's decision D24 (logs 26 and 29). -/
def Obligations.LoadFromController : Prop :=
  ∀ (s : State) (rd rn rm : RegIdx) (imm : Word) (e : DeviceEntry), s.soc.busIdle → s.soc.quiet →
    s.soc.target (s.effectiveAddress rn imm) = some e → e.device = .controller →
    let c := s.soc.ctrl
    let registers : List (Nat × BitVec 32) :=
      [ (0x00, s.soc.cfg.cap.extractLsb' 0 32), (0x04, s.soc.cfg.cap.extractLsb' 32 32), (0x08, 0x00010000),
        (0x0C, c.intms), (0x10, c.intmc), (0x14, c.cc), (0x1C, c.csts), (0x24, c.aqa), (0x28, c.asqLo),
        (0x2C, c.asqHi), (0x30, c.acqLo), (0x34, c.acqHi), (0x1000, c.sqTail), (0x1004, c.cqHead) ]
    let v := ((registers.lookup ((s.effectiveAddress rn imm).toNat - e.base.toNat)).getD 0).setWidth 64
    ∃ t : State, exec (.ldr rd rn rm imm) s = .next t ∧
      t.cpu = { s.cpu with
        x := s.cpu.x.set rd v
        pc := s.cpu.pc + 4
        stage := .fetch
        uop := 0
        opA := s.cpu.reg rn
        opB := imm
        aluResult := s.effectiveAddress rn imm
        memData := v } ∧
      t.soc.ctrl = s.soc.ctrl ∧ t.soc.ram.bytes = s.soc.ram.bytes ∧ t.soc.scratch.bytes = s.soc.scratch.bytes ∧
      t.soc.storage = s.soc.storage

/-- R181, R271, R273: STR to the storage controller writes the low 32 bits of `x[rd]` to the register at that exact offset
if it can be written, and changes no other register, no byte of memory and no command state. A write to CC has R274's side
effect, and one to SQ0TDBL R276's: it only stores the tail where the controller is not ready or the tail is the head. For
every offset, the machine after the STR is that of the write handler in the bus tick of the request, with the device ticks
around it, which is where an enabled or rung controller fetches a command. That the registers have 32 bits and answer at
exact offsets, any other offset being ignored, is the spec's decision D24 (logs 26 and 29); what clearing Enable leaves is
D29, and the doorbell's guard D25 (log 29). -/
def Obligations.StoreToController : Prop :=
  ∀ (s : State) (rd rn rm : RegIdx) (imm : Word) (e : DeviceEntry), s.soc.busIdle → s.soc.quiet →
    s.soc.target (s.effectiveAddress rn imm) = some e → e.device = .controller →
    let off := (s.effectiveAddress rn imm).toNat - e.base.toNat
    let v := (s.cpu.reg rd).extractLsb' 0 32
    let c := s.soc.ctrl
    let idle := s.soc.afterTicks 2
    let request : Soc := { idle with bus := { idle.bus with
      address := s.effectiveAddress rn imm
      data := s.cpu.reg rd
      write := true
      writeCount := idle.bus.writeCount + 1 } }
    let written := request.controllerWrite off (s.cpu.reg rd)
    let ticked := Soc.deviceTicks { written with bus := { written.bus with wait := false } }
    ∃ t : State, exec (.str rd rn rm imm) s = .next t ∧
      t.cpu = { s.cpu with
        pc := s.cpu.pc + 4
        stage := .fetch
        uop := 0
        opA := s.cpu.reg rn
        opB := imm
        aluResult := s.effectiveAddress rn imm } ∧
      t.soc = Soc.afterTicks 2 { ticked with bus := { ticked.bus with write := false } } ∧
      let kept := t.soc.ram.bytes = s.soc.ram.bytes ∧ t.soc.scratch.bytes = s.soc.scratch.bytes ∧
        t.soc.storage = s.soc.storage
      (off ≠ 0x14 → off ≠ 0x1000 →
        (∀ o, t.soc.ctrl.register s.soc.cfg.cap o =
          if o = off ∧ off ∈ [0x0C, 0x10, 0x24, 0x28, 0x2C, 0x30, 0x34, 0x1004] then v
          else c.register s.soc.cfg.cap o) ∧
        t.soc.ctrl.sqHead = c.sqHead ∧ t.soc.ctrl.cqTail = c.cqTail ∧ t.soc.ctrl.pending = c.pending ∧
        t.soc.ctrl.busyTicks = c.busyTicks ∧ kept) ∧
      (off = 0x14 →
        (c.cc.getLsbD 0 = false → v.getLsbD 0 = true → c.sqTail = c.sqHead →
          t.soc.ctrl = { c with cc := v, csts := c.csts ||| 1 } ∧ kept) ∧
        (c.cc.getLsbD 0 = true → v.getLsbD 0 = false →
          t.soc.ctrl = { c with cc := v, csts := c.csts &&& ~~~1, sqHead := 0, cqTail := 0 } ∧ kept) ∧
        (c.cc.getLsbD 0 = v.getLsbD 0 → t.soc.ctrl = { c with cc := v } ∧ kept)) ∧
      (off = 0x1000 → c.csts.getLsbD 0 = false ∨ v = c.sqHead → t.soc.ctrl = { c with sqTail := v } ∧ kept)

/-- R360, R68, U3: LDR and STR at a peripheral complete and change nothing in the CPU (but for the load's own write),
RAM, the controller or the storage stack; a load of the keyboard's DATA pops its FIFO once, and one of the mouse's DATA_X
or DATA_Y zeroes that accumulator (R365, R366); a store to the PIC's IRQ_ENABLE is stored and one to IRQ_ACK clears the
status bits written as 1 (R363), on lines without a source. The value loaded is the model's free value (log 1): nothing
is known of it. The model's choices, too: that bit i of the data lines is line i (log 3), that the FIFO, the accumulators,
IRQ_ENABLE and lines 4 to 15 stay over the ticks (logs 5 and 31), and that registers answer at exact offsets (log 26). -/
def Obligations.PeripheralAccess : Prop :=
  ∀ (s : State) (rd rn rm : RegIdx) (imm : Word) (e : DeviceEntry), s.soc.busIdle → s.soc.quiet →
    s.soc.target (s.effectiveAddress rn imm) = some e →
    e.device ∈ [DeviceKind.uart, .pic, .timer, .keyboard, .mouse] →
    let off := (s.effectiveAddress rn imm).toNat - e.base.toNat
    let kept := fun t : State => t.soc.ram.bytes = s.soc.ram.bytes ∧ t.soc.scratch.bytes = s.soc.scratch.bytes ∧
      t.soc.ctrl = s.soc.ctrl ∧ t.soc.storage = s.soc.storage
    let v := Config.peripheralRead (s.soc.afterTicks 2).freeCount
    (∃ t : State, exec (.ldr rd rn rm imm) s = .next t ∧ kept t ∧
      t.cpu = { s.cpu with
        x := s.cpu.x.set rd v
        pc := s.cpu.pc + 4
        stage := .fetch
        uop := 0
        opA := s.cpu.reg rn
        opB := imm
        aluResult := s.effectiveAddress rn imm
        memData := v } ∧
      t.soc.periph.keyboard.fifo =
        (if e.device = .keyboard ∧ off = 0x4 then s.soc.periph.keyboard.fifo.tail else s.soc.periph.keyboard.fifo) ∧
      t.soc.periph.mouse.dataX = (if e.device = .mouse ∧ off = 0x4 then 0 else s.soc.periph.mouse.dataX) ∧
      t.soc.periph.mouse.dataY = (if e.device = .mouse ∧ off = 0x8 then 0 else s.soc.periph.mouse.dataY)) ∧
    (∃ t : State, exec (.str rd rn rm imm) s = .next t ∧ kept t ∧
      t.cpu = { s.cpu with
        pc := s.cpu.pc + 4
        stage := .fetch
        uop := 0
        opA := s.cpu.reg rn
        opB := imm
        aluResult := s.effectiveAddress rn imm } ∧
      (e.device = .pic → off = 0x4 → t.soc.periph.pic.enable = (s.cpu.reg rd).extractLsb' 0 16) ∧
      (e.device = .pic → off = 0x8 → ∀ line, 4 ≤ line →
        t.soc.periph.pic.status.getLsbD line = (s.soc.periph.pic.status.getLsbD line && !(s.cpu.reg rd).getLsbD line)))

/-- R352, R353: an LDR, an STR or a fetch at an address no device claims leaves the CPU stuck in its waiting micro-op with
Error and Wait set, and has written no register, no flag and, while the controller is quiet, no memory. -/
def Obligations.UnmappedAccessSticks : Prop :=
  (∀ (s : State) (rd rn rm : RegIdx) (imm : Word), s.soc.busIdle → s.cpu.halted = false →
    s.soc.target (s.effectiveAddress rn imm) = none →
    let waiting := { s.cpu with
      stage := .memory
      uop := 1
      opA := s.cpu.reg rn
      opB := imm
      aluResult := s.effectiveAddress rn imm }
    let failed := fun t : State => t.stuck = true ∧ t.cpu = waiting ∧
      t.soc.bus.address = s.effectiveAddress rn imm ∧ t.soc.bus.error = true ∧ t.soc.bus.wait = true ∧
      (s.soc.quiet → t.soc.ram.bytes = s.soc.ram.bytes ∧ t.soc.scratch.bytes = s.soc.scratch.bytes ∧
        t.soc.ctrl = s.soc.ctrl ∧ t.soc.storage = s.soc.storage)
    (∃ t : State, exec (.ldr rd rn rm imm) s = .next t ∧ failed t ∧
      t.soc.bus.read = true ∧ t.soc.bus.write = false) ∧
    (∃ t : State, exec (.str rd rn rm imm) s = .next t ∧ failed t ∧
      t.soc.bus.read = false ∧ t.soc.bus.write = true ∧ t.soc.bus.data = s.cpu.reg rd)) ∧
  (∀ s : State, s.atInstructionStart = true → s.cpu.pc.toNat % 4 = 0 → s.soc.target s.cpu.pc = none →
    ∃ t : State, step s = .next t ∧ t.stuck = true ∧ t.cpu = { s.cpu with uop := 1 } ∧
      t.soc.bus.address = s.cpu.pc ∧ t.soc.bus.error = true ∧ t.soc.bus.wait = true ∧
      t.soc.bus.read = true ∧ t.soc.bus.write = false ∧
      (s.soc.quiet → t.soc.ram.bytes = s.soc.ram.bytes ∧ t.soc.scratch.bytes = s.soc.scratch.bytes ∧
        t.soc.ctrl = s.soc.ctrl ∧ t.soc.storage = s.soc.storage))

/-- R353: every step from the stuck state leaves the whole CPU unchanged, and stuck. -/
def Obligations.StuckStays : Prop :=
  ∀ s : State, s.stuck = true → s.soc.bus.read ≠ s.soc.bus.write →
    ∃ t : State, step s = .next t ∧ t.stuck = true ∧ t.cpu = s.cpu ∧
      t.soc.bus.address = s.soc.bus.address ∧ t.soc.bus.read = s.soc.bus.read ∧ t.soc.bus.write = s.soc.bus.write ∧
      t.soc.bus.error = true

/-! ## Frames -/

/-- R128, R130, R162: whatever the bus and the devices do, an instruction writes no register but `x[rd]`, STR, CMP,
branches and HALT none; NOP, LDR, STR, branches and HALT write no flag; HALT alone sets Halted, LDR alone writes
`mem_data`, and none writes the instruction latch. -/
def Obligations.RegistersAndFlagsKept : Prop :=
  ∀ (i : Instr) (s t : State), exec i s = .next t →
    (∀ r : RegIdx, r ≠ i.decoded.rd → t.cpu.reg r = s.cpu.reg r) ∧
    (i.decoded.op ∈ [Op.str, .cmp, .b, .beq, .bne, .halt] → t.cpu.x = s.cpu.x) ∧
    (i.decoded.op ∈ [Op.nop, .ldr, .str, .b, .beq, .bne, .halt] → t.cpu.flags = s.cpu.flags) ∧
    (i.decoded.op ≠ .halt → t.cpu.halted = s.cpu.halted) ∧
    (i.decoded.op ≠ .ldr → t.cpu.memData = s.cpu.memData) ∧
    t.cpu.instr = s.cpu.instr

/-- R130, R163: every instruction but LDR and STR leaves every byte of memory, the controller and the storage stack as
they were, while the controller is quiet. -/
def Obligations.MemoryKept : Prop :=
  ∀ (i : Instr) (s t : State), i.decoded.op ≠ .ldr → i.decoded.op ≠ .str → s.soc.busIdle → s.soc.quiet →
    exec i s = .next t →
    (∀ a, t.soc.ram.bytes.read a = s.soc.ram.bytes.read a) ∧
    (∀ a, t.soc.scratch.bytes.read a = s.soc.scratch.bytes.read a) ∧
    t.soc.ctrl = s.soc.ctrl ∧ t.soc.storage = s.soc.storage ∧ t.soc.bus = s.soc.bus ∧ t.soc.cfg = s.soc.cfg

/-! ## The step (40_pipeline.md) -/

/-- R122, R123, R90, R407: where RAM serves the fetch, a step is the fetch (which latches the instruction, and changes no
register, no flag and no memory) and then exec of the instruction that the four bytes at `pc` decode to; in the last seven
bytes of RAM the word fetched is 0 (the spec's decision D9, log 13). That a step is a whole instruction is the model's
choice (log 8). -/
def Obligations.StepRunsDecodedInstruction : Prop :=
  ∀ (s : State) (i : Instr) (e : DeviceEntry), s.atInstructionStart = true → s.cpu.pc.toNat % 4 = 0 →
    s.soc.servedByRam s.cpu.pc e → s.soc.quiet →
    let off := s.cpu.pc.toNat - e.base.toNat
    let bytes := if off + 8 ≤ e.size then (List.range 4).map fun k => s.soc.ram.bytes.read (off + k) else [0, 0, 0, 0]
    decodeBytes bytes = .ok (i, []) →
    ∃ f : State, s.fetch = .next f ∧ step s = exec i f ∧
      f.cpu = { s.cpu with instr := i.decoded, stage := .decode, uop := 0 } ∧ f.soc.busIdle ∧ f.soc.quiet ∧
      f.soc.ram.bytes = s.soc.ram.bytes ∧ f.soc.ram.busy = false ∧ f.soc.scratch.bytes = s.soc.scratch.bytes ∧
      f.soc.ctrl = s.soc.ctrl ∧ f.soc.storage = s.soc.storage ∧ f.soc.cfg = s.soc.cfg

/-- R350, R66, R99, U1, U2: from an instruction's start a step never faults; it refuses an unaligned fetch and a reserved
opcode, and nothing else. -/
def Obligations.StepOutcomes : Prop :=
  ∀ s : State, s.atInstructionStart = true →
    (∀ r, step s ≠ .fault r) ∧
    (s.cpu.pc.toNat % 4 ≠ 0 → step s = .refused (.unalignedFetch s.cpu.pc)) ∧
    (∀ r, step s = .refused r →
      (r = .unalignedFetch s.cpu.pc ∧ s.cpu.pc.toNat % 4 ≠ 0) ∨
      ∃ f, r = .reservedOpcode f ∧ Op.ofField f = .reserved f) ∧
    (∀ (e : DeviceEntry) (f : BitVec 6), s.cpu.pc.toNat % 4 = 0 → s.soc.servedByRam s.cpu.pc e → s.soc.quiet →
      let off := s.cpu.pc.toNat - e.base.toNat
      off + 8 ≤ e.size →
      decodeBytes ((List.range 4).map fun k => s.soc.ram.bytes.read (off + k)) = .error (.reservedOpcode f) →
      step s = .refused (.reservedOpcode f))

/-- R40, R121: a step of the instruction-level machine is a whole number of cycles of the cycle-level machine, for every
state and every outcome. That a step is one instruction is the model's choice (log 8). -/
def Obligations.StepIsCycles : Prop :=
  ∀ s : State, ∃ n, 1 ≤ n ∧ step s = cycles n s

/-- R131, R410: the tick counts of the instructions, with RAM latency L: 5 + L, 4 + L for a taken branch and HALT,
7 + 2L for LDR and STR in RAM. -/
def Obligations.TickCounts : Prop :=
  ∀ (s : State) (i : Instr) (e : DeviceEntry), s.soc.cfg.wellFormed = true → s.atInstructionStart = true →
    s.cpu.pc.toNat % 4 = 0 → s.soc.servedByRam s.cpu.pc e → s.soc.quiet →
    let off := s.cpu.pc.toNat - e.base.toNat
    off + 8 ≤ e.size →
    decodeBytes ((List.range 4).map fun k => s.soc.ram.bytes.read (off + k)) = .ok (i, []) →
    let latency := s.soc.cfg.ramLatency
    (i.decoded.op ∈ [Op.add, .sub, .and, .or, .xor, .lsl, .lsr, .asr, .cmp, .mov, .nop] →
      step s = cycles (5 + latency) s) ∧
    (i.decoded.op ∈ [Op.b, .halt] → step s = cycles (4 + latency) s) ∧
    (i.decoded.op = .beq → step s = cycles ((if s.cpu.flags.z then 4 else 5) + latency) s) ∧
    (i.decoded.op = .bne → step s = cycles ((if s.cpu.flags.z then 5 else 4) + latency) s) ∧
    (i.decoded.op ∈ [Op.ldr, .str] → s.soc.target (s.effectiveAddress i.decoded.rn i.decoded.imm) = some e →
      step s = cycles (7 + 2 * latency) s)

/-- R13, R201, R358: once Halted, a step leaves the CPU as it is; the bus idles and the devices go on ticking. -/
def Obligations.HaltedStays : Prop :=
  ∀ s : State, s.cpu.halted = true → s.soc.busIdle → ∀ n,
    cycles n s = .next { s with soc := s.soc.afterTicks n } ∧ step s = .next { s with soc := s.soc.afterTicks 1 }

/-- R42, R397: the driver runs cycles until the first state with Halted set or until the cap. (That it looks at Halted
before each cycle is the spec's decision D31.) -/
def Obligations.RunIsCycles : Prop :=
  ∀ (maxCycles : Nat) (s : State), ∃ n, n ≤ maxCycles ∧ run maxCycles s = cycles n s ∧
    (∀ t, run maxCycles s = .next t → t.cpu.halted = true ∨ n = maxCycles) ∧
    (∀ k u, k < n → cycles k s = .next u → u.cpu.halted = false)

/-! ## Invariants -/

/-- Every step keeps the canonical form of RAM, scratch RAM, the NAND pages and the FTL's map, and the size of every
page (R61, R210; the canonical form is the model's, log 13). -/
def Obligations.StepKeepsCanonicalForms : Prop :=
  ∀ s t : State, s.soc.canonical → step s = .next t → t.soc.canonical

/-- R17, R46, R14: every step keeps the master's protocol: Read and Write never together while a transaction is open,
neither outside Fetch and Memory, the micro-op counter 0 outside Fetch and Memory, Ready and Irq never driven (the spec's
decision D4, log 23). -/
def Obligations.StepKeepsBusProtocol : Prop :=
  ∀ s t : State, s.busProtocol → step s = .next t → t.busProtocol

/-- R18, R28, R271, R274, R365: every step keeps the configuration, keeps CSTS equal to CC's Enable bit, and keeps the
keyboard's FIFO within its 16 entries. -/
def Obligations.StepKeepsConfigAndStatus : Prop :=
  ∀ s t : State, step s = .next t →
    t.soc.cfg = s.soc.cfg ∧ (s.soc.ctrl.statusLegal → t.soc.ctrl.statusLegal) ∧
    (s.soc.periph.keyboard.fifo.length ≤ 16 → t.soc.periph.keyboard.fifo.length ≤ 16)

/-- R22, R230, R231: every step keeps the FTL's tables in agreement: one entry per block, each Free block once on the free
list, at most one Active block, the cursor's. -/
def Obligations.StepKeepsBookkeeping : Prop :=
  ∀ s t : State, s.soc.storage.bookkeeping → step s = .next t → t.soc.storage.bookkeeping

/-- The invariants hold right after reset (R29, R391; the keyboard's FIFO is empty there by the model's choice, log 2). -/
def Obligations.ResetInvariants : Prop :=
  State.reset.soc.canonical ∧ State.reset.busProtocol ∧ State.reset.soc.ctrl.statusLegal ∧
  State.reset.soc.storage.bookkeeping ∧ State.reset.soc.periph.keyboard.withinDepth

/-! ## Reset (70_reset_and_hazards.md) -/

/-- R29: what the table of reset values gives. (Bus lines, traffic counters, RAM bytes, NAND and controller registers are
the spec's decisions D2 (log 23), D7 (log 24), D9 (log 13), D19 (log 27) and D24 (log 29). Left out: the peripherals, whose
values are the model's, log 2; the FTL's row, which `MountOfFreshChip` states; and CAP, which is open.) -/
def Obligations.ResetValues : Prop :=
  let s := State.reset
  (∀ i, s.cpu.reg i = 0) ∧ s.cpu.pc = 0 ∧ s.cpu.flags = ⟨false, false, false, false⟩ ∧ s.cpu.halted = false ∧
  s.cpu.stage = .fetch ∧ s.cpu.uop = 0 ∧ s.cpu.instr = decode 0 ∧ s.cpu.opA = 0 ∧ s.cpu.opB = 0 ∧
  s.cpu.aluResult = 0 ∧ s.cpu.memData = 0 ∧
  s.soc.bus = ⟨0, 0, false, false, false, false, false, false, 0, 0⟩ ∧
  (∀ a, s.soc.ram.bytes.read a = 0) ∧ s.soc.ram.busy = false ∧ s.soc.ram.pendingWait = 0 ∧
  (∀ b p, ∀ byte ∈ (s.soc.storage.nand.page b p).data ++ (s.soc.storage.nand.page b p).oob, byte = 0xFF) ∧
  (∀ b, s.soc.storage.nand.eraseCount b = 0) ∧ (∀ m ∈ s.soc.storage.nand.blocks, m.bad = false) ∧
  s.soc.ctrl = ⟨0, 0, 0, 0, 0, 0, 0, 0, 0, 0, 0, 0, 0, ⟨false, 0, 0, 0, 0⟩, 0⟩ ∧
  s.soc.ctrl.register s.soc.cfg.cap 0x08 = 0x00010000

/-- R390, R392, R10: CPU Reset from any state leaves every register 0, `pc` at the entry, the flags, Halted and the
latches clear, and Fetch micro-op 0 next; it touches nothing outside the CPU (that it leaves the bus as it was is the
spec's decision D2, logs 23 and 30). -/
def Obligations.CpuResetLeaves : Prop :=
  ∀ (entry : Word) (s : State),
    let t := cpuReset entry s
    (∀ i, t.cpu.reg i = 0) ∧ t.cpu.pc = entry ∧ t.cpu.flags = ⟨false, false, false, false⟩ ∧
    t.cpu.halted = false ∧ t.cpu.stage = .fetch ∧ t.cpu.uop = 0 ∧ t.cpu.instr = decode 0 ∧
    t.cpu.opA = 0 ∧ t.cpu.opB = 0 ∧ t.cpu.aluResult = 0 ∧ t.cpu.memData = 0 ∧
    t.soc = s.soc ∧ t.atInstructionStart = true

/-- R396: the loader puts byte i of the image at the load address + i and changes no other byte, or, where the image does
not lie in RAM, does nothing and fails (the spec's decision D37). That the traffic counters stay is the model's choice (log
34). -/
def Obligations.LoaderWritesImage : Prop :=
  ∀ (s : State) (addr : Word) (image : List Byte) (e : DeviceEntry), ramEntry s.soc.cfg = some e →
    Memory.wf s.soc.ram.bytes →
    let off := addr.toNat - e.base.toNat
    (e.base.toNat ≤ addr.toNat ∧ addr.toNat + image.length ≤ e.base.toNat + e.size →
      ∃ t : State, loadImage addr image s = some t ∧ t.cpu = s.cpu ∧
        (∀ a, t.soc.ram.bytes.read a =
          if off ≤ a ∧ a < off + image.length then image.getD (a - off) 0 else s.soc.ram.bytes.read a) ∧
        t.soc = { s.soc with ram := { s.soc.ram with bytes := t.soc.ram.bytes } }) ∧
    (¬ (e.base.toNat ≤ addr.toNat ∧ addr.toNat + image.length ≤ e.base.toNat + e.size) →
      loadImage addr image s = none)

/-! ## The bus and RAM (20_memory.md) -/

/-- R52, R53: a request that no device claims sets Error and Wait, calls no handler and changes nothing else; no bus tick
clears Error (the spec's decision D3). -/
def Obligations.BusDecodeFailure : Prop :=
  (∀ p : Soc, p.bus.read ≠ p.bus.write → p.target p.bus.address = none →
    p.busTick = .next { p with bus := { p.bus with error := true, wait := true } }) ∧
  (∀ p q : Soc, p.busTick = .next q → p.bus.error = true → q.bus.error = true)

/-- R56, R57, R19: a bypass access changes no line and no signal of the bus and no latency state of RAM and scratch RAM (the
spec's decision D8, log 24), counts as one handler call (D7, log 24), and answers false, changing nothing, for an address no device claims. -/
def Obligations.BypassAccess : Prop :=
  ∀ (p : Soc) (a v : Word),
    (p.bypassRead a).2.2.bus.signals = p.bus.signals ∧ (p.bypassWrite a v).2.bus.signals = p.bus.signals ∧
    (p.bypassRead a).2.2.ram.busy = p.ram.busy ∧ (p.bypassRead a).2.2.ram.pendingWait = p.ram.pendingWait ∧
    (p.bypassWrite a v).2.ram.busy = p.ram.busy ∧ (p.bypassWrite a v).2.ram.pendingWait = p.ram.pendingWait ∧
    (p.bypassRead a).2.2.scratch.busy = p.scratch.busy ∧
    (p.bypassRead a).2.2.scratch.pendingWait = p.scratch.pendingWait ∧
    (p.bypassWrite a v).2.scratch.busy = p.scratch.busy ∧
    (p.bypassWrite a v).2.scratch.pendingWait = p.scratch.pendingWait ∧
    ((p.bypassRead a).1 = true ↔ ∃ e, p.target a = some e) ∧
    ((p.bypassWrite a v).1 = true ↔ ∃ e, p.target a = some e) ∧
    (∀ e, p.target a = some e → (p.bypassRead a).2.2.bus.readCount = p.bus.readCount + 1 ∧
      (p.bypassWrite a v).2.bus.writeCount = p.bus.writeCount + 1) ∧
    (p.target a = none → p.bypassRead a = (false, 0, p) ∧ p.bypassWrite a v = (false, p))

/-- R61, R65: RAM transfers. A write puts byte i of the value at offset + i and leaves every other byte alone; a read gives
back what was written there; where the eight bytes do not all lie in RAM a read gives 0 and a write does nothing (D9). -/
def Obligations.RamTransfers : Prop :=
  ∀ (r : Ram) (size off : Nat) (v : Word), Memory.wf r.bytes →
    Memory.wf (r.transferWrite size off v).bytes ∧
    (off + 8 ≤ size →
      (r.transferWrite size off v).transferRead size off = v ∧
      (∀ a, (r.transferWrite size off v).bytes.read a =
        if off ≤ a ∧ a < off + 8 then v.extractLsb' (8 * (a - off)) 8 else r.bytes.read a) ∧
      (∀ other, other + 8 ≤ off ∨ off + 8 ≤ other →
        (r.transferWrite size off v).transferRead size other = r.transferRead size other)) ∧
    (size < off + 8 → r.transferRead size off = 0 ∧ r.transferWrite size off v = r)

/-! ## The NAND chip and the FTL (45_nand.md, 46_ftl.md) -/

/-- R217: the document's laws of the cell model. -/
def Obligations.NandLaws : Prop :=
  ∀ (n : Nand) (b p : Nat) (x y : List Byte), Nand.wf n → b < n.blockCount → p < 64 →
    x.length = 4096 → y.length = 4096 →
    (n.page b p = Page.erased →
      (n.program b p x none).1 = .success ∧
      ((n.program b p x none).2.read b p 4096 none).data = x ∧
      (((n.program b p x none).2.program b p y none).1 = .success ↔ List.zipWith (fun i j => i &&& j) x y = y) ∧
      (((n.program b p x none).2.program b p y none).1 = .success →
        (((n.program b p x none).2.program b p y none).2.read b p 4096 none).data =
          List.zipWith (fun i j => i &&& j) x y)) ∧
    ((∀ q < 64, ∀ byte ∈ ((n.erase b).2.page b q).data ++ ((n.erase b).2.page b q).oob, byte = 0xFF) ∧
      (n.erase b).2.eraseCount b = n.eraseCount b + 1)

/-- R216, R214: Program moves a bit from 1 to 0 or leaves it, in the page it names and no other, and nothing at all where
it fails; Erase moves every bit of a block to 1 and leaves the other blocks. -/
def Obligations.CellBits : Prop :=
  ∀ (n : Nand) (b p : Nat) (x : List Byte) (oob : Option (List Byte)), Nand.wf n →
    let m := (n.program b p x oob).2
    ((n.program b p x oob).1 ≠ .success → m = n) ∧
    (∀ c q k : Nat, q < 64 →
      (m.page c q).data.getD k 0 &&& (n.page c q).data.getD k 0 = (m.page c q).data.getD k 0 ∧
      (m.page c q).oob.getD k 0 &&& (n.page c q).oob.getD k 0 = (m.page c q).oob.getD k 0) ∧
    (∀ c q : Nat, q < 64 → p < 64 → ¬ (c = b ∧ q = p) → m.page c q = n.page c q) ∧
    (b < n.blockCount → ∀ c q : Nat, q < 64 →
      (n.erase b).2.page c q = if c = b then ⟨List.replicate 4096 0xFF, List.replicate 64 0xFF⟩ else n.page c q)

/-- R234, R235, R241: after a Write that succeeds, Read gives the value written; Read of an unmapped LBA gives 4096 bytes
of 0xFF. (A PBA has 32 bits, so a chip has at most 2^26 blocks.) -/
def Obligations.WriteThenRead : Prop :=
  ∀ (st st' : Storage) (lba : BitVec 32) (buf : List Byte),
    Nand.wf st.nand → Sparse.wf (none : Option (BitVec 32)) st.ftl.l2p → st.nand.blockCount ≤ 2 ^ 26 →
    (st.write lba buf = (.success, st') → st'.read lba = (.success, buf)) ∧
    (st.ftl.lookup lba = none → st.read lba = (.success, List.replicate 4096 0xFF))

/-- R241: on a fresh chip, for any sequence of Writes with distinct LBAs that fits in capacity, reading each LBA returns
the value written, and reading any other returns 4096 bytes of 0xFF. -/
def Obligations.DistinctWritesRoundTrip : Prop :=
  ∀ (n : Nat) (writes : List (BitVec 32 × List Byte)), n ≤ 2 ^ 26 → (∀ w ∈ writes, w.2.length = 4096) →
    (writes.map Prod.fst).Nodup → writes.length ≤ 64 * n →
    let st := writes.foldl (fun st w => (Storage.write st w.1 w.2).2) ⟨Nand.fresh n, Ftl.fresh n⟩
    (∀ w ∈ writes, st.read w.1 = (.success, w.2)) ∧
    (∀ lba, lba ∉ writes.map Prod.fst → st.read lba = (.success, List.replicate 4096 0xFF))

/-- R241, R233: persistence. After those Writes, a fresh FTL mounted over the same chip reads the same values back. -/
def Obligations.DistinctWritesPersist : Prop :=
  ∀ (n : Nat) (writes : List (BitVec 32 × List Byte)), n ≤ 2 ^ 26 → (∀ w ∈ writes, w.2.length = 4096) →
    (writes.map Prod.fst).Nodup → writes.length ≤ 64 * n →
    let nand := (writes.foldl (fun st w => (Storage.write st w.1 w.2).2) ⟨Nand.fresh n, Ftl.fresh n⟩).nand
    let st : Storage := ⟨nand, Ftl.mount nand⟩
    (∀ w ∈ writes, st.read w.1 = (.success, w.2)) ∧
    (∀ lba, lba ∉ writes.map Prod.fst → st.read lba = (.success, List.replicate 4096 0xFF))

/-- R233, R231: mounting a fresh chip maps nothing, leaves every block Free with block 0 on top of the free list, and no
cursor; that is the FTL at reset. -/
def Obligations.MountOfFreshChip : Prop :=
  (∀ n : Nat, Ftl.mount (Nand.fresh n) = ⟨[], List.replicate n ⟨.free, 0, 0⟩, List.range n, none⟩) ∧
  State.reset.soc.storage.ftl = Ftl.mount State.reset.soc.storage.nand

/-- R237, R238, R241: GC's victim is a candidate with the fewest valid pages, the lowest such block (the spec's decision
D22); a GC that succeeds has erased its victim once and no other block. -/
def Obligations.CollectionErasesVictim : Prop :=
  (∀ (f : Ftl) (v : Nat) (i : BlockInfo), f.victim = some (v, i) →
    f.info[v]? = some i ∧ f.victimCandidate v i = true ∧
    ∀ b j, f.info[b]? = some j → f.victimCandidate b j = true →
      popcount i.valid ≤ popcount j.valid ∧ (popcount j.valid = popcount i.valid → v ≤ b)) ∧
  (∀ st st' : Storage, st.garbageCollect = (true, st') → ∃ v i, st.ftl.victim = some (v, i) ∧
    ∀ b, st'.nand.eraseCount b = if b = v then st.nand.eraseCount b + 1 else st.nand.eraseCount b)

/-! ## The storage controller (47_storage_controller.md) -/

/-- R274: what a write to CC does: setting Enable sets Ready; clearing it clears Ready, `sq_head` and `cq_tail`; nothing
else changes (the last clause is the spec's decision D29). -/
def Obligations.ControllerEnable : Prop :=
  ∀ (p : Soc) (v : Word),
    let c := p.ctrl
    let cc := v.extractLsb' 0 32
    (c.cc.getLsbD 0 = false → v.getLsbD 0 = true →
      p.controllerWrite 0x14 v = { p with ctrl := { c with cc := cc, csts := c.csts ||| 1 } }) ∧
    (c.cc.getLsbD 0 = true → v.getLsbD 0 = false →
      p.controllerWrite 0x14 v =
        { p with ctrl := { c with cc := cc, csts := c.csts &&& ~~~1, sqHead := 0, cqTail := 0 } }) ∧
    (c.cc.getLsbD 0 = v.getLsbD 0 → p.controllerWrite 0x14 v = { p with ctrl := { c with cc := cc } })

/-- R275, R276, R277: a new tail in SQ0TDBL makes a ready controller with no command in flight latch the command of its
head slot, here in RAM, advance the head and load the busy counter; a controller that is not ready, or busy, stores the
tail and does nothing else (the spec's decision D25). -/
def Obligations.DoorbellFetchesCommand : Prop :=
  ∀ (p : Soc) (v : Word) (e : DeviceEntry),
    let tail := v.extractLsb' 0 32
    let slot := p.ctrl.asq + p.ctrl.sqHead.setWidth 64 * 64
    let off := slot.toNat - e.base.toNat
    let byte := fun k => p.ram.bytes.read (off + k)
    e.device = .ram → e.base.toNat + e.size ≤ 2 ^ 64 → off + 56 ≤ e.size →
    p.target slot = some e → p.target (slot + 24) = some e → p.target (slot + 40) = some e →
    p.target (slot + 48) = some e →
    (p.ctrl.csts.getLsbD 0 = true → p.ctrl.pending.valid = false → tail ≠ p.ctrl.sqHead →
      (p.controllerWrite 0x1000 v).ctrl = { p.ctrl with
        sqTail := tail
        sqHead := BitVec.ofNat 32 ((p.ctrl.sqHead.toNat + 1) % p.cfg.sqDepth)
        busyTicks := p.cfg.busyTicks
        pending :=
          { valid := true
            opcode := byte 0
            prp1 := join64 fun k => byte (24 + k)
            lba := byte 43 ++ byte 42 ++ byte 41 ++ byte 40
            nblocks := byte 51 ++ byte 50 ++ byte 49 ++ byte 48 } } ∧
      (p.controllerWrite 0x1000 v).ram = p.ram ∧ (p.controllerWrite 0x1000 v).storage = p.storage) ∧
    (p.ctrl.csts.getLsbD 0 = false ∨ p.ctrl.pending.valid = true →
      p.controllerWrite 0x1000 v = { p with ctrl := { p.ctrl with sqTail := tail } })

/-- R279, R280, R281: the tick that ends the busy time of a Write command, with its buffer and its completion entry in
RAM, reads the 4096 bytes, writes them through the FTL, posts the completion and empties the latch. The eight bytes posted
are the spec's decision D27, and the 512 bypass reads D28 (log 29). -/
def Obligations.WriteCommand : Prop :=
  ∀ (p : Soc) (e : DeviceEntry),
    let base := p.ctrl.pending.prp1
    let off := base.toNat - e.base.toNat
    let entry := p.ctrl.acq + p.ctrl.cqTail.setWidth 64 * 16 + 8
    let buffer := (List.range 4096).map fun k => p.ram.bytes.read (off + k)
    let done := p.storage.write p.ctrl.pending.lba buffer
    let sc : BitVec 15 := if done.1 = .success then 0 else p.cfg.scInternalError
    p.ctrl.pending.valid = true → p.ctrl.pending.opcode = 0x01 → p.ctrl.busyTicks ≤ 1 →
    e.device = .ram → e.base.toNat + e.size ≤ 2 ^ 64 → off + 4096 ≤ e.size →
    (∀ i < 512, p.target (base + BitVec.ofNat 64 (8 * i)) = some e) →
    p.target entry = some e → entry.toNat - e.base.toNat + 8 ≤ e.size →
    let q := p.controllerTick
    q.storage = done.2 ∧
    q.ram = { p.ram with
      bytes := p.ram.bytes.write64 (entry.toNat - e.base.toNat) (((sc.setWidth 32 <<< 17) ||| 1) ++ (0 : BitVec 32)) } ∧
    q.ctrl = { p.ctrl with
      busyTicks := 0
      cqTail := BitVec.ofNat 32 ((p.ctrl.cqTail.toNat + 1) % p.cfg.cqDepth)
      pending := { p.ctrl.pending with valid := false } }

/-- R279, R280, R282: the tick that ends the busy time of a Read command whose LBA the FTL can read, with its buffer and
its completion entry in RAM, puts the bytes read in the buffer, posts a completion with status 0 and changes no other
byte. The eight bytes posted are the spec's decision D27, and the 512 bypass writes D28 (log 29). -/
def Obligations.ReadCommand : Prop :=
  ∀ (p : Soc) (e : DeviceEntry) (data : List Byte),
    let base := p.ctrl.pending.prp1
    let off := base.toNat - e.base.toNat
    let entry := p.ctrl.acq + p.ctrl.cqTail.setWidth 64 * 16 + 8
    let post := entry.toNat - e.base.toNat
    p.ctrl.pending.valid = true → p.ctrl.pending.opcode = 0x02 → p.ctrl.busyTicks ≤ 1 →
    p.storage.read p.ctrl.pending.lba = (.success, data) → Memory.wf p.ram.bytes →
    e.device = .ram → e.base.toNat + e.size ≤ 2 ^ 64 → off + 4096 ≤ e.size →
    (∀ i < 512, p.target (base + BitVec.ofNat 64 (8 * i)) = some e) →
    p.target entry = some e → post + 8 ≤ e.size →
    let q := p.controllerTick
    q.storage = p.storage ∧
    (∀ a, q.ram.bytes.read a =
      if post ≤ a ∧ a < post + 8 then (if a = post + 4 then 1 else 0)
      else if off ≤ a ∧ a < off + 4096 then data.getD (a - off) 0
      else p.ram.bytes.read a) ∧
    q.ctrl = { p.ctrl with
      busyTicks := 0
      cqTail := BitVec.ofNat 32 ((p.ctrl.cqTail.toNat + 1) % p.cfg.cqDepth)
      pending := { p.ctrl.pending with valid := false } }

/-! ## Peripherals and the assembler (60_exceptions.md, 48_assembler.md) -/

/-- R359: the lowest pending line is the smallest i with bit i set in `IRQ_STATUS & IRQ_ENABLE`, and pending says whether
there is one. -/
def Obligations.InterruptPriority : Prop :=
  ∀ p : Pic,
    (∀ i : Fin 16, p.lowestPendingLine = some i ↔
      (p.status &&& p.enable).getLsbD i = true ∧ ∀ j < i, (p.status &&& p.enable).getLsbD j = false) ∧
    (p.pending = true ↔ ∃ i : Fin 16, (p.status &&& p.enable).getLsbD i = true)

/-- R337: a source text that assembles is, instruction by instruction, what its words decode to: the opcode of the resolved
AST, and Rd, Rn, Rm and the 11 immediate bits that R331's table gives for its operands. That the fields a form does not
populate are 0 is the spec's decision D17 (log 20). -/
def Obligations.AssembledProgramDecodes : Prop :=
  ∀ (source : List Char) (tokens : List Token) (ast : Ast) (instrs : List AsmInstr) (words : List InstrWord),
    lexSource source = .ok tokens → parseTokens tokens = .ok ast → resolveAst ast = .ok instrs →
    encodeInstrs instrs = .ok words →
    assemble source = .ok (words.flatMap bytesOfWord ++ ast.data) ∧ words.length = instrs.length ∧
    ∀ (k : Nat) (i : AsmInstr) (w : InstrWord), instrs[k]? = some i → words[k]? = some w →
      let fields := fun rd rn rm imm11 : Nat => (decode w).rd.val = rd ∧ (decode w).rn.val = rn ∧
        (decode w).rm.val = rm ∧ ((decode w).imm.setWidth 11).toNat = imm11
      (decode w).op = i.op ∧
      ((i.op ∈ [Op.nop, .halt] ∧ i.operands = [] ∧ fields 0 0 0 0) ∨
        (i.op ∈ [Op.add, .sub, .and, .or, .xor, .lsl, .lsr, .asr] ∧
          ((∃ d n m, i.operands = [.register d, .register n, .register m] ∧ fields d n m 0) ∨
            ∃ d n v, i.operands = [.register d, .register n, .immediate v] ∧ fields d n 0 v.toNat)) ∨
        (i.op = .cmp ∧
          ((∃ n m, i.operands = [.register n, .register m] ∧ fields 0 n m 0) ∨
            ∃ n v, i.operands = [.register n, .immediate v] ∧ fields 0 n 0 v.toNat)) ∨
        (i.op = .mov ∧
          ((∃ d v, i.operands = [.register d, .immediate v] ∧ fields d 0 0 v.toNat) ∨
            ∃ d m, i.operands = [.register d, .register m] ∧ fields d 0 m 0)) ∨
        (i.op ∈ [Op.ldr, .str] ∧ ∃ d n offset preIndexed writeBack,
          i.operands = [.register d, .memory n offset preIndexed writeBack] ∧ -1024 ≤ offset ∧ offset ≤ 1023 ∧
          fields d n 0 (offset % 2048).toNat) ∨
        (i.op ∈ [Op.b, .beq, .bne] ∧ ∃ v, i.operands = [.immediate v] ∧ -1024 ≤ v.toInt ∧ v.toInt ≤ 1023 ∧
          fields 0 0 0 (v.toInt % 2048).toNat))

/-- R326, R194: the resolver turns a branch's label into the offset from the branch itself, an error outside
[-1024, +1023], so that k instructions ahead or behind resolve exactly for k in -256..255; and the CPU's sign extension of
the packed offset leads from the branch to the label. -/
def Obligations.BranchOffsets : Prop :=
  ∀ (table : SymbolTable) (op : Op) (index line target : Nat) (name : Name),
    op ∈ [Op.b, .beq, .bne] → table.address name = some (4 * target) →
    let offset : Int := 4 * (target : Int) - 4 * (index : Int)
    (-256 ≤ (target : Int) - index ∧ (target : Int) - index ≤ 255 →
      resolveOperand table op index line (.label name) = .ok (.immediate (BitVec.ofInt 64 offset)) ∧
      ∀ pc : Word, pc = BitVec.ofNat 64 (4 * index) →
        pc + (BitVec.ofInt 11 offset).signExtend 64 = BitVec.ofNat 64 (4 * target)) ∧
    (¬ (-256 ≤ (target : Int) - index ∧ (target : Int) - index ≤ 255) →
      ∃ description, resolveOperand table op index line (.label name) = .error ⟨.resolver, line, description⟩)

/-- R332: the immediate range checks and the packing; the CPU undoes the packing of a branch offset and reads an offset
-k of a load or store as 2048 - k. That an error carries the offending value is the rule's; the wording around it, and that
the value is printed signed, are the model's choice (log 20). -/
def Obligations.ImmediateRanges : Prop :=
  ∀ (i : AsmInstr) (v : Word) (offset : Int),
    (v.toNat ≤ 2047 → ∃ f, u11Field i v = .ok f ∧ f.setWidth 64 = v) ∧
    (2047 < v.toNat → u11Field i v =
      .error ⟨.encoder, i.line, "immediate out of range: " ++ toString v.toInt⟩) ∧
    (-1024 ≤ offset ∧ offset ≤ 1023 → ∃ f, s11Field i offset = .ok f ∧ (f.toNat : Int) = offset % 2048 ∧
      Shape.branch.immediate64 f = BitVec.ofInt 64 offset ∧
      (offset < 0 → Shape.immediate.immediate64 f = BitVec.ofInt 64 (2048 + offset)) ∧
      (0 ≤ offset → Shape.immediate.immediate64 f = BitVec.ofInt 64 offset)) ∧
    (offset < -1024 ∨ 1023 < offset → s11Field i offset =
      .error ⟨.encoder, i.line, "offset out of range: " ++ toString offset⟩)
end

