-- ==== Sys2Proof/Laws/Memory.lean ====
section
/-! SUPPORT. The laws of sparse data, of bytes of memory and of 64-bit accesses: a read after a write, what a write leaves
alone, and the canonical form that every write keeps. -/

namespace Sys2Proof.Machine

/-! ## Sparse data -/

section

variable {β : Type} {fill : β}

/-- A key below every listed key holds `fill`. -/
theorem Sparse.read_of_lt {m : Sparse β} {a : Nat} (h : ∀ e ∈ m, a < e.1) : Sparse.read fill m a = fill := by
  induction m with
  | nil => rfl
  | cons e rest ih =>
    have h1 : a < e.1 := h e (by simp)
    have hne : ¬ e.1 = a := by omega
    simp only [Sparse.read, hne, if_false]
    exact ih fun x hx => h x (by simp [hx])

variable [DecidableEq β]

/-- The entries of a map after a write: the new one, or an old one. -/
theorem Sparse.mem_write {m : Sparse β} {a : Nat} {v : β} {e : Nat × β} (h : e ∈ Sparse.write fill m a v) :
    (e = (a, v) ∧ v ≠ fill) ∨ e ∈ m := by
  induction m with
  | nil =>
    unfold Sparse.write at h
    split at h
    · cases h
    · exact .inl ⟨by simpa using h, ‹_›⟩
  | cons x rest ih =>
    unfold Sparse.write at h
    split at h
    · rcases List.mem_cons.mp h with h | h
      · exact .inr (by simp [h])
      · rcases ih h with h | h
        · exact .inl h
        · exact .inr (by simp [h])
    · split at h
      · split at h
        · exact .inr (by simp [h])
        · rcases List.mem_cons.mp h with h | h
          · exact .inl ⟨h, ‹_›⟩
          · exact .inr (by simp [h])
      · split at h
        · exact .inr h
        · rcases List.mem_cons.mp h with h | h
          · exact .inl ⟨h, ‹_›⟩
          · exact .inr h

/-- Every write keeps the canonical form. -/
theorem Sparse.wf_write {m : Sparse β} (h : Sparse.wf fill m) (a : Nat) (v : β) :
    Sparse.wf fill (Sparse.write fill m a v) := by
  refine ⟨?_, fun e he => ?_⟩
  · have hs := h.1
    clear h
    induction m with
    | nil => unfold Sparse.write; split <;> simp
    | cons x rest ih =>
      obtain ⟨hx, hrest⟩ := List.pairwise_cons.mp hs
      unfold Sparse.write
      split
      · refine List.pairwise_cons.mpr ⟨fun e he => ?_, ih hrest⟩
        rcases Sparse.mem_write he with ⟨rfl, -⟩ | he
        · assumption
        · exact hx e he
      · split
        · split
          · exact hrest
          · refine List.pairwise_cons.mpr ⟨fun e he => ?_, hrest⟩
            have := hx e he
            simp only at *
            omega
        · split
          · exact hs
          · refine List.pairwise_cons.mpr ⟨fun e he => ?_, hs⟩
            rcases List.mem_cons.mp he with rfl | he
            · simp only at *; omega
            · have := hx e he
              simp only at *; omega
  · rcases Sparse.mem_write he with ⟨rfl, hv⟩ | he
    · exact hv
    · exact h.2 e he

/-- A read after a write: the value written at its key, the old value at any other. -/
theorem Sparse.read_write {m : Sparse β} (h : Sparse.wf fill m) (a b : Nat) (v : β) :
    Sparse.read fill (Sparse.write fill m a v) b = if b = a then v else Sparse.read fill m b := by
  have hs := h.1
  clear h
  induction m with
  | nil => unfold Sparse.write; split <;> simp_all [Sparse.read, eq_comm]
  | cons x rest ih =>
    obtain ⟨hx, hrest⟩ := List.pairwise_cons.mp hs
    have gone : ∀ {c : Nat}, c ≤ x.1 → Sparse.read fill rest c = fill := fun {c} hc =>
      Sparse.read_of_lt fun e he => lt_of_le_of_lt hc (hx e he)
    unfold Sparse.write
    split
    · simp only [Sparse.read, ih hrest]
      split_ifs <;> first | rfl | omega
    · split
      · split
        · subst_vars
          simp only [Sparse.read]
          split_ifs <;> first | (subst_vars; exact gone le_rfl) | omega | rfl
        · subst_vars
          simp only [Sparse.read]
          split_ifs <;> first | rfl | omega
      · split
        · split_ifs with h1
          · subst_vars
            simp only [Sparse.read]
            rw [if_neg (by omega), gone (by omega)]
          · rfl
        · simp only [Sparse.read]
          split_ifs <;> first | rfl | omega

end

/-! ## Bytes of memory -/

theorem Memory.read_write {m : Memory} (h : Memory.wf m) (a b : Nat) (v : Byte) :
    (m.write a v).read b = if b = a then v else m.read b :=
  Sparse.read_write h a b v

theorem Memory.wf_write {m : Memory} (h : Memory.wf m) (a : Nat) (v : Byte) : Memory.wf (m.write a v) :=
  Sparse.wf_write h a v

theorem Memory.wf_writeBytes {m : Memory} (h : Memory.wf m) (a : Nat) (bytes : List Byte) :
    Memory.wf (m.writeBytes a bytes) := by
  induction bytes generalizing m a with
  | nil => exact h
  | cons b rest ih => exact ih (Memory.wf_write h a b) (a + 1)

theorem Memory.wf_write64 {m : Memory} (h : Memory.wf m) (a : Nat) (v : Word) : Memory.wf (m.write64 a v) :=
  Memory.wf_writeBytes h a _

/-- What a run of bytes written at `a` leaves: the bytes in `[a, a + length)`, the old ones elsewhere. -/
theorem Memory.read_writeBytes {m : Memory} (h : Memory.wf m) (a b : Nat) (bytes : List Byte) :
    (m.writeBytes a bytes).read b =
      if a ≤ b ∧ b < a + bytes.length then bytes.getD (b - a) 0 else m.read b := by
  induction bytes generalizing m a with
  | nil => rw [if_neg (by simp)]; rfl
  | cons c rest ih =>
    rw [Memory.writeBytes, ih (Memory.wf_write h a c), Memory.read_write h]
    rcases Nat.lt_trichotomy b a with hb | hb | hb
    · rw [if_neg (by omega), if_neg (by omega), if_neg (by omega)]
    · subst hb
      rw [if_neg (by omega), if_pos rfl, if_pos (by simp)]
      simp
    · have hba : b - a = (b - (a + 1)) + 1 := by omega
      by_cases hr : b < a + 1 + rest.length
      · rw [if_pos (by omega), if_pos (by simp only [List.length_cons]; omega), hba, List.getD_cons_succ]
      · rw [if_neg (by omega), if_neg (by omega), if_neg (by simp only [List.length_cons]; omega)]

@[simp] theorem bytesOf64_length (v : Word) : (bytesOf64 v).length = 8 := by
  simp [bytesOf64]

theorem bytesOf64_getD (v : Word) {i : Nat} (h : i < 8) : (bytesOf64 v).getD i 0 = byteOf v i := by
  simp [bytesOf64, List.getD, h]

/-- A value is the join of its bytes. -/
theorem join64_byteOf (v : Word) : join64 (byteOf v) = v := by
  apply BitVec.eq_of_getLsbD_eq
  intro i hi
  simp only [join64, byteOf, BitVec.getLsbD_append, BitVec.getLsbD_extractLsb']
  split_ifs
  all_goals
    rw [decide_eq_true (by omega), Bool.true_and]
    congr 1
    omega

/-- The join of eight bytes depends on those bytes only. -/
theorem join64_congr {f g : Nat → Byte} (h : ∀ i < 8, f i = g i) : join64 f = join64 g := by
  simp [join64, h]

/-- A byte after a 64-bit write (R61): one of the value's eight at `[a, a + 8)`, the old one elsewhere. -/
theorem Memory.read_write64 {m : Memory} (h : Memory.wf m) (a b : Nat) (v : Word) :
    (m.write64 a v).read b = if a ≤ b ∧ b < a + 8 then byteOf v (b - a) else m.read b := by
  rw [Memory.write64, Memory.read_writeBytes h, bytesOf64_length]
  split
  · rw [bytesOf64_getD v (by omega)]
  · rfl

/-- A 64-bit read after a 64-bit write at the same offset gives the value written. -/
theorem Memory.read64_write64_same {m : Memory} (h : Memory.wf m) (a : Nat) (v : Word) :
    (m.write64 a v).read64 a = v := by
  rw [Memory.read64, ← join64_byteOf v]
  refine join64_congr fun i hi => ?_
  rw [join64_byteOf, Memory.read_write64 h, if_pos (by omega), Nat.add_sub_cancel_left]

/-- A 64-bit write leaves a 64-bit read of disjoint bytes alone. -/
theorem Memory.read64_write64_disjoint {m : Memory} (h : Memory.wf m) {a b : Nat} (v : Word)
    (hd : b + 8 ≤ a ∨ a + 8 ≤ b) : (m.write64 a v).read64 b = m.read64 b := by
  refine join64_congr fun i hi => ?_
  rw [Memory.read_write64 h, if_neg (by omega)]

/-! ## The RAM device -/

theorem Ram.wf_transferWrite {r : Ram} (h : Memory.wf r.bytes) (size off : Nat) (v : Word) :
    Memory.wf (r.transferWrite size off v).bytes := by
  unfold Ram.transferWrite
  split
  · exact Memory.wf_write64 h off v
  · exact h

@[simp] theorem Ram.transferWrite_busy (r : Ram) (size off : Nat) (v : Word) :
    (r.transferWrite size off v).busy = r.busy := by
  unfold Ram.transferWrite; split <;> rfl

@[simp] theorem Ram.transferWrite_pendingWait (r : Ram) (size off : Nat) (v : Word) :
    (r.transferWrite size off v).pendingWait = r.pendingWait := by
  unfold Ram.transferWrite; split <;> rfl

@[simp] theorem Ram.settled_bytes (r : Ram) (latency : Nat) : (r.settled latency).bytes = r.bytes := by
  unfold Ram.settled; split <;> rfl

@[simp] theorem Ram.settled_pendingWait (r : Ram) (latency : Nat) : (r.settled latency).pendingWait = r.pendingWait := by
  unfold Ram.settled; split <;> rfl

@[simp] theorem Ram.tick_bytes (r : Ram) : r.tick.bytes = r.bytes := by
  unfold Ram.tick; split <;> rfl

@[simp] theorem Ram.tick_busy (r : Ram) : r.tick.busy = r.busy := by
  unfold Ram.tick; split <;> rfl

/-- A RAM that is not busy does not change at its tick (R62). -/
theorem Ram.tick_of_idle {r : Ram} (h : r.busy = false) : r.tick = r := by
  simp [Ram.tick, h]

/-- A waiting RAM has the bytes it had. -/
theorem Ram.waiting_bytes {r r' : Ram} {latency : Nat} (h : r.waiting latency = some r') : r'.bytes = r.bytes := by
  unfold Ram.waiting at h
  split at h
  · cases h
  · split at h
    · cases h; rfl
    · split at h
      · cases h; rfl
      · cases h

/-- A RAM without latency serves at once (R62). -/
theorem Ram.waiting_zero (r : Ram) : r.waiting 0 = none := rfl

end Sys2Proof.Machine
end

