-- ==== Sys2Proof/Laws/Storage.lean ====
section
/-! SUPPORT. What the operations of the NAND chip and the FTL can do: the status they answer, the pages they leave alone,
and the canonical forms they keep. -/

namespace Sys2Proof.Machine

/-! ## The NAND chip -/

theorem Page.erased_sized : Page.erased.sized := by
  simp [Page.sized, Page.erased]

/-- Every page of a well-formed chip has its size. -/
theorem Nand.page_sized {n : Nand} (h : Nand.wf n) (b p : Nat) : (n.page b p).sized := by
  have : ∀ (m : Sparse Page), (∀ e ∈ m, e.2.sized) → ∀ a, (Sparse.read Page.erased m a).sized := by
    intro m hm a
    induction m with
    | nil => exact Page.erased_sized
    | cons e rest ih =>
      unfold Sparse.read
      split
      · exact hm e (by simp)
      · exact ih fun x hx => hm x (by simp [hx])
  exact this n.pages h.2 _

theorem programBytes_length (a b : List Byte) : (programBytes a b).length = min a.length b.length := by
  simp [programBytes]

/-- The pages of a chip after one page was written. -/
theorem Nand.wf_write {n : Nand} (h : Nand.wf n) (a : Nat) {g : Page} (hg : g.sized) (blocks : List NandBlock) :
    Nand.wf ⟨Sparse.write Page.erased n.pages a g, blocks⟩ := by
  refine ⟨Sparse.wf_write h.1 a g, fun e he => ?_⟩
  rcases Sparse.mem_write he with ⟨rfl, -⟩ | he
  · exact hg
  · exact h.2 e he

/-- What Program can answer (R214): `InvalidAddress` or `WriteError` with nothing changed, or `Success` with the page's
new contents. -/
theorem Nand.program_cases (n : Nand) (b p : Nat) (dataIn : List Byte) (oobIn : Option (List Byte)) :
    ((n.program b p dataIn oobIn).1 ≠ .success ∧ (n.program b p dataIn oobIn).2 = n) ∨
    (∃ g : Page, n.program b p dataIn oobIn =
        (.success, { n with pages := Sparse.write Page.erased n.pages (pageNumber b p) g }) ∧
      b < n.blockCount ∧ p < Config.pagesPerBlock ∧ dataIn.length = Config.pageSize ∧
      programmable (n.page b p).data dataIn = true ∧ g.data = programBytes (n.page b p).data dataIn ∧
      match oobIn with
      | none => g.oob = (n.page b p).oob
      | some oob => oob.length = Config.oobSize ∧ programmable (n.page b p).oob oob = true ∧
          g.oob = programBytes (n.page b p).oob oob) := by
  unfold Nand.program
  dsimp only
  split
  · exact .inl ⟨by simp, rfl⟩
  · split
    · exact .inl ⟨by simp, rfl⟩
    · rename_i hr hl
      simp only [not_or, not_le, ne_eq, not_not] at hr hl
      cases oobIn with
      | none =>
        dsimp only
        split
        · exact .inr ⟨_, rfl, hr.1, hr.2, hl, ‹_›, rfl, rfl⟩
        · exact .inl ⟨by simp, rfl⟩
      | some oob =>
        dsimp only
        split
        · exact .inl ⟨by simp, rfl⟩
        · rename_i ho
          split
          · rename_i hp
            simp only [Bool.and_eq_true] at hp
            simp only [ne_eq, not_not] at ho
            exact .inr ⟨_, rfl, hr.1, hr.2, hl, hp.1, rfl, ho, hp.2, rfl⟩
          · exact .inl ⟨by simp, rfl⟩

theorem Nand.program_blocks (n : Nand) (b p : Nat) (dataIn : List Byte) (oobIn : Option (List Byte)) :
    (n.program b p dataIn oobIn).2.blocks = n.blocks := by
  rcases n.program_cases b p dataIn oobIn with ⟨-, h⟩ | ⟨g, h, -⟩ <;> rw [h]

/-- Program keeps the chip well formed. -/
theorem Nand.wf_program {n : Nand} (h : Nand.wf n) (b p : Nat) (dataIn : List Byte) (oobIn : Option (List Byte)) :
    Nand.wf (n.program b p dataIn oobIn).2 := by
  rcases n.program_cases b p dataIn oobIn with ⟨-, hn⟩ | ⟨g, hn, -, -, hl, -, hd, ho⟩
  · rw [hn]; exact h
  · rw [hn]
    have hs := Nand.page_sized h b p
    refine Nand.wf_write h _ ⟨?_, ?_⟩ _
    · rw [hd, programBytes_length, hs.1, hl, min_self]
    · cases oobIn with
      | none => rw [ho]; exact hs.2
      | some oob => rw [ho.2.2, programBytes_length, hs.2, ho.1, min_self]

/-- Erase keeps the chip well formed. -/
theorem Nand.wf_erase {n : Nand} (h : Nand.wf n) (b : Nat) : Nand.wf (n.erase b).2 := by
  unfold Nand.erase
  split
  · exact h
  · exact ⟨⟨h.1.1.filter _, fun e he => h.1.2 e (List.mem_of_mem_filter he)⟩,
      fun e he => h.2 e (List.mem_of_mem_filter he)⟩

theorem Nand.erase_blockCount (n : Nand) (b : Nat) : (n.erase b).2.blockCount = n.blockCount := by
  unfold Nand.erase Nand.blockCount
  split
  · rfl
  · simp

/-- Program keeps the number of blocks. -/
theorem Nand.program_blockCount (n : Nand) (b p : Nat) (dataIn : List Byte) (oobIn : Option (List Byte)) :
    (n.program b p dataIn oobIn).2.blockCount = n.blockCount := by
  simp [Nand.blockCount, Nand.program_blocks]

/-- A Program without OOB data that succeeds (R214). -/
theorem Nand.program_success {n : Nand} {b p : Nat} {x : List Byte} (hb : b < n.blockCount) (hp : p < 64)
    (hx : x.length = 4096) (h : programmable (n.page b p).data x = true) :
    n.program b p x none = (.success, ⟨Sparse.write Page.erased n.pages (pageNumber b p)
      ⟨programBytes (n.page b p).data x, (n.page b p).oob⟩, n.blocks⟩) := by
  have hg : ¬ (n.blockCount ≤ b ∨ Config.pagesPerBlock ≤ p) := by simp only [Config.pagesPerBlock]; omega
  simp only [Nand.program, if_neg hg, hx, Config.pageSize, ne_eq, not_true_eq_false, if_false, h, if_true]

/-- The page after a Program without OOB data that succeeds. -/
theorem Nand.page_program_success {n : Nand} (hn : Nand.wf n) {b p : Nat} {x : List Byte} (hb : b < n.blockCount)
    (hp : p < 64) (hx : x.length = 4096) (h : programmable (n.page b p).data x = true) :
    (n.program b p x none).2.page b p = ⟨programBytes (n.page b p).data x, (n.page b p).oob⟩ := by
  rw [Nand.program_success hb hp hx h]
  exact (Sparse.read_write hn.1 _ _ _).trans (if_pos rfl)

/-- A read through a filter that keeps the key read. -/
theorem Sparse.read_filter {β : Type} {fill : β} (m : Sparse β) (keep : Nat × β → Bool) (a : Nat)
    (h : ∀ v, keep (a, v) = true) : Sparse.read fill (m.filter keep) a = Sparse.read fill m a := by
  induction m with
  | nil => rfl
  | cons e rest ih =>
    rw [List.filter_cons]
    split
    · simp [Sparse.read, ih]
    · rename_i hk
      obtain ⟨k, v⟩ := e
      have hne : ¬ k = a := fun he => hk (he ▸ h v)
      rw [ih, Sparse.read, if_neg hne]

/-- A read through a filter that drops the key read. -/
theorem Sparse.read_filter_dropped {β : Type} {fill : β} (m : Sparse β) (keep : Nat × β → Bool) (a : Nat)
    (h : ∀ v, keep (a, v) = false) : Sparse.read fill (m.filter keep) a = fill := by
  induction m with
  | nil => rfl
  | cons e rest ih =>
    rw [List.filter_cons]
    split
    · rename_i hk
      unfold Sparse.read
      split
      · rename_i he
        have := h e.2
        rw [← he] at this
        simp [this] at hk
      · exact ih
    · exact ih

theorem pageNumber_div {b p : Nat} (h : p < 64) : pageNumber b p / Config.pagesPerBlock = b := by
  simp only [pageNumber, Config.pagesPerBlock]; omega

theorem pageNumber_mod {b p : Nat} (h : p < 64) : pageNumber b p % Config.pagesPerBlock = p := by
  simp only [pageNumber, Config.pagesPerBlock]; omega

/-- A page after an erase (R213): erased in that block, as before in any other. -/
theorem Nand.erase_page {n : Nand} {b : Nat} (hb : b < n.blockCount) (c : Nat) {p : Nat} (hp : p < 64) :
    (n.erase b).2.page c p = if c = b then Page.erased else n.page c p := by
  unfold Nand.erase
  rw [if_neg (by omega)]
  unfold Nand.page
  split
  · rename_i h
    exact Sparse.read_filter_dropped _ _ _ fun v => by simp [pageNumber_div hp, h]
  · rename_i h
    exact Sparse.read_filter _ _ _ fun v => by simp [pageNumber_div hp, h]

/-! ## The FTL's canonical form -/

/-- The chip is well formed and the FTL's map is in canonical form. -/
abbrev Storage.wf (st : Storage) : Prop :=
  Nand.wf st.nand ∧ Sparse.wf (none : Option (BitVec 32)) st.ftl.l2p

@[simp] theorem Ftl.updateInfo_l2p (f : Ftl) (b : Nat) (g : BlockInfo → BlockInfo) : (f.updateInfo b g).l2p = f.l2p := rfl
@[simp] theorem Ftl.setState_l2p (f : Ftl) (b : Nat) (st : BlockState) : (f.setState b st).l2p = f.l2p := rfl
@[simp] theorem Ftl.setValid_l2p (f : Ftl) (b p : Nat) : (f.setValid b p).l2p = f.l2p := rfl
@[simp] theorem Ftl.clearValid_l2p (f : Ftl) (b p : Nat) : (f.clearValid b p).l2p = f.l2p := rfl
@[simp] theorem Ftl.map_l2p (f : Ftl) (lba pba : BitVec 32) :
    (f.map lba pba).l2p = Sparse.write none f.l2p lba.toNat (some pba) := rfl

@[simp] theorem Ftl.invalidate_l2p (f : Ftl) (lba : BitVec 32) : (f.invalidate lba).l2p = f.l2p := by
  unfold Ftl.invalidate; split <;> rfl

@[simp] theorem Ftl.invalidate_active (f : Ftl) (lba : BitVec 32) : (f.invalidate lba).active = f.active := by
  unfold Ftl.invalidate; split <;> rfl

@[simp] theorem Ftl.invalidate_freeList (f : Ftl) (lba : BitVec 32) : (f.invalidate lba).freeList = f.freeList := by
  unfold Ftl.invalidate; split <;> rfl

theorem Ftl.openFreeBlock_l2p {f g : Ftl} {c : Cursor} (h : f.openFreeBlock = some (c, g)) : g.l2p = f.l2p := by
  unfold Ftl.openFreeBlock at h
  split at h
  · cases h
  · cases h; rfl

/-- Steps 4 and 5 of Write keep the storage stack's canonical form. -/
theorem Storage.wf_programAt {st : Storage} (h : st.wf) (c : Cursor) (lba : BitVec 32) (buf : List Byte) :
    (st.programAt c lba buf).2.wf := by
  have hn := Nand.wf_program h.1 c.block c.next buf (some (oobRecord lba))
  unfold Storage.programAt
  split
  · rename_i nand hp
    rw [hp] at hn
    refine ⟨hn, ?_⟩
    dsimp only
    split <;> exact Sparse.wf_write h.2 _ _
  · rename_i hp
    rw [hp] at hn
    exact ⟨hn, h.2⟩

theorem Storage.wf_writeSurvivor {st : Storage} (h : st.wf) (lba : BitVec 32) (buf : List Byte) :
    (st.writeSurvivor lba buf).2.wf := by
  unfold Storage.writeSurvivor
  dsimp only
  split
  · exact Storage.wf_programAt (st := { st with ftl := st.ftl.invalidate lba }) ⟨h.1, by simpa using h.2⟩ _ _ _
  · split
    · rename_i c f hf
      exact Storage.wf_programAt (st := { st with ftl := f })
        ⟨h.1, by rw [Ftl.openFreeBlock_l2p hf]; simpa using h.2⟩ _ _ _
    · exact ⟨h.1, by simpa using h.2⟩

theorem Storage.wf_writeSurvivors {st : Storage} (h : st.wf) (live : List (BitVec 32 × List Byte)) :
    (st.writeSurvivors live).2.wf := by
  induction live generalizing st with
  | nil => exact h
  | cons e rest ih =>
    obtain ⟨lba, data⟩ := e
    have hw := Storage.wf_writeSurvivor h lba data
    unfold Storage.writeSurvivors
    split
    · rename_i hs; rw [hs] at hw; exact ih hw
    · rename_i hs; rw [hs] at hw; exact hw

theorem Storage.wf_garbageCollect {st : Storage} (h : st.wf) : st.garbageCollect.2.wf := by
  unfold Storage.garbageCollect
  split
  · exact h
  · rename_i victim _ _
    split
    · exact h
    · have hn := Nand.wf_erase h.1 victim
      split
      · rename_i he
        rw [he] at hn
        exact Storage.wf_writeSurvivors (st := ⟨_, st.ftl.freeVictim victim⟩) ⟨hn, h.2⟩ _
      · rename_i he
        rw [he] at hn
        exact ⟨hn, h.2⟩

theorem Storage.wf_allocate {st : Storage} (h : st.wf) : st.allocate.2.wf := by
  unfold Storage.allocate
  split
  · rename_i hf; exact ⟨h.1, by rw [Ftl.openFreeBlock_l2p hf]; exact h.2⟩
  · have hg := Storage.wf_garbageCollect h
    split
    · rename_i he; rw [he] at hg; exact hg
    · rename_i he
      rw [he] at hg
      split
      · exact hg
      · split
        · rename_i hf; exact ⟨hg.1, by rw [Ftl.openFreeBlock_l2p hf]; exact hg.2⟩
        · exact hg

/-- Write keeps the storage stack's canonical form. -/
theorem Storage.wf_write {st : Storage} (h : st.wf) (lba : BitVec 32) (buf : List Byte) : (st.write lba buf).2.wf := by
  have hi : Storage.wf { st with ftl := st.ftl.invalidate lba } := ⟨h.1, by simpa using h.2⟩
  unfold Storage.write
  dsimp only
  split
  · exact Storage.wf_programAt hi _ _ _
  · have ha := Storage.wf_allocate hi
    split
    · rename_i he; rw [he] at ha; exact Storage.wf_programAt ha _ _ _
    · rename_i he; rw [he] at ha; exact ha

/-- What Write makes of a storage stack, any number of times: all that the controller's commands can do to it. -/
inductive Storage.Reaches (st : Storage) : Storage → Prop
  | refl : Storage.Reaches st st
  | write {mid : Storage} (h : Storage.Reaches st mid) (lba : BitVec 32) (buf : List Byte) :
      Storage.Reaches st (mid.write lba buf).2

theorem Storage.Reaches.trans {a b c : Storage} (h : a.Reaches b) (k : b.Reaches c) : a.Reaches c := by
  induction k with
  | refl => exact h
  | write _ lba buf ih => exact ih.write lba buf

/-- What every Write keeps, the storage stack keeps. -/
theorem Storage.Reaches.keeps {a b : Storage} (h : a.Reaches b) {P : Storage → Prop}
    (hP : ∀ st lba buf, P st → P (st.write lba buf).2) (ha : P a) : P b := by
  induction h with
  | refl => exact ha
  | write _ lba buf ih => exact hP _ lba buf ih

end Sys2Proof.Machine
end

