-- ==== Sys2Proof/Laws/Soc.lean ====
section
/-! SUPPORT. What the devices can do: one lemma per operation of Machine/Controller.lean and Machine/BusCycle.lean, saying
all it may change of what no device owns. -/

namespace Sys2Proof.Machine

/-! ## Small updates -/

@[simp] theorem freeRegister_value (p : Soc) : p.freeRegister.1 = Config.peripheralRegister p.freeCount := rfl
@[simp] theorem freeRegister_soc (p : Soc) : p.freeRegister.2 = { p with freeCount := p.freeCount + 1 } := rfl
@[simp] theorem freeRead_value (p : Soc) : p.freeRead.1 = Config.peripheralRead p.freeCount := rfl
@[simp] theorem freeRead_soc (p : Soc) : p.freeRead.2 = { p with freeCount := p.freeCount + 1 } := rfl

theorem peripheralRead_eq (p : Soc) (device : DeviceKind) (off : Nat) :
    p.peripheralRead device off = (Config.peripheralRead p.freeCount,
      { p with periph := p.periph.afterRead device off, freeCount := p.freeCount + 1 }) := rfl

theorem peripheralWrite_eq (p : Soc) (device : DeviceKind) (off : Nat) (v : Word) :
    p.peripheralWrite device off v =
      { p with
        periph := p.periph.afterWrite device off v (Config.peripheralRegister p.freeCount)
        freeCount := p.freeCount + 1 } := rfl

theorem peripheralTick_eq (p : Soc) (device : DeviceKind) :
    p.peripheralTick device =
      { p with
        periph := p.periph.afterTick device fun k => Config.peripheralRegister (p.freeCount + k)
        freeCount := p.freeCount + Peripherals.tickValues } := rfl

@[simp] theorem signals_read (b : Bus) : b.signals.read = b.read := rfl
@[simp] theorem signals_write (b : Bus) : b.signals.write = b.write := rfl
@[simp] theorem signals_wait (b : Bus) : b.signals.wait = b.wait := rfl
@[simp] theorem signals_address (b : Bus) : b.signals.address = b.address := rfl
@[simp] theorem signals_data (b : Bus) : b.signals.data = b.data := rfl
@[simp] theorem signals_error (b : Bus) : b.signals.error = b.error := rfl
@[simp] theorem signals_ready (b : Bus) : b.signals.ready = b.ready := rfl
@[simp] theorem signals_irq (b : Bus) : b.signals.irq = b.irq := rfl

/-! ## Peripherals -/

@[simp] theorem drive_enable (p : Pic) (line : Fin 16) (raised : Bool) : (p.drive line raised).enable = p.enable := by
  cases raised <;> rfl
@[simp] theorem drive_trigger (p : Pic) (line : Fin 16) (raised : Bool) : (p.drive line raised).trigger = p.trigger := by
  cases raised <;> rfl

/-- Driving a line changes the status bit of that line alone (R363). -/
theorem drive_status (p : Pic) (line : Fin 16) (raised : Bool) (i : Nat) :
    (p.drive line raised).status.getLsbD i = if i = line.val then raised else p.status.getLsbD i := by
  have hl := line.isLt
  cases raised <;> simp only [Pic.drive, Pic.raise, Pic.clear, setBit, clearBit, Bool.false_eq_true, if_false, if_true,
    BitVec.getLsbD_or, BitVec.getLsbD_and, BitVec.getLsbD_not, BitVec.getLsbD_shiftLeft, BitVec.getLsbD_one] <;>
  · by_cases h : i = line.val
    · subst h; simp
    · rw [if_neg h]
      by_cases hi : i < 16
      · have : i < line.val ∨ i - line.val ≠ 0 := by omega
        rcases this with h' | h' <;> simp [h', hi]
      · simp [BitVec.getLsbD_of_ge p.status i (by omega), hi]

/-- The lines that have a source are lines 0 to 3 (R357). -/
theorem irqLine_lt {device : DeviceKind} {line : Fin 16} (h : Peripherals.irqLine device = some line) :
    line.val < 4 := by
  cases device <;> simp_all [Peripherals.irqLine] <;> subst h <;> decide

/-- The peripheral registers that no tick changes (log 5). -/
structure Peripherals.Ticked (p q : Peripherals) : Prop where
  fifo : q.keyboard.fifo = p.keyboard.fifo
  dataX : q.mouse.dataX = p.mouse.dataX
  dataY : q.mouse.dataY = p.mouse.dataY
  irqEnable : q.pic.enable = p.pic.enable
  irqLines : ∀ i, 4 ≤ i → q.pic.status.getLsbD i = p.pic.status.getLsbD i
  compare : q.timer.compare = p.timer.compare

theorem Peripherals.Ticked.refl (p : Peripherals) : p.Ticked p := ⟨rfl, rfl, rfl, rfl, fun _ _ => rfl, rfl⟩

theorem Peripherals.Ticked.trans {p q r : Peripherals} (h : p.Ticked q) (k : q.Ticked r) : p.Ticked r :=
  ⟨k.fifo.trans h.fifo, k.dataX.trans h.dataX, k.dataY.trans h.dataY, k.irqEnable.trans h.irqEnable,
    fun i hi => (k.irqLines i hi).trans (h.irqLines i hi), k.compare.trans h.compare⟩

theorem Peripherals.ownTick_ticked (p : Peripherals) (device : DeviceKind) (free : Nat → Word) :
    p.Ticked (p.ownTick device free) := by
  cases device <;> exact ⟨rfl, rfl, rfl, rfl, fun _ _ => rfl, rfl⟩

theorem Peripherals.driveLine_ticked (p : Peripherals) (device : DeviceKind) (raised : Bool) :
    p.Ticked (p.driveLine device raised) := by
  unfold Peripherals.driveLine
  split
  · rename_i line h
    refine ⟨rfl, rfl, rfl, drive_enable _ _ _, fun i hi => ?_, rfl⟩
    have := irqLine_lt h
    exact (drive_status _ _ _ _).trans (if_neg (by omega))
  · exact .refl p

theorem Peripherals.afterTick_ticked (p : Peripherals) (device : DeviceKind) (free : Nat → Word) :
    p.Ticked (p.afterTick device free) :=
  (p.ownTick_ticked device free).trans (Peripherals.driveLine_ticked _ _ _)

/-- A read takes at most one entry from the keyboard's FIFO (R365). -/
theorem Peripherals.afterRead_fifo (p : Peripherals) (device : DeviceKind) (off : Nat) :
    (p.afterRead device off).keyboard.fifo.length ≤ p.keyboard.fifo.length := by
  unfold Peripherals.afterRead
  split
  · split
    · simp
    · exact le_rfl
  · split
    · exact le_rfl
    · split <;> exact le_rfl
  all_goals exact le_rfl

/-- No write touches the keyboard's FIFO. -/
theorem Peripherals.afterWrite_fifo (p : Peripherals) (device : DeviceKind) (off : Nat) (v free : Word) :
    (p.afterWrite device off v free).keyboard.fifo = p.keyboard.fifo := by
  cases device <;> try rfl
  simp only [Peripherals.afterWrite, Keyboard.afterWrite]
  split
  · rfl
  · split <;> rfl

/-- A key code goes to the end of a FIFO that has room, and never beyond its depth (R365). -/
theorem receive_withinDepth {k l : Keyboard} {key : Word} (h : k.receive key = some l) :
    l.withinDepth ∧ l = { k with fifo := k.fifo ++ [key] } := by
  unfold Keyboard.receive at h
  split at h
  · cases h
    exact ⟨by simp [Keyboard.withinDepth]; omega, rfl⟩
  · cases h

/-! ## Transfers: what a device operation outside `tick` keeps -/

/-- What every transfer, command fetch, DMA and command execution keeps: the configuration, every line and signal of the
bus (R56), the latency state of the RAMs, the canonical forms, and the controller's status rule (R274). The storage stack
changes by Writes alone, and the keyboard's FIFO does not grow (R365). -/
structure Soc.Transfers (p q : Soc) : Prop where
  cfg : q.cfg = p.cfg
  signals : q.bus.signals = p.bus.signals
  ramBusy : q.ram.busy = p.ram.busy
  ramPending : q.ram.pendingWait = p.ram.pendingWait
  scratchBusy : q.scratch.busy = p.scratch.busy
  scratchPending : q.scratch.pendingWait = p.scratch.pendingWait
  storage : p.storage.Reaches q.storage
  canonical : p.canonical → q.canonical
  status : p.ctrl.statusLegal → q.ctrl.statusLegal
  fifo : q.periph.keyboard.fifo.length ≤ p.periph.keyboard.fifo.length

theorem Soc.Transfers.refl (p : Soc) : p.Transfers p :=
  ⟨rfl, rfl, rfl, rfl, rfl, rfl, .refl, id, id, le_rfl⟩

theorem Soc.Transfers.trans {p q r : Soc} (h : p.Transfers q) (k : q.Transfers r) : p.Transfers r :=
  ⟨k.cfg.trans h.cfg, k.signals.trans h.signals, k.ramBusy.trans h.ramBusy, k.ramPending.trans h.ramPending,
    k.scratchBusy.trans h.scratchBusy, k.scratchPending.trans h.scratchPending, h.storage.trans k.storage,
    k.canonical ∘ h.canonical, k.status ∘ h.status, k.fifo.trans h.fifo⟩

theorem Soc.countRead_transfers (p : Soc) : p.Transfers p.countRead :=
  ⟨rfl, rfl, rfl, rfl, rfl, rfl, .refl, id, id, le_rfl⟩

theorem Soc.countWrite_transfers (p : Soc) : p.Transfers p.countWrite :=
  ⟨rfl, rfl, rfl, rfl, rfl, rfl, .refl, id, id, le_rfl⟩

/-- A change of the controller that keeps its status rule. -/
theorem Soc.withCtrl_transfers (p : Soc) (c : Ctrl) (h : p.ctrl.statusLegal → c.statusLegal) :
    p.Transfers { p with ctrl := c } :=
  ⟨rfl, rfl, rfl, rfl, rfl, rfl, .refl, id, h, le_rfl⟩

theorem Soc.transferRead_transfers (p : Soc) (e : DeviceEntry) (a : Word) : p.Transfers (p.transferRead e a).2 := by
  unfold Soc.transferRead
  split
  · exact .refl p
  · exact .refl p
  · exact .refl p
  all_goals exact ⟨rfl, rfl, rfl, rfl, rfl, rfl, .refl, id, id, Peripherals.afterRead_fifo _ _ _⟩

theorem Soc.bypassRead_transfers (p : Soc) (a : Word) : p.Transfers (p.bypassRead a).2.2 := by
  unfold Soc.bypassRead
  split
  · exact .refl p
  · exact p.countRead_transfers.trans (Soc.transferRead_transfers _ _ _)

theorem Soc.fetchCommand_transfers (p : Soc) : p.Transfers p.fetchCommand := by
  unfold Soc.fetchCommand
  dsimp only
  exact ((((p.bypassRead_transfers _).trans (Soc.bypassRead_transfers _ _)).trans
    (Soc.bypassRead_transfers _ _)).trans (Soc.bypassRead_transfers _ _)).trans
    (Soc.withCtrl_transfers _ _ id)

theorem Soc.ringSubmission_transfers (p : Soc) : p.Transfers p.ringSubmission := by
  unfold Soc.ringSubmission
  split
  · exact p.fetchCommand_transfers
  · exact .refl p

/-- Bit 0 of a word, as the word CSTS holds. -/
theorem and_one_eq (x : BitVec 32) : x &&& 1 = if checkBit x 0 then 1 else 0 := by
  have h := BitVec.and_one_eq_setWidth_ofBool_getLsbD (x := x)
  cases hx : x.getLsbD 0 <;> simp_all [checkBit]

/-- Writing CC keeps CSTS Ready equal to CC Enable (R274). -/
theorem Ctrl.writeCc_status {c : Ctrl} (h : c.statusLegal) (v : BitVec 32) : (c.writeCc v).statusLegal := by
  unfold Ctrl.statusLegal Ctrl.writeCc at *
  rw [and_one_eq] at h
  cases hc : checkBit c.cc 0 <;> cases hv : checkBit v 0 <;>
    simp only [hc, hv, h, and_one_eq v, Bool.not_true, Bool.not_false, Bool.and_true, Bool.and_false,
      Bool.false_eq_true, if_true, if_false] <;> rfl

theorem Ctrl.store_status {c : Ctrl} (h : c.statusLegal) (off : Nat) (v : BitVec 32) : (c.store off v).statusLegal := by
  unfold Ctrl.store
  repeat' split
  all_goals first | exact h | exact Ctrl.writeCc_status h v

theorem Soc.controllerWrite_transfers (p : Soc) (off : Nat) (v : Word) : p.Transfers (p.controllerWrite off v) := by
  have hs := Soc.withCtrl_transfers p _ fun h => Ctrl.store_status h off (v.extractLsb' 0 32)
  unfold Soc.controllerWrite
  dsimp only
  split
  · exact hs.trans (Soc.ringSubmission_transfers _)
  · exact hs

theorem Soc.transferWrite_transfers (p : Soc) (e : DeviceEntry) (a v : Word) : p.Transfers (p.transferWrite e a v) := by
  unfold Soc.transferWrite
  split
  · exact ⟨rfl, rfl, by simp, by simp, rfl, rfl, .refl, fun h => ⟨Ram.wf_transferWrite h.1 _ _ _, h.2⟩, id, le_rfl⟩
  · exact ⟨rfl, rfl, rfl, rfl, by simp, by simp, .refl, fun h => ⟨h.1, Ram.wf_transferWrite h.2.1 _ _ _, h.2.2⟩, id, le_rfl⟩
  · exact Soc.controllerWrite_transfers _ _ _
  all_goals exact ⟨rfl, rfl, rfl, rfl, rfl, rfl, .refl, id, id, (congrArg List.length (Peripherals.afterWrite_fifo _ _ _ _ _)).le⟩

theorem Soc.bypassWrite_transfers (p : Soc) (a v : Word) : p.Transfers (p.bypassWrite a v).2 := by
  unfold Soc.bypassWrite
  split
  · exact .refl p
  · exact p.countWrite_transfers.trans (Soc.transferWrite_transfers _ _ _ _)

theorem Soc.dmaRead_transfers (p : Soc) (base : Word) (words : List Nat) : p.Transfers (p.dmaRead base words).2 := by
  induction words generalizing p with
  | nil => exact .refl p
  | cons i rest ih =>
    have hb := p.bypassRead_transfers (base + BitVec.ofNat 64 (8 * i))
    unfold Soc.dmaRead
    split
    · rename_i he; rw [he] at hb; exact hb
    · rename_i q p' he
      rw [he] at hb
      have hr := hb.trans (ih p')
      split <;> (rename_i hd; rw [hd] at hr; exact hr)

theorem Soc.dmaWrite_transfers (p : Soc) (base : Word) (buffer : List Byte) (words : List Nat) :
    p.Transfers (p.dmaWrite base buffer words).2 := by
  induction words generalizing p with
  | nil => exact .refl p
  | cons i rest ih =>
    have hb := p.bypassWrite_transfers (base + BitVec.ofNat 64 (8 * i)) (wordAt buffer i)
    unfold Soc.dmaWrite
    split
    · rename_i he; rw [he] at hb; exact hb
    · rename_i p' he; rw [he] at hb; exact hb.trans (ih p')

theorem Soc.executeWrite_transfers (p : Soc) : p.Transfers p.executeWrite.2 := by
  have hd := p.dmaRead_transfers p.ctrl.pending.prp1 dmaWords
  unfold Soc.executeWrite
  dsimp only
  split
  · rename_i he; rw [he] at hd; exact hd
  · rename_i buffer q he
    rw [he] at hd
    have hw : q.canonical → Storage.wf (q.storage.write p.ctrl.pending.lba buffer).2 :=
      fun h => Storage.wf_write ⟨h.2.2.1, h.2.2.2⟩ _ _
    have hr := Storage.Reaches.refl.write (st := q.storage) p.ctrl.pending.lba buffer
    split <;>
    · rename_i hs
      rw [hs] at hw hr
      exact hd.trans ⟨rfl, rfl, rfl, rfl, rfl, rfl, hr, fun h => ⟨h.1, h.2.1, hw h⟩, id, le_rfl⟩

theorem Soc.executeRead_transfers (p : Soc) : p.Transfers p.executeRead.2 := by
  unfold Soc.executeRead
  split
  · rename_i buffer _
    have hd := p.dmaWrite_transfers p.ctrl.pending.prp1 buffer dmaWords
    split <;> (rename_i he; rw [he] at hd; exact hd)
  · exact .refl p

theorem Soc.executeCommand_transfers (p : Soc) : p.Transfers p.executeCommand.2 := by
  unfold Soc.executeCommand
  split
  · exact p.executeWrite_transfers
  · split
    · exact p.executeRead_transfers
    · exact .refl p

theorem Soc.postCompletion_transfers (p : Soc) (sc : BitVec 15) : p.Transfers (p.postCompletion sc) := by
  unfold Soc.postCompletion
  exact (p.bypassWrite_transfers _ _).trans (Soc.withCtrl_transfers _ _ id)

theorem Soc.completeCommand_transfers (p : Soc) : p.Transfers p.completeCommand := by
  unfold Soc.completeCommand
  exact (p.executeCommand_transfers.trans (Soc.postCompletion_transfers _ _)).trans (Soc.withCtrl_transfers _ _ id)

theorem Soc.controllerTick_transfers (p : Soc) : p.Transfers p.controllerTick := by
  unfold Soc.controllerTick
  split
  · have hb := Soc.withCtrl_transfers p { p.ctrl with busyTicks := p.ctrl.busyTicks - 1 } id
    dsimp only
    split
    · exact hb.trans (Soc.completeCommand_transfers _)
    · exact hb
  · split
    · exact p.fetchCommand_transfers
    · exact .refl p

/-! ## Ticks -/

/-- What the device ticks keep: as `Soc.Transfers`, but the RAMs' latency counts may go down (R62). -/
structure Soc.Ticks (p q : Soc) : Prop where
  cfg : q.cfg = p.cfg
  signals : q.bus.signals = p.bus.signals
  ramBusy : q.ram.busy = p.ram.busy
  ramPending : q.ram.pendingWait ≤ p.ram.pendingWait
  scratchBusy : q.scratch.busy = p.scratch.busy
  scratchPending : q.scratch.pendingWait ≤ p.scratch.pendingWait
  storage : p.storage.Reaches q.storage
  canonical : p.canonical → q.canonical
  status : p.ctrl.statusLegal → q.ctrl.statusLegal
  fifo : q.periph.keyboard.fifo.length ≤ p.periph.keyboard.fifo.length

theorem Soc.Ticks.refl (p : Soc) : p.Ticks p :=
  ⟨rfl, rfl, rfl, le_rfl, rfl, le_rfl, .refl, id, id, le_rfl⟩

theorem Soc.Ticks.trans {p q r : Soc} (h : p.Ticks q) (k : q.Ticks r) : p.Ticks r :=
  ⟨k.cfg.trans h.cfg, k.signals.trans h.signals, k.ramBusy.trans h.ramBusy, k.ramPending.trans h.ramPending,
    k.scratchBusy.trans h.scratchBusy, k.scratchPending.trans h.scratchPending, h.storage.trans k.storage,
    k.canonical ∘ h.canonical, k.status ∘ h.status, k.fifo.trans h.fifo⟩

theorem Soc.Transfers.ticks {p q : Soc} (h : p.Transfers q) : p.Ticks q :=
  ⟨h.cfg, h.signals, h.ramBusy, h.ramPending.le, h.scratchBusy, h.scratchPending.le, h.storage,
    h.canonical, h.status, h.fifo⟩

theorem Ram.tick_pendingWait_le (r : Ram) : r.tick.pendingWait ≤ r.pendingWait := by
  unfold Ram.tick; split
  · exact Nat.sub_le _ _
  · exact le_rfl

theorem Soc.deviceTick_ticks (p : Soc) (e : DeviceEntry) : p.Ticks (p.deviceTick e) := by
  unfold Soc.deviceTick
  split
  · exact ⟨rfl, rfl, by simp, p.ram.tick_pendingWait_le, rfl, le_rfl, .refl, fun h => by simpa [Soc.canonical] using h, id, le_rfl⟩
  · exact ⟨rfl, rfl, rfl, le_rfl, by simp, p.scratch.tick_pendingWait_le, .refl,
      fun h => by simpa [Soc.canonical] using h, id, le_rfl⟩
  · exact p.controllerTick_transfers.ticks
  all_goals exact ⟨rfl, rfl, rfl, le_rfl, rfl, le_rfl, .refl, id, id,
    (congrArg List.length (p.periph.afterTick_ticked _ _).fifo).le⟩

theorem Soc.foldl_deviceTick_ticks (p : Soc) (devices : List DeviceEntry) :
    p.Ticks (devices.foldl Soc.deviceTick p) := by
  induction devices generalizing p with
  | nil => exact .refl p
  | cons e rest ih => exact (p.deviceTick_ticks e).trans (ih _)

/-- All the device ticks of a cycle. -/
theorem Soc.deviceTicks_ticks (p : Soc) : p.Ticks p.deviceTicks :=
  p.foldl_deviceTick_ticks p.cfg.devices

theorem Soc.afterTicks_ticks (n : Nat) (p : Soc) : p.Ticks (Soc.afterTicks n p) := by
  induction n generalizing p with
  | zero => exact .refl p
  | succ n ih => exact p.deviceTicks_ticks.trans (ih _)

theorem Soc.Ticks.read {p q : Soc} (h : p.Ticks q) : q.bus.read = p.bus.read := by
  simpa using congrArg Bus.read h.signals
theorem Soc.Ticks.write {p q : Soc} (h : p.Ticks q) : q.bus.write = p.bus.write := by
  simpa using congrArg Bus.write h.signals
theorem Soc.Ticks.wait {p q : Soc} (h : p.Ticks q) : q.bus.wait = p.bus.wait := by
  simpa using congrArg Bus.wait h.signals
theorem Soc.Ticks.address {p q : Soc} (h : p.Ticks q) : q.bus.address = p.bus.address := by
  simpa using congrArg Bus.address h.signals
theorem Soc.Ticks.data {p q : Soc} (h : p.Ticks q) : q.bus.data = p.bus.data := by
  simpa using congrArg Bus.data h.signals
theorem Soc.Ticks.error {p q : Soc} (h : p.Ticks q) : q.bus.error = p.bus.error := by
  simpa using congrArg Bus.error h.signals
theorem Soc.Ticks.ready {p q : Soc} (h : p.Ticks q) : q.bus.ready = p.bus.ready := by
  simpa using congrArg Bus.ready h.signals
theorem Soc.Ticks.irq {p q : Soc} (h : p.Ticks q) : q.bus.irq = p.bus.irq := by
  simpa using congrArg Bus.irq h.signals

/-- An idle bus stays idle over ticks. -/
theorem Soc.Ticks.busIdle {p q : Soc} (h : p.Ticks q) (hi : p.busIdle) : q.busIdle :=
  ⟨h.read.trans hi.1, h.write.trans hi.2⟩

/-- The device table decodes as before. -/
theorem Soc.Ticks.target {p q : Soc} (h : p.Ticks q) (a : Word) : q.target a = p.target a := by
  simp [Soc.target, h.cfg]

/-! ## Quiet machines: no command pending and none to fetch -/

theorem Soc.controllerTick_of_quiet {p : Soc} (h : p.quiet) : p.controllerTick = p := by
  obtain ⟨hp, hr⟩ := h
  unfold Soc.controllerTick
  rw [hp]
  rcases hr with hr | hr <;> simp [hr]

/-- What a tick of a quiet machine keeps: memory, the storage stack, the controller and most peripheral registers. -/
structure Soc.QuietTicks (p q : Soc) : Prop where
  ticks : p.Ticks q
  ramBytes : q.ram.bytes = p.ram.bytes
  scratchBytes : q.scratch.bytes = p.scratch.bytes
  ctrl : q.ctrl = p.ctrl
  storage : q.storage = p.storage
  bus : q.bus = p.bus
  periph : p.periph.Ticked q.periph

theorem Soc.QuietTicks.refl (p : Soc) : p.QuietTicks p := ⟨.refl p, rfl, rfl, rfl, rfl, rfl, .refl _⟩

theorem Soc.QuietTicks.trans {p q r : Soc} (h : p.QuietTicks q) (k : q.QuietTicks r) : p.QuietTicks r :=
  ⟨h.ticks.trans k.ticks, k.ramBytes.trans h.ramBytes, k.scratchBytes.trans h.scratchBytes, k.ctrl.trans h.ctrl,
    k.storage.trans h.storage, k.bus.trans h.bus, h.periph.trans k.periph⟩

theorem Soc.QuietTicks.quiet {p q : Soc} (h : p.QuietTicks q) (hq : p.quiet) : q.quiet := by
  simpa [Soc.quiet, h.ctrl] using hq

theorem Soc.deviceTick_quiet {p : Soc} (h : p.quiet) (e : DeviceEntry) : p.QuietTicks (p.deviceTick e) := by
  have ht := p.deviceTick_ticks e
  unfold Soc.deviceTick at *
  split at * <;> first
    | exact ⟨ht, by simp, rfl, rfl, rfl, rfl, .refl _⟩
    | exact ⟨ht, rfl, by simp, rfl, rfl, rfl, .refl _⟩
    | (rw [Soc.controllerTick_of_quiet h]; exact .refl p)
    | exact ⟨ht, rfl, rfl, rfl, rfl, rfl, p.periph.afterTick_ticked _ _⟩

theorem Soc.foldl_deviceTick_quiet {p : Soc} (h : p.quiet) (devices : List DeviceEntry) :
    p.QuietTicks (devices.foldl Soc.deviceTick p) := by
  induction devices generalizing p with
  | nil => exact .refl p
  | cons e rest ih =>
    have hd := Soc.deviceTick_quiet h e
    exact hd.trans (ih (hd.quiet h))

theorem Soc.deviceTicks_quiet {p : Soc} (h : p.quiet) : p.QuietTicks p.deviceTicks :=
  Soc.foldl_deviceTick_quiet h _

theorem Soc.afterTicks_quiet (n : Nat) {p : Soc} (h : p.quiet) : p.QuietTicks (Soc.afterTicks n p) := by
  induction n generalizing p with
  | zero => exact .refl p
  | succ n ih =>
    have hd := Soc.deviceTicks_quiet h
    exact hd.trans (ih (hd.quiet h))

/-- Ticks of an idle RAM leave it as it is. -/
theorem Soc.QuietTicks.ram {p q : Soc} (h : p.QuietTicks q) (hr : q.ram.pendingWait = p.ram.pendingWait) :
    q.ram = p.ram := by
  have := h.ramBytes; have := h.ticks.ramBusy
  cases hq : q.ram; cases hp : p.ram
  simp_all

end Sys2Proof.Machine
end

