-- ==== Sys2Proof/Laws/State.lean ====
section
/-! SUPPORT. The small lemmas of the CPU's updates: one per field per update, true by rfl, so that no later proof unfolds
a record update. -/

namespace Sys2Proof.Machine

/-! ## Registers -/

@[simp] theorem reg_setReg_same (c : Cpu) (i : RegIdx) (v : Word) : (c.setReg i v).reg i = v := by
  simp [Cpu.reg, Cpu.setReg]

theorem reg_setReg (c : Cpu) (i j : RegIdx) (v : Word) :
    (c.setReg i v).reg j = if i = j then v else c.reg j := by
  simp [Cpu.reg, Cpu.setReg, Vector.getElem_set, Fin.ext_iff]

theorem reg_setReg_other (c : Cpu) {i j : RegIdx} (v : Word) (h : i ≠ j) : (c.setReg i v).reg j = c.reg j := by
  simp [reg_setReg, h]

theorem reg_of_x_eq {c d : Cpu} (h : c.x = d.x) (i : RegIdx) : c.reg i = d.reg i := by
  simp [Cpu.reg, h]

/-! ## Updates of the CPU -/

@[simp] theorem setReg_x (c : Cpu) (i : RegIdx) (v : Word) : (c.setReg i v).x = c.x.set i v := rfl
@[simp] theorem setReg_pc (c : Cpu) (i : RegIdx) (v : Word) : (c.setReg i v).pc = c.pc := rfl
@[simp] theorem setReg_flags (c : Cpu) (i : RegIdx) (v : Word) : (c.setReg i v).flags = c.flags := rfl
@[simp] theorem setReg_halted (c : Cpu) (i : RegIdx) (v : Word) : (c.setReg i v).halted = c.halted := rfl
@[simp] theorem setReg_stage (c : Cpu) (i : RegIdx) (v : Word) : (c.setReg i v).stage = c.stage := rfl
@[simp] theorem setReg_uop (c : Cpu) (i : RegIdx) (v : Word) : (c.setReg i v).uop = c.uop := rfl
@[simp] theorem setReg_instr (c : Cpu) (i : RegIdx) (v : Word) : (c.setReg i v).instr = c.instr := rfl
@[simp] theorem setReg_opA (c : Cpu) (i : RegIdx) (v : Word) : (c.setReg i v).opA = c.opA := rfl
@[simp] theorem setReg_opB (c : Cpu) (i : RegIdx) (v : Word) : (c.setReg i v).opB = c.opB := rfl
@[simp] theorem setReg_aluResult (c : Cpu) (i : RegIdx) (v : Word) : (c.setReg i v).aluResult = c.aluResult := rfl
@[simp] theorem setReg_memData (c : Cpu) (i : RegIdx) (v : Word) : (c.setReg i v).memData = c.memData := rfl

@[simp] theorem retire_x (c : Cpu) : (c.retire).x = c.x := rfl
@[simp] theorem retire_pc (c : Cpu) : (c.retire).pc = c.pc + 4 := rfl
@[simp] theorem retire_flags (c : Cpu) : (c.retire).flags = c.flags := rfl
@[simp] theorem retire_halted (c : Cpu) : (c.retire).halted = c.halted := rfl
@[simp] theorem retire_stage (c : Cpu) : (c.retire).stage = .fetch := rfl
@[simp] theorem retire_uop (c : Cpu) : (c.retire).uop = 0 := rfl
@[simp] theorem retire_instr (c : Cpu) : (c.retire).instr = c.instr := rfl
@[simp] theorem retire_opA (c : Cpu) : (c.retire).opA = c.opA := rfl
@[simp] theorem retire_opB (c : Cpu) : (c.retire).opB = c.opB := rfl
@[simp] theorem retire_aluResult (c : Cpu) : (c.retire).aluResult = c.aluResult := rfl
@[simp] theorem retire_memData (c : Cpu) : (c.retire).memData = c.memData := rfl

/-! ## Stage steps -/

@[simp] theorem readRegisterOperands_x (s : State) (rn rm : RegIdx) : ((s.readRegisterOperands rn rm).cpu).x = s.cpu.x := rfl
@[simp] theorem readRegisterOperands_pc (s : State) (rn rm : RegIdx) : ((s.readRegisterOperands rn rm).cpu).pc = s.cpu.pc := rfl
@[simp] theorem readRegisterOperands_flags (s : State) (rn rm : RegIdx) : ((s.readRegisterOperands rn rm).cpu).flags = s.cpu.flags := rfl
@[simp] theorem readRegisterOperands_halted (s : State) (rn rm : RegIdx) : ((s.readRegisterOperands rn rm).cpu).halted = s.cpu.halted := rfl
@[simp] theorem readRegisterOperands_stage (s : State) (rn rm : RegIdx) : ((s.readRegisterOperands rn rm).cpu).stage = .execute := rfl
@[simp] theorem readRegisterOperands_uop (s : State) (rn rm : RegIdx) : ((s.readRegisterOperands rn rm).cpu).uop = s.cpu.uop := rfl
@[simp] theorem readRegisterOperands_instr (s : State) (rn rm : RegIdx) : ((s.readRegisterOperands rn rm).cpu).instr = s.cpu.instr := rfl
@[simp] theorem readRegisterOperands_opA (s : State) (rn rm : RegIdx) : ((s.readRegisterOperands rn rm).cpu).opA = s.cpu.reg rn := rfl
@[simp] theorem readRegisterOperands_opB (s : State) (rn rm : RegIdx) : ((s.readRegisterOperands rn rm).cpu).opB = s.cpu.reg rm := rfl
@[simp] theorem readRegisterOperands_aluResult (s : State) (rn rm : RegIdx) : ((s.readRegisterOperands rn rm).cpu).aluResult = s.cpu.aluResult := rfl
@[simp] theorem readRegisterOperands_memData (s : State) (rn rm : RegIdx) : ((s.readRegisterOperands rn rm).cpu).memData = s.cpu.memData := rfl
@[simp] theorem readRegisterOperands_soc (s : State) (rn rm : RegIdx) : ((s.readRegisterOperands rn rm)).soc = s.soc := rfl

@[simp] theorem readImmediateOperands_x (s : State) (rn : RegIdx) (imm : Word) : ((s.readImmediateOperands rn imm).cpu).x = s.cpu.x := rfl
@[simp] theorem readImmediateOperands_pc (s : State) (rn : RegIdx) (imm : Word) : ((s.readImmediateOperands rn imm).cpu).pc = s.cpu.pc := rfl
@[simp] theorem readImmediateOperands_flags (s : State) (rn : RegIdx) (imm : Word) : ((s.readImmediateOperands rn imm).cpu).flags = s.cpu.flags := rfl
@[simp] theorem readImmediateOperands_halted (s : State) (rn : RegIdx) (imm : Word) : ((s.readImmediateOperands rn imm).cpu).halted = s.cpu.halted := rfl
@[simp] theorem readImmediateOperands_stage (s : State) (rn : RegIdx) (imm : Word) : ((s.readImmediateOperands rn imm).cpu).stage = .execute := rfl
@[simp] theorem readImmediateOperands_uop (s : State) (rn : RegIdx) (imm : Word) : ((s.readImmediateOperands rn imm).cpu).uop = s.cpu.uop := rfl
@[simp] theorem readImmediateOperands_instr (s : State) (rn : RegIdx) (imm : Word) : ((s.readImmediateOperands rn imm).cpu).instr = s.cpu.instr := rfl
@[simp] theorem readImmediateOperands_opA (s : State) (rn : RegIdx) (imm : Word) : ((s.readImmediateOperands rn imm).cpu).opA = s.cpu.reg rn := rfl
@[simp] theorem readImmediateOperands_opB (s : State) (rn : RegIdx) (imm : Word) : ((s.readImmediateOperands rn imm).cpu).opB = imm := rfl
@[simp] theorem readImmediateOperands_aluResult (s : State) (rn : RegIdx) (imm : Word) : ((s.readImmediateOperands rn imm).cpu).aluResult = s.cpu.aluResult := rfl
@[simp] theorem readImmediateOperands_memData (s : State) (rn : RegIdx) (imm : Word) : ((s.readImmediateOperands rn imm).cpu).memData = s.cpu.memData := rfl
@[simp] theorem readImmediateOperands_soc (s : State) (rn : RegIdx) (imm : Word) : ((s.readImmediateOperands rn imm)).soc = s.soc := rfl

@[simp] theorem readBranchOperand_x (s : State) (imm : Word) : ((s.readBranchOperand imm).cpu).x = s.cpu.x := rfl
@[simp] theorem readBranchOperand_pc (s : State) (imm : Word) : ((s.readBranchOperand imm).cpu).pc = s.cpu.pc := rfl
@[simp] theorem readBranchOperand_flags (s : State) (imm : Word) : ((s.readBranchOperand imm).cpu).flags = s.cpu.flags := rfl
@[simp] theorem readBranchOperand_halted (s : State) (imm : Word) : ((s.readBranchOperand imm).cpu).halted = s.cpu.halted := rfl
@[simp] theorem readBranchOperand_stage (s : State) (imm : Word) : ((s.readBranchOperand imm).cpu).stage = .execute := rfl
@[simp] theorem readBranchOperand_uop (s : State) (imm : Word) : ((s.readBranchOperand imm).cpu).uop = s.cpu.uop := rfl
@[simp] theorem readBranchOperand_instr (s : State) (imm : Word) : ((s.readBranchOperand imm).cpu).instr = s.cpu.instr := rfl
@[simp] theorem readBranchOperand_opA (s : State) (imm : Word) : ((s.readBranchOperand imm).cpu).opA = s.cpu.opA := rfl
@[simp] theorem readBranchOperand_opB (s : State) (imm : Word) : ((s.readBranchOperand imm).cpu).opB = imm := rfl
@[simp] theorem readBranchOperand_aluResult (s : State) (imm : Word) : ((s.readBranchOperand imm).cpu).aluResult = s.cpu.aluResult := rfl
@[simp] theorem readBranchOperand_memData (s : State) (imm : Word) : ((s.readBranchOperand imm).cpu).memData = s.cpu.memData := rfl
@[simp] theorem readBranchOperand_soc (s : State) (imm : Word) : ((s.readBranchOperand imm)).soc = s.soc := rfl

@[simp] theorem fetchLatch_x (s : State) : (s.fetchLatch.cpu).x = s.cpu.x := rfl
@[simp] theorem fetchLatch_pc (s : State) : (s.fetchLatch.cpu).pc = s.cpu.pc := rfl
@[simp] theorem fetchLatch_flags (s : State) : (s.fetchLatch.cpu).flags = s.cpu.flags := rfl
@[simp] theorem fetchLatch_halted (s : State) : (s.fetchLatch.cpu).halted = s.cpu.halted := rfl
@[simp] theorem fetchLatch_stage (s : State) : (s.fetchLatch.cpu).stage = .decode := rfl
@[simp] theorem fetchLatch_uop (s : State) : (s.fetchLatch.cpu).uop = 0 := rfl
@[simp] theorem fetchLatch_instr (s : State) : (s.fetchLatch.cpu).instr = decode (s.soc.bus.data.extractLsb' 0 32) := rfl
@[simp] theorem fetchLatch_opA (s : State) : (s.fetchLatch.cpu).opA = s.cpu.opA := rfl
@[simp] theorem fetchLatch_opB (s : State) : (s.fetchLatch.cpu).opB = s.cpu.opB := rfl
@[simp] theorem fetchLatch_aluResult (s : State) : (s.fetchLatch.cpu).aluResult = s.cpu.aluResult := rfl
@[simp] theorem fetchLatch_memData (s : State) : (s.fetchLatch.cpu).memData = s.cpu.memData := rfl
@[simp] theorem fetchLatch_soc (s : State) : (s.fetchLatch).soc = { s.soc with bus := { s.soc.bus with read := false } } := rfl

@[simp] theorem executeAlu_x (s : State) (op : AluOp) : ((s.executeAlu op).cpu).x = s.cpu.x := rfl
@[simp] theorem executeAlu_pc (s : State) (op : AluOp) : ((s.executeAlu op).cpu).pc = s.cpu.pc := rfl
@[simp] theorem executeAlu_flags (s : State) (op : AluOp) : ((s.executeAlu op).cpu).flags = (alu op s.cpu.opA s.cpu.opB s.cpu.flags).2 := rfl
@[simp] theorem executeAlu_halted (s : State) (op : AluOp) : ((s.executeAlu op).cpu).halted = s.cpu.halted := rfl
@[simp] theorem executeAlu_stage (s : State) (op : AluOp) : ((s.executeAlu op).cpu).stage = .writeBack := rfl
@[simp] theorem executeAlu_uop (s : State) (op : AluOp) : ((s.executeAlu op).cpu).uop = s.cpu.uop := rfl
@[simp] theorem executeAlu_instr (s : State) (op : AluOp) : ((s.executeAlu op).cpu).instr = s.cpu.instr := rfl
@[simp] theorem executeAlu_opA (s : State) (op : AluOp) : ((s.executeAlu op).cpu).opA = s.cpu.opA := rfl
@[simp] theorem executeAlu_opB (s : State) (op : AluOp) : ((s.executeAlu op).cpu).opB = s.cpu.opB := rfl
@[simp] theorem executeAlu_aluResult (s : State) (op : AluOp) : ((s.executeAlu op).cpu).aluResult = op.result s.cpu.opA s.cpu.opB := rfl
@[simp] theorem executeAlu_memData (s : State) (op : AluOp) : ((s.executeAlu op).cpu).memData = s.cpu.memData := rfl
@[simp] theorem executeAlu_soc (s : State) (op : AluOp) : ((s.executeAlu op)).soc = s.soc := rfl

@[simp] theorem executeMov_x (s : State) : (s.executeMov.cpu).x = s.cpu.x := rfl
@[simp] theorem executeMov_pc (s : State) : (s.executeMov.cpu).pc = s.cpu.pc := rfl
@[simp] theorem executeMov_flags (s : State) : (s.executeMov.cpu).flags = (alu .add 0 s.cpu.opB s.cpu.flags).2 := rfl
@[simp] theorem executeMov_halted (s : State) : (s.executeMov.cpu).halted = s.cpu.halted := rfl
@[simp] theorem executeMov_stage (s : State) : (s.executeMov.cpu).stage = .writeBack := rfl
@[simp] theorem executeMov_uop (s : State) : (s.executeMov.cpu).uop = s.cpu.uop := rfl
@[simp] theorem executeMov_instr (s : State) : (s.executeMov.cpu).instr = s.cpu.instr := rfl
@[simp] theorem executeMov_opA (s : State) : (s.executeMov.cpu).opA = 0 := rfl
@[simp] theorem executeMov_opB (s : State) : (s.executeMov.cpu).opB = s.cpu.opB := rfl
@[simp] theorem executeMov_aluResult (s : State) : (s.executeMov.cpu).aluResult = AluOp.add.result 0 s.cpu.opB := rfl
@[simp] theorem executeMov_memData (s : State) : (s.executeMov.cpu).memData = s.cpu.memData := rfl
@[simp] theorem executeMov_soc (s : State) : (s.executeMov).soc = s.soc := rfl

@[simp] theorem executeCmp_x (s : State) : (s.executeCmp.cpu).x = s.cpu.x := rfl
@[simp] theorem executeCmp_pc (s : State) : (s.executeCmp.cpu).pc = s.cpu.pc := rfl
@[simp] theorem executeCmp_flags (s : State) : (s.executeCmp.cpu).flags = (alu .sub s.cpu.opA s.cpu.opB s.cpu.flags).2 := rfl
@[simp] theorem executeCmp_halted (s : State) : (s.executeCmp.cpu).halted = s.cpu.halted := rfl
@[simp] theorem executeCmp_stage (s : State) : (s.executeCmp.cpu).stage = .writeBack := rfl
@[simp] theorem executeCmp_uop (s : State) : (s.executeCmp.cpu).uop = s.cpu.uop := rfl
@[simp] theorem executeCmp_instr (s : State) : (s.executeCmp.cpu).instr = s.cpu.instr := rfl
@[simp] theorem executeCmp_opA (s : State) : (s.executeCmp.cpu).opA = s.cpu.opA := rfl
@[simp] theorem executeCmp_opB (s : State) : (s.executeCmp.cpu).opB = s.cpu.opB := rfl
@[simp] theorem executeCmp_aluResult (s : State) : (s.executeCmp.cpu).aluResult = AluOp.sub.result s.cpu.opA s.cpu.opB := rfl
@[simp] theorem executeCmp_memData (s : State) : (s.executeCmp.cpu).memData = s.cpu.memData := rfl
@[simp] theorem executeCmp_soc (s : State) : (s.executeCmp).soc = s.soc := rfl

@[simp] theorem executeAddress_x (s : State) : (s.executeAddress.cpu).x = s.cpu.x := rfl
@[simp] theorem executeAddress_pc (s : State) : (s.executeAddress.cpu).pc = s.cpu.pc := rfl
@[simp] theorem executeAddress_flags (s : State) : (s.executeAddress.cpu).flags = s.cpu.flags := rfl
@[simp] theorem executeAddress_halted (s : State) : (s.executeAddress.cpu).halted = s.cpu.halted := rfl
@[simp] theorem executeAddress_stage (s : State) : (s.executeAddress.cpu).stage = .memory := rfl
@[simp] theorem executeAddress_uop (s : State) : (s.executeAddress.cpu).uop = 0 := rfl
@[simp] theorem executeAddress_instr (s : State) : (s.executeAddress.cpu).instr = s.cpu.instr := rfl
@[simp] theorem executeAddress_opA (s : State) : (s.executeAddress.cpu).opA = s.cpu.opA := rfl
@[simp] theorem executeAddress_opB (s : State) : (s.executeAddress.cpu).opB = s.cpu.opB := rfl
@[simp] theorem executeAddress_aluResult (s : State) : (s.executeAddress.cpu).aluResult = s.cpu.opA + s.cpu.opB := rfl
@[simp] theorem executeAddress_memData (s : State) : (s.executeAddress.cpu).memData = s.cpu.memData := rfl
@[simp] theorem executeAddress_soc (s : State) : (s.executeAddress).soc = s.soc := rfl

@[simp] theorem executeHalt_x (s : State) : (s.executeHalt.cpu).x = s.cpu.x := rfl
@[simp] theorem executeHalt_pc (s : State) : (s.executeHalt.cpu).pc = s.cpu.pc := rfl
@[simp] theorem executeHalt_flags (s : State) : (s.executeHalt.cpu).flags = s.cpu.flags := rfl
@[simp] theorem executeHalt_halted (s : State) : (s.executeHalt.cpu).halted = true := rfl
@[simp] theorem executeHalt_stage (s : State) : (s.executeHalt.cpu).stage = s.cpu.stage := rfl
@[simp] theorem executeHalt_uop (s : State) : (s.executeHalt.cpu).uop = s.cpu.uop := rfl
@[simp] theorem executeHalt_instr (s : State) : (s.executeHalt.cpu).instr = s.cpu.instr := rfl
@[simp] theorem executeHalt_opA (s : State) : (s.executeHalt.cpu).opA = s.cpu.opA := rfl
@[simp] theorem executeHalt_opB (s : State) : (s.executeHalt.cpu).opB = s.cpu.opB := rfl
@[simp] theorem executeHalt_aluResult (s : State) : (s.executeHalt.cpu).aluResult = s.cpu.aluResult := rfl
@[simp] theorem executeHalt_memData (s : State) : (s.executeHalt.cpu).memData = s.cpu.memData := rfl
@[simp] theorem executeHalt_soc (s : State) : (s.executeHalt).soc = s.soc := rfl

@[simp] theorem executeNop_x (s : State) : (s.executeNop.cpu).x = s.cpu.x := rfl
@[simp] theorem executeNop_pc (s : State) : (s.executeNop.cpu).pc = s.cpu.pc := rfl
@[simp] theorem executeNop_flags (s : State) : (s.executeNop.cpu).flags = s.cpu.flags := rfl
@[simp] theorem executeNop_halted (s : State) : (s.executeNop.cpu).halted = s.cpu.halted := rfl
@[simp] theorem executeNop_stage (s : State) : (s.executeNop.cpu).stage = .writeBack := rfl
@[simp] theorem executeNop_uop (s : State) : (s.executeNop.cpu).uop = s.cpu.uop := rfl
@[simp] theorem executeNop_instr (s : State) : (s.executeNop.cpu).instr = s.cpu.instr := rfl
@[simp] theorem executeNop_opA (s : State) : (s.executeNop.cpu).opA = s.cpu.opA := rfl
@[simp] theorem executeNop_opB (s : State) : (s.executeNop.cpu).opB = s.cpu.opB := rfl
@[simp] theorem executeNop_aluResult (s : State) : (s.executeNop.cpu).aluResult = s.cpu.aluResult := rfl
@[simp] theorem executeNop_memData (s : State) : (s.executeNop.cpu).memData = s.cpu.memData := rfl
@[simp] theorem executeNop_soc (s : State) : (s.executeNop).soc = s.soc := rfl

@[simp] theorem requestLoad_x (s : State) : (s.requestLoad.cpu).x = s.cpu.x := rfl
@[simp] theorem requestLoad_pc (s : State) : (s.requestLoad.cpu).pc = s.cpu.pc := rfl
@[simp] theorem requestLoad_flags (s : State) : (s.requestLoad.cpu).flags = s.cpu.flags := rfl
@[simp] theorem requestLoad_halted (s : State) : (s.requestLoad.cpu).halted = s.cpu.halted := rfl
@[simp] theorem requestLoad_stage (s : State) : (s.requestLoad.cpu).stage = s.cpu.stage := rfl
@[simp] theorem requestLoad_uop (s : State) : (s.requestLoad.cpu).uop = 1 := rfl
@[simp] theorem requestLoad_instr (s : State) : (s.requestLoad.cpu).instr = s.cpu.instr := rfl
@[simp] theorem requestLoad_opA (s : State) : (s.requestLoad.cpu).opA = s.cpu.opA := rfl
@[simp] theorem requestLoad_opB (s : State) : (s.requestLoad.cpu).opB = s.cpu.opB := rfl
@[simp] theorem requestLoad_aluResult (s : State) : (s.requestLoad.cpu).aluResult = s.cpu.aluResult := rfl
@[simp] theorem requestLoad_memData (s : State) : (s.requestLoad.cpu).memData = s.cpu.memData := rfl
@[simp] theorem requestLoad_soc (s : State) : (s.requestLoad).soc = { s.soc with bus := { s.soc.bus with address := s.cpu.aluResult, read := true } } := rfl

@[simp] theorem requestStore_x (s : State) (rd : RegIdx) : ((s.requestStore rd).cpu).x = s.cpu.x := rfl
@[simp] theorem requestStore_pc (s : State) (rd : RegIdx) : ((s.requestStore rd).cpu).pc = s.cpu.pc := rfl
@[simp] theorem requestStore_flags (s : State) (rd : RegIdx) : ((s.requestStore rd).cpu).flags = s.cpu.flags := rfl
@[simp] theorem requestStore_halted (s : State) (rd : RegIdx) : ((s.requestStore rd).cpu).halted = s.cpu.halted := rfl
@[simp] theorem requestStore_stage (s : State) (rd : RegIdx) : ((s.requestStore rd).cpu).stage = s.cpu.stage := rfl
@[simp] theorem requestStore_uop (s : State) (rd : RegIdx) : ((s.requestStore rd).cpu).uop = 1 := rfl
@[simp] theorem requestStore_instr (s : State) (rd : RegIdx) : ((s.requestStore rd).cpu).instr = s.cpu.instr := rfl
@[simp] theorem requestStore_opA (s : State) (rd : RegIdx) : ((s.requestStore rd).cpu).opA = s.cpu.opA := rfl
@[simp] theorem requestStore_opB (s : State) (rd : RegIdx) : ((s.requestStore rd).cpu).opB = s.cpu.opB := rfl
@[simp] theorem requestStore_aluResult (s : State) (rd : RegIdx) : ((s.requestStore rd).cpu).aluResult = s.cpu.aluResult := rfl
@[simp] theorem requestStore_memData (s : State) (rd : RegIdx) : ((s.requestStore rd).cpu).memData = s.cpu.memData := rfl
@[simp] theorem requestStore_soc (s : State) (rd : RegIdx) : ((s.requestStore rd)).soc = { s.soc with bus := { s.soc.bus with address := s.cpu.aluResult, data := s.cpu.reg rd, write := true } } := rfl

@[simp] theorem latchLoad_x (s : State) : (s.latchLoad.cpu).x = s.cpu.x := rfl
@[simp] theorem latchLoad_pc (s : State) : (s.latchLoad.cpu).pc = s.cpu.pc := rfl
@[simp] theorem latchLoad_flags (s : State) : (s.latchLoad.cpu).flags = s.cpu.flags := rfl
@[simp] theorem latchLoad_halted (s : State) : (s.latchLoad.cpu).halted = s.cpu.halted := rfl
@[simp] theorem latchLoad_stage (s : State) : (s.latchLoad.cpu).stage = .writeBack := rfl
@[simp] theorem latchLoad_uop (s : State) : (s.latchLoad.cpu).uop = 0 := rfl
@[simp] theorem latchLoad_instr (s : State) : (s.latchLoad.cpu).instr = s.cpu.instr := rfl
@[simp] theorem latchLoad_opA (s : State) : (s.latchLoad.cpu).opA = s.cpu.opA := rfl
@[simp] theorem latchLoad_opB (s : State) : (s.latchLoad.cpu).opB = s.cpu.opB := rfl
@[simp] theorem latchLoad_aluResult (s : State) : (s.latchLoad.cpu).aluResult = s.cpu.aluResult := rfl
@[simp] theorem latchLoad_memData (s : State) : (s.latchLoad.cpu).memData = s.soc.bus.data := rfl
@[simp] theorem latchLoad_soc (s : State) : (s.latchLoad).soc = { s.soc with bus := { s.soc.bus with read := false } } := rfl

@[simp] theorem latchStore_x (s : State) : (s.latchStore.cpu).x = s.cpu.x := rfl
@[simp] theorem latchStore_pc (s : State) : (s.latchStore.cpu).pc = s.cpu.pc := rfl
@[simp] theorem latchStore_flags (s : State) : (s.latchStore.cpu).flags = s.cpu.flags := rfl
@[simp] theorem latchStore_halted (s : State) : (s.latchStore.cpu).halted = s.cpu.halted := rfl
@[simp] theorem latchStore_stage (s : State) : (s.latchStore.cpu).stage = .writeBack := rfl
@[simp] theorem latchStore_uop (s : State) : (s.latchStore.cpu).uop = 0 := rfl
@[simp] theorem latchStore_instr (s : State) : (s.latchStore.cpu).instr = s.cpu.instr := rfl
@[simp] theorem latchStore_opA (s : State) : (s.latchStore.cpu).opA = s.cpu.opA := rfl
@[simp] theorem latchStore_opB (s : State) : (s.latchStore.cpu).opB = s.cpu.opB := rfl
@[simp] theorem latchStore_aluResult (s : State) : (s.latchStore.cpu).aluResult = s.cpu.aluResult := rfl
@[simp] theorem latchStore_memData (s : State) : (s.latchStore.cpu).memData = s.cpu.memData := rfl
@[simp] theorem latchStore_soc (s : State) : (s.latchStore).soc = { s.soc with bus := { s.soc.bus with write := false } } := rfl

/-- A taken branch adds OpB to `pc` and goes back to Fetch. -/
theorem executeBranch_taken (s : State) :
    s.executeBranch true = { s with cpu := { s.cpu with pc := s.cpu.pc + s.cpu.opB, stage := .fetch, uop := 0 } } := rfl

/-- A branch not taken goes on to WriteBack. -/
theorem executeBranch_not_taken (s : State) :
    s.executeBranch false = { s with cpu := { s.cpu with stage := .writeBack } } := rfl

@[simp] theorem executeBranch_soc (s : State) (taken : Bool) : (s.executeBranch taken).soc = s.soc := by
  cases taken <;> rfl

/-! ## WriteBack -/

@[simp] theorem writeBackLoad_cpu (s : State) (rd : RegIdx) :
    (s.writeBackLoad rd).cpu = (s.cpu.setReg rd s.cpu.memData).retire := rfl
@[simp] theorem writeBackLoad_soc (s : State) (rd : RegIdx) : (s.writeBackLoad rd).soc = s.soc := rfl
@[simp] theorem writeBackResult_cpu (s : State) (rd : RegIdx) :
    (s.writeBackResult rd).cpu = (s.cpu.setReg rd s.cpu.aluResult).retire := rfl
@[simp] theorem writeBackResult_soc (s : State) (rd : RegIdx) : (s.writeBackResult rd).soc = s.soc := rfl
@[simp] theorem writeBackNone_cpu (s : State) : s.writeBackNone.cpu = s.cpu.retire := rfl
@[simp] theorem writeBackNone_soc (s : State) : s.writeBackNone.soc = s.soc := rfl

/-! ## Outcomes -/

@[simp] theorem andThen_next (s : State) (f : State → Out) : andThen (.next s) f = f s := rfl
@[simp] theorem andThen_fault (r : Fault) (f : State → Out) : andThen (.fault r) f = .fault r := rfl
@[simp] theorem andThen_refused (r : Refusal) (f : State → Out) : andThen (.refused r) f = .refused r := rfl

theorem andThen_assoc (o : Out) (f g : State → Out) :
    andThen (andThen o f) g = andThen o (fun s => andThen (f s) g) := by
  cases o <;> rfl

/-- If a sequence answers a next state, its first part did. -/
theorem andThen_eq_next {o : Out} {f : State → Out} {t : State} (h : andThen o f = .next t) :
    ∃ s, o = .next s ∧ f s = .next t := by
  cases o with
  | next s => exact ⟨s, rfl, h⟩
  | fault r => exact nomatch h
  | refused r => exact nomatch h

end Sys2Proof.Machine
end

