-- ==== Sys2Proof/Laws/Bus.lean ====
section
/-! SUPPORT. What the bus can do in a cycle and in a whole transaction: idle cycles, served requests, wait states, decode
failures. -/

namespace Sys2Proof.Machine

/-! ## Idle cycles -/

theorem Soc.busTick_idle {p : Soc} (h : p.busIdle) : p.busTick = .next p := by
  simp [Soc.busTick, h.1, h.2]

theorem Soc.cycle_idle {p : Soc} (h : p.busIdle) : p.cycle = .next p.deviceTicks := by
  simp [Soc.cycle, Soc.busTick_idle h]

/-- The rest of a cycle with an idle bus: the device ticks. -/
theorem finishCycle_idle {s : State} (h : s.soc.busIdle) :
    s.finishCycle = .next { s with soc := s.soc.deviceTicks } := by
  simp [State.finishCycle, Soc.cycle_idle h]

/-- The rest of a cycle does not touch the CPU. -/
theorem finishCycle_eq {s : State} {q : Soc} (h : s.soc.cycle = .next q) :
    s.finishCycle = .next { s with soc := q } := by
  simp [State.finishCycle, h]

/-! ## A served bus tick -/

/-- What a bus tick with a device found, and the ticks after it, keep. -/
structure Soc.Served (p q : Soc) : Prop where
  cfg : q.cfg = p.cfg
  address : q.bus.address = p.bus.address
  read : q.bus.read = p.bus.read
  write : q.bus.write = p.bus.write
  error : q.bus.error = p.bus.error
  ready : q.bus.ready = p.bus.ready
  irq : q.bus.irq = p.bus.irq
  storage : p.storage.Reaches q.storage
  canonical : p.canonical → q.canonical
  status : p.ctrl.statusLegal → q.ctrl.statusLegal
  fifo : q.periph.keyboard.fifo.length ≤ p.periph.keyboard.fifo.length

theorem Soc.Served.refl (p : Soc) : p.Served p := ⟨rfl, rfl, rfl, rfl, rfl, rfl, rfl, .refl, id, id, le_rfl⟩

theorem Soc.Served.trans {p q r : Soc} (h : p.Served q) (k : q.Served r) : p.Served r :=
  ⟨k.cfg.trans h.cfg, k.address.trans h.address, k.read.trans h.read, k.write.trans h.write, k.error.trans h.error,
    k.ready.trans h.ready, k.irq.trans h.irq, h.storage.trans k.storage, k.canonical ∘ h.canonical, k.status ∘ h.status,
    k.fifo.trans h.fifo⟩

theorem Soc.Ticks.served {p q : Soc} (h : p.Ticks q) : p.Served q :=
  ⟨h.cfg, h.address, h.read, h.write, h.error, h.ready, h.irq, h.storage, h.canonical, h.status, h.fifo⟩

theorem Soc.Transfers.served {p q : Soc} (h : p.Transfers q) : p.Served q := h.ticks.served

/-- The latency of the RAM device of a kind. -/
def Soc.latencyOf (p : Soc) (device : DeviceKind) : Nat :=
  if device = .scratchRam then p.cfg.scratchLatency else p.cfg.ramLatency

/-- The device is in a latency count for the transaction on the bus (R62). -/
structure Soc.Holding (p : Soc) (e : DeviceEntry) : Prop where
  kind : e.device = .ram ∨ e.device = .scratchRam
  busy : (p.ramOf e.device).busy = true
  latency : 0 < p.latencyOf e.device

theorem Soc.Ticks.holding {p q : Soc} (h : p.Ticks q) {e : DeviceEntry} (k : p.Holding e) : q.Holding e := by
  refine ⟨k.kind, ?_, by simpa [Soc.latencyOf, h.cfg] using k.latency⟩
  have hb := k.busy
  unfold Soc.ramOf at *
  split at hb
  · rw [if_pos ‹_›, h.scratchBusy]; exact hb
  · rw [if_neg ‹_›, h.ramBusy]; exact hb

theorem Soc.Ticks.pending_le {p q : Soc} (h : p.Ticks q) (device : DeviceKind) :
    (q.ramOf device).pendingWait ≤ (p.ramOf device).pendingWait := by
  unfold Soc.ramOf
  split
  · exact h.scratchPending
  · exact h.ramPending

/-- A request on the bus that a device claims; if Wait is asserted, the device is in a latency count. -/
structure Soc.Requested (p : Soc) (e : DeviceEntry) : Prop where
  one : p.bus.read ≠ p.bus.write
  target : p.target p.bus.address = some e
  holds : p.bus.wait = true → p.Holding e

theorem Soc.target_mem {p : Soc} {a : Word} {e : DeviceEntry} (h : p.target a = some e) : e ∈ p.cfg.devices :=
  List.mem_of_find?_eq_some h

/-- The RAM's answer to a request (R62): it waits with a count, or it transfers. -/
theorem Ram.waiting_cases (r : Ram) (latency : Nat) :
    (∃ r', r.waiting latency = some r' ∧ 0 < latency ∧ r'.bytes = r.bytes ∧ r'.busy = true ∧
      0 < r'.pendingWait ∧ r'.pendingWait ≤ max latency r.pendingWait ∧
      (r.busy = true → 0 < r.pendingWait ∧ r' = r) ∧
      (r.busy = false → r'.pendingWait = latency)) ∨
    (r.waiting latency = none ∧ (r.busy = true → 0 < latency → r.pendingWait = 0) ∧
      (r.busy = false → latency = 0)) := by
  unfold Ram.waiting
  by_cases h0 : latency = 0
  · right; simp [h0]
  · cases hb : r.busy
    · left
      refine ⟨{ r with busy := true, pendingWait := latency }, by simp [h0], by omega, rfl, rfl, by simp; omega,
        by simp, by simp, by simp⟩
    · by_cases hp : r.pendingWait = 0
      · right; simp [h0, hp]
      · left
        exact ⟨r, by simp [h0, hp], by omega, rfl, hb, by omega, by simp, fun _ => ⟨by omega, rfl⟩, by simp⟩

/-- What the read handler of the bus tick does: either the serving RAM holds the transaction, and only its latency state
and a counter change, or the device transfers. -/
theorem Soc.serveRead_cases (p : Soc) (e : DeviceEntry) :
    (∃ r', (p.ramOf e.device).waiting (p.latencyOf e.device) = some r' ∧
      (e.device = .ram ∧ p.serveRead e =
          { p.countRead with ram := r', bus := { p.countRead.bus with wait := true } } ∨
        e.device = .scratchRam ∧ p.serveRead e =
          { p.countRead with scratch := r', bus := { p.countRead.bus with wait := true } })) ∨
    (∃ v q, p.serveRead e = { q with bus := { q.bus with data := v, wait := false } } ∧ p.Served q ∧
      ((e.device = .ram ∧ (p.ramOf e.device).waiting (p.latencyOf e.device) = none ∧
          v = p.ram.transferRead e.size (e.offset p.bus.address) ∧
          q = { p.countRead with ram := p.ram.settled p.cfg.ramLatency }) ∨
        (e.device = .scratchRam ∧ (p.ramOf e.device).waiting (p.latencyOf e.device) = none ∧
          v = p.scratch.transferRead e.size (e.offset p.bus.address) ∧
          q = { p.countRead with scratch := p.scratch.settled p.cfg.scratchLatency }) ∨
        (e.device ≠ .ram ∧ e.device ≠ .scratchRam ∧ (v, q) = p.countRead.transferRead e p.bus.address))) := by
  unfold Soc.serveRead Soc.handleRead
  cases hd : e.device <;> simp only
  case ram =>
    simp only [Soc.ramOf, Soc.latencyOf, reduceCtorEq, if_false]
    cases hw : p.ram.waiting p.cfg.ramLatency with
    | some r' =>
      refine .inl ⟨r', rfl, .inl ⟨trivial, ?_⟩⟩
      simp [Ram.read, Soc.countRead, hw]
    | none =>
      refine .inr ⟨_, _, ?_, ?_, .inl ⟨trivial, rfl, rfl, rfl⟩⟩
      · simp [Ram.read, Soc.countRead, hw]
      · exact ⟨rfl, rfl, rfl, rfl, rfl, rfl, rfl, .refl, fun h => by simpa [Soc.canonical, Soc.countRead] using h, id, le_rfl⟩
  case scratchRam =>
    simp only [Soc.ramOf, Soc.latencyOf, if_true]
    cases hw : p.scratch.waiting p.cfg.scratchLatency with
    | some r' =>
      refine .inl ⟨r', rfl, .inr ⟨trivial, ?_⟩⟩
      simp [Ram.read, Soc.countRead, hw]
    | none =>
      refine .inr ⟨_, _, ?_, ?_, .inr (.inl ⟨trivial, rfl, rfl, rfl⟩)⟩
      · simp [Ram.read, Soc.countRead, hw]
      · exact ⟨rfl, rfl, rfl, rfl, rfl, rfl, rfl, .refl, fun h => by simpa [Soc.canonical, Soc.countRead] using h, id, le_rfl⟩
  all_goals
    have ht := (p.countRead_transfers.trans (Soc.transferRead_transfers p.countRead e p.bus.address))
    refine .inr ⟨_, _, rfl, ht.served, .inr (.inr ⟨by simp, by simp, rfl⟩)⟩

/-- What the write handler of the bus tick does: the serving RAM holds the transaction, or the device transfers. -/
theorem Soc.serveWrite_cases (p : Soc) (e : DeviceEntry) :
    (∃ r', (p.ramOf e.device).waiting (p.latencyOf e.device) = some r' ∧
      (e.device = .ram ∧ p.serveWrite e =
          { p.countWrite with ram := r', bus := { p.countWrite.bus with wait := true } } ∨
        e.device = .scratchRam ∧ p.serveWrite e =
          { p.countWrite with scratch := r', bus := { p.countWrite.bus with wait := true } })) ∨
    (∃ q, p.serveWrite e = { q with bus := { q.bus with wait := false } } ∧ p.Served q ∧
      ((e.device = .ram ∧ (p.ramOf e.device).waiting (p.latencyOf e.device) = none ∧
          q = { p.countWrite with
            ram := (p.ram.transferWrite e.size (e.offset p.bus.address) p.bus.data).settled p.cfg.ramLatency }) ∨
        (e.device = .scratchRam ∧ (p.ramOf e.device).waiting (p.latencyOf e.device) = none ∧
          q = { p.countWrite with
            scratch :=
              (p.scratch.transferWrite e.size (e.offset p.bus.address) p.bus.data).settled p.cfg.scratchLatency }) ∨
        (e.device ≠ .ram ∧ e.device ≠ .scratchRam ∧
          q = p.countWrite.transferWrite e p.bus.address p.bus.data))) := by
  unfold Soc.serveWrite Soc.handleWrite
  cases hd : e.device <;> simp only
  case ram =>
    simp only [Soc.ramOf, Soc.latencyOf, reduceCtorEq, if_false]
    cases hw : p.ram.waiting p.cfg.ramLatency with
    | some r' =>
      refine .inl ⟨r', rfl, .inl ⟨trivial, ?_⟩⟩
      simp [Ram.write, Soc.countWrite, hw]
    | none =>
      refine .inr ⟨_, ?_, ?_, .inl ⟨trivial, rfl, rfl⟩⟩
      · simp [Ram.write, Soc.countWrite, hw]
      · refine ⟨rfl, rfl, rfl, rfl, rfl, rfl, rfl, .refl, fun h => ?_, id, le_rfl⟩
        have := Ram.wf_transferWrite h.1 e.size (e.offset p.bus.address) p.bus.data
        exact ⟨by simpa using this, h.2⟩
  case scratchRam =>
    simp only [Soc.ramOf, Soc.latencyOf, if_true]
    cases hw : p.scratch.waiting p.cfg.scratchLatency with
    | some r' =>
      refine .inl ⟨r', rfl, .inr ⟨trivial, ?_⟩⟩
      simp [Ram.write, Soc.countWrite, hw]
    | none =>
      refine .inr ⟨_, ?_, ?_, .inr (.inl ⟨trivial, rfl, rfl⟩)⟩
      · simp [Ram.write, Soc.countWrite, hw]
      · refine ⟨rfl, rfl, rfl, rfl, rfl, rfl, rfl, .refl, fun h => ?_, id, le_rfl⟩
        have := Ram.wf_transferWrite h.2.1 e.size (e.offset p.bus.address) p.bus.data
        exact ⟨h.1, by simpa using this, h.2.2⟩
  all_goals
    have ht := (p.countWrite_transfers.trans (Soc.transferWrite_transfers p.countWrite e p.bus.address p.bus.data))
    exact .inr ⟨_, rfl, ht.served, .inr (.inr ⟨by simp, by simp, rfl⟩)⟩

/-- The bus tick of a request that a device claims (R52). -/
theorem Soc.busTick_claimed {p : Soc} {e : DeviceEntry} (one : p.bus.read ≠ p.bus.write)
    (ht : p.target p.bus.address = some e) :
    p.busTick = .next (if p.bus.read then p.serveRead e else p.serveWrite e) := by
  unfold Soc.busTick
  cases hr : p.bus.read <;> cases hw : p.bus.write <;> simp_all

/-- The bus tick of a request that no device claims (R53). -/
theorem Soc.busTick_unclaimed {p : Soc} (one : p.bus.read ≠ p.bus.write) (ht : p.target p.bus.address = none) :
    p.busTick = .next { p with bus := p.bus.busFailure } := by
  unfold Soc.busTick
  cases hr : p.bus.read <;> cases hw : p.bus.write <;> simp_all

/-- A served request: what stays, and what a Wait means. A device already in its count waits only while the count is not
over; a new count is at most the latency. -/
theorem Soc.busTick_served {p : Soc} {e : DeviceEntry} (one : p.bus.read ≠ p.bus.write)
    (ht : p.target p.bus.address = some e) :
    ∃ q, p.busTick = .next q ∧ p.Served q ∧
      (q.bus.wait = true → q.Holding e ∧ 0 < (q.ramOf e.device).pendingWait ∧
        (q.ramOf e.device).pendingWait ≤ max (p.latencyOf e.device) (p.ramOf e.device).pendingWait ∧
        (p.Holding e → (q.ramOf e.device).pendingWait = (p.ramOf e.device).pendingWait)) := by
  refine ⟨_, Soc.busTick_claimed one ht, ?_⟩
  have key : ∀ r', (p.ramOf e.device).waiting (p.latencyOf e.device) = some r' →
      0 < p.latencyOf e.device ∧ r'.bytes = (p.ramOf e.device).bytes ∧ r'.busy = true ∧ 0 < r'.pendingWait ∧
      r'.pendingWait ≤ max (p.latencyOf e.device) (p.ramOf e.device).pendingWait ∧
      (p.Holding e → r'.pendingWait = (p.ramOf e.device).pendingWait) := by
    intro r' hr'
    rcases Ram.waiting_cases (p.ramOf e.device) (p.latencyOf e.device) with ⟨r, h, hl, hb, hy, hp, hm, hk, -⟩ | ⟨h, -⟩
    · rw [h] at hr'; cases hr'
      exact ⟨hl, hb, hy, hp, hm, fun k => by rw [(hk k.busy).2]⟩
    · rw [h] at hr'; cases hr'
  split
  · rcases p.serveRead_cases e with ⟨r', hw, ⟨hd, he⟩ | ⟨hd, he⟩⟩ | ⟨v, q, he, hq, -⟩
    · obtain ⟨hl, hb, hy, hp, hm, hk⟩ := key r' hw
      simp only [hd, Soc.ramOf, Soc.latencyOf, reduceCtorEq, if_false] at hb hl hp hm hk ⊢
      rw [he]
      refine ⟨⟨rfl, rfl, rfl, rfl, rfl, rfl, rfl, .refl, fun h => ⟨by rw [hb]; exact h.1, h.2⟩, id, le_rfl⟩, fun _ => ?_⟩
      exact ⟨⟨.inl hd, by simpa [hd, Soc.ramOf] using hy, by simpa [hd, Soc.latencyOf, Soc.countRead, Soc.countWrite] using hl⟩, hp, hm, hk⟩
    · obtain ⟨hl, hb, hy, hp, hm, hk⟩ := key r' hw
      simp only [hd, Soc.ramOf, Soc.latencyOf, if_true] at hb hl hp hm hk ⊢
      rw [he]
      refine ⟨⟨rfl, rfl, rfl, rfl, rfl, rfl, rfl, .refl, fun h => ⟨h.1, by rw [hb]; exact h.2.1, h.2.2⟩, id, le_rfl⟩, fun _ => ?_⟩
      exact ⟨⟨.inr hd, by simpa [hd, Soc.ramOf] using hy, by simpa [hd, Soc.latencyOf, Soc.countRead, Soc.countWrite] using hl⟩, hp, hm, hk⟩
    · rw [he]
      exact ⟨⟨hq.cfg, hq.address, hq.read, hq.write, hq.error, hq.ready, hq.irq, hq.storage, hq.canonical, hq.status, hq.fifo⟩, by simp⟩
  · rcases p.serveWrite_cases e with ⟨r', hw, ⟨hd, he⟩ | ⟨hd, he⟩⟩ | ⟨q, he, hq, -⟩
    · obtain ⟨hl, hb, hy, hp, hm, hk⟩ := key r' hw
      simp only [hd, Soc.ramOf, Soc.latencyOf, reduceCtorEq, if_false] at hb hl hp hm hk ⊢
      rw [he]
      refine ⟨⟨rfl, rfl, rfl, rfl, rfl, rfl, rfl, .refl, fun h => ⟨by rw [hb]; exact h.1, h.2⟩, id, le_rfl⟩, fun _ => ?_⟩
      exact ⟨⟨.inl hd, by simpa [hd, Soc.ramOf] using hy, by simpa [hd, Soc.latencyOf, Soc.countRead, Soc.countWrite] using hl⟩, hp, hm, hk⟩
    · obtain ⟨hl, hb, hy, hp, hm, hk⟩ := key r' hw
      simp only [hd, Soc.ramOf, Soc.latencyOf, if_true] at hb hl hp hm hk ⊢
      rw [he]
      refine ⟨⟨rfl, rfl, rfl, rfl, rfl, rfl, rfl, .refl, fun h => ⟨h.1, by rw [hb]; exact h.2.1, h.2.2⟩, id, le_rfl⟩, fun _ => ?_⟩
      exact ⟨⟨.inr hd, by simpa [hd, Soc.ramOf] using hy, by simpa [hd, Soc.latencyOf, Soc.countRead, Soc.countWrite] using hl⟩, hp, hm, hk⟩
    · rw [he]
      exact ⟨⟨hq.cfg, hq.address, hq.read, hq.write, hq.error, hq.ready, hq.irq, hq.storage, hq.canonical, hq.status, hq.fifo⟩, by simp⟩

/-- The ticks of a cycle bring the count of a busy RAM of the device table down. -/
theorem Soc.deviceTicks_pending_lt {p : Soc} {e : DeviceEntry} (he : e ∈ p.cfg.devices) (h : p.Holding e)
    (hp : 0 < (p.ramOf e.device).pendingWait) :
    (p.deviceTicks.ramOf e.device).pendingWait < (p.ramOf e.device).pendingWait := by
  have tick : ∀ q : Soc, q.Holding e → 0 < (q.ramOf e.device).pendingWait →
      ((q.deviceTick e).ramOf e.device).pendingWait < (q.ramOf e.device).pendingWait := by
    intro q hq hw
    have hb := hq.busy
    unfold Soc.deviceTick
    rcases hq.kind with hd | hd <;>
    · simp only [hd, Soc.ramOf, reduceCtorEq, if_false, if_true] at *
      simp only [Ram.tick, hb, hw, decide_true, Bool.and_self, if_true]
      omega
  have fold : ∀ (l : List DeviceEntry) (q : Soc), e ∈ l → q.Holding e → 0 < (q.ramOf e.device).pendingWait →
      ((l.foldl Soc.deviceTick q).ramOf e.device).pendingWait < (q.ramOf e.device).pendingWait := by
    intro l
    induction l with
    | nil => intro q hm; cases hm
    | cons d rest ih =>
      intro q hm hq hw
      have hd := q.deviceTick_ticks d
      rw [List.foldl_cons]
      by_cases hde : d = e
      · subst hde
        exact lt_of_le_of_lt ((Soc.foldl_deviceTick_ticks _ rest).pending_le _) (tick q hq hw)
      · rcases Nat.eq_zero_or_pos ((q.deviceTick d).ramOf e.device).pendingWait with h0 | h0
        · have := (Soc.foldl_deviceTick_ticks (q.deviceTick d) rest).pending_le e.device
          omega
        · have hm' : e ∈ rest := by
            rcases List.mem_cons.mp hm with h | h
            · exact absurd h.symm hde
            · exact h
          exact lt_of_lt_of_le (ih _ hm' (hd.holding hq) h0) (hd.pending_le _)
  exact fold _ p he h hp

/-! ## Whole transactions -/

/-- One cycle of a request that a device claims. -/
theorem Soc.cycle_served {p : Soc} {e : DeviceEntry} (one : p.bus.read ≠ p.bus.write)
    (ht : p.target p.bus.address = some e) :
    ∃ q, p.cycle = .next q ∧ p.Served q ∧ q.Requested e ∧
      (q.bus.wait = true → (q.ramOf e.device).pendingWait < max (p.latencyOf e.device) (p.ramOf e.device).pendingWait ∧
        (p.Holding e → (q.ramOf e.device).pendingWait < (p.ramOf e.device).pendingWait)) := by
  obtain ⟨q, hq, hs, hw⟩ := Soc.busTick_served one ht
  have ticks := q.deviceTicks_ticks
  have hs' := hs.trans ticks.served
  refine ⟨q.deviceTicks, by simp [Soc.cycle, hq], hs', ⟨by rw [hs'.read, hs'.write]; exact one, ?_, ?_⟩, ?_⟩
  · rw [hs'.address, ticks.target]
    simpa [Soc.target, hs.cfg] using ht
  · intro h
    rw [ticks.wait] at h
    exact ticks.holding (hw h).1
  · intro h
    rw [ticks.wait] at h
    obtain ⟨hh, h0, hm, hk⟩ := hw h
    have hmem : e ∈ q.cfg.devices := by rw [hs.cfg]; exact Soc.target_mem ht
    have hlt := Soc.deviceTicks_pending_lt hmem hh h0
    exact ⟨lt_of_lt_of_le hlt hm, fun k => by rw [← hk k]; exact hlt⟩

/-- The wait states of a claimed request end with Wait clear, when their number is above the count. What a waiting cycle
keeps (`J`) holds at the end. -/
theorem waitStates_claimed {e : DeviceEntry} (J : Soc → Prop)
    (hJ : ∀ p q : Soc, J p → p.Requested e → p.bus.wait = true → p.cycle = .next q → J q) :
    ∀ (n : Nat) (s : State), s.soc.Requested e →
      (s.soc.bus.wait = true → (s.soc.ramOf e.device).pendingWait < n) → J s.soc →
      ∃ q, s.waitStates n = .next { s with soc := q } ∧ q.bus.wait = false ∧ q.Requested e ∧ s.soc.Served q ∧ J q := by
  intro n
  induction n with
  | zero =>
    intro s hr hn hj
    have hw : s.soc.bus.wait = false := by
      by_contra h
      exact absurd (hn (by simpa using h)) (by omega)
    exact ⟨s.soc, rfl, hw, hr, .refl _, hj⟩
  | succ n ih =>
    intro s hr hn hj
    unfold State.waitStates
    cases hw : s.soc.bus.wait
    · exact ⟨s.soc, by simp, hw, hr, .refl _, hj⟩
    · have hclaimed : s.soc.claimed = true := by simp [Soc.claimed, hr.target]
      obtain ⟨q, hq, hs, hrq, hlt⟩ := Soc.cycle_served hr.one hr.target
      have hn' := hn hw
      rw [hclaimed, Bool.and_self, if_pos rfl, finishCycle_eq hq, andThen_next]
      obtain ⟨r, h1, h2, h3, h4, h5⟩ := ih { s with soc := q } hrq
        (fun h => by have := (hlt h).2 (hr.holds hw); dsimp only at *; omega) (hJ _ _ hj hr hw hq)
      exact ⟨r, h1, h2, h3, hs.trans h4, h5⟩

/-- A transaction that a device claims completes: the wait states end, and the latch tick follows. -/
theorem transaction_claimed {s : State} {e : DeviceEntry} (one : s.soc.bus.read ≠ s.soc.bus.write)
    (ht : s.soc.target s.soc.bus.address = some e) (J : Soc → Prop)
    (h0 : ∀ q, s.soc.cycle = .next q → J q)
    (hJ : ∀ p q : Soc, J p → p.Requested e → p.bus.wait = true → p.cycle = .next q → J q) :
    ∃ q, (∀ latch, andThen s.finishCycle (fun t => t.completeTransaction latch) =
        (latch { s with soc := q }).finishCycle) ∧
      q.bus.wait = false ∧ q.Requested e ∧ s.soc.Served q ∧ J q := by
  obtain ⟨p, hp, hs, hr, hlt⟩ := Soc.cycle_served one ht
  have hbound : p.bus.wait = true → (p.ramOf e.device).pendingWait < p.waitBound := by
    intro h
    have hl := (hr.holds h).latency
    unfold Soc.waitBound
    unfold Soc.latencyOf at hl
    unfold Soc.ramOf
    split at hl
    · rw [if_pos ‹_›]; omega
    · rw [if_neg ‹_›]; omega
  obtain ⟨q, h1, h2, h3, h4, h5⟩ :=
    waitStates_claimed J hJ p.waitBound { s with soc := p } hr hbound (h0 p hp)
  refine ⟨q, fun latch => ?_, h2, h3, hs.trans h4, h5⟩
  rw [finishCycle_eq hp, andThen_next]
  unfold State.completeTransaction
  rw [h1, andThen_next]
  simp [h2]

/-- The cycle of a request that no device claims: Error and Wait, and the ticks (R53). -/
theorem Soc.cycle_unclaimed {p : Soc} (one : p.bus.read ≠ p.bus.write) (ht : p.target p.bus.address = none) :
    p.cycle = .next (Soc.deviceTicks { p with bus := p.bus.busFailure }) := by
  simp [Soc.cycle, Soc.busTick_unclaimed one ht]

/-- A transaction that no device claims leaves the CPU waiting (R353). -/
theorem transaction_unclaimed {s : State} (one : s.soc.bus.read ≠ s.soc.bus.write)
    (ht : s.soc.target s.soc.bus.address = none) (latch : State → State) :
    andThen s.finishCycle (fun t => t.completeTransaction latch) =
      .next { s with soc := Soc.deviceTicks { s.soc with bus := s.soc.bus.busFailure } } := by
  have ticks := Soc.deviceTicks_ticks { s.soc with bus := s.soc.bus.busFailure }
  have hw := ticks.wait
  have hc : (Soc.deviceTicks { s.soc with bus := s.soc.bus.busFailure }).claimed = false := by
    unfold Soc.claimed
    rw [ticks.target, ticks.address]
    simpa [Bus.busFailure, Soc.target] using ht
  rw [finishCycle_eq (Soc.cycle_unclaimed one ht), andThen_next]
  unfold State.completeTransaction
  have stop : ∀ n (t : State), t.soc.claimed = false → t.waitStates n = .next t := by
    intro n t ht
    cases n <;> simp [State.waitStates, ht]
  rw [stop _ _ hc, andThen_next]
  simp only [Bus.busFailure] at hw
  simp [hw, Bus.busFailure]

end Sys2Proof.Machine
end

