-- ==== Sys2Proof/Laws/Encoding.lean ====
section
/-! SUPPORT. The fields of an encoded word (30_encoding.md R91, R95). -/

namespace Sys2Proof

/-- The five fields of an encoded word are the ones put in; of the tag, its low six bits. -/
theorem encodeFields_fields (tag : BitVec 8) (rd rn rm : RegIdx) (imm11 : BitVec 11) :
    (encodeFields tag rd rn rm imm11).extractLsb' 26 6 = tag.setWidth 6 ∧
    (encodeFields tag rd rn rm imm11).extractLsb' 21 5 = BitVec.ofFin rd ∧
    (encodeFields tag rd rn rm imm11).extractLsb' 16 5 = BitVec.ofFin rn ∧
    (encodeFields tag rd rn rm imm11).extractLsb' 11 5 = BitVec.ofFin rm ∧
    (encodeFields tag rd rn rm imm11).extractLsb' 0 11 = imm11 := by
  unfold encodeFields
  generalize BitVec.ofFin (w := 5) rd = d
  generalize BitVec.ofFin (w := 5) rn = n
  generalize BitVec.ofFin (w := 5) rm = m
  refine ⟨?_, ?_, ?_, ?_, ?_⟩ <;>
  · apply BitVec.eq_of_getLsbD_eq
    intro i hi
    interval_cases i <;> simp

/-- Decoding an encoded word, field by field. -/
theorem decode_encodeFields (tag : BitVec 8) (rd rn rm : RegIdx) (imm11 : BitVec 11) :
    decode (encodeFields tag rd rn rm imm11) =
      { op := Op.ofField (tag.setWidth 6)
        rd := rd
        rn := rn
        rm := rm
        imm := (Op.ofField (tag.setWidth 6)).shape.immediate64 imm11 } := by
  obtain ⟨h1, h2, h3, h4, h5⟩ := encodeFields_fields tag rd rn rm imm11
  simp only [decode, h1, h2, h3, h4, h5]

/-- The field of an opcode's tag is the opcode's. -/
theorem Op.ofField_tag {op : Op} (h : ∀ f, op ≠ .reserved f) : Op.ofField (op.tag.setWidth 6) = op := by
  cases op <;> first | rfl | exact absurd rfl (h _)

/-- No instruction has a reserved opcode. -/
theorem Instr.decoded_op_ne_reserved (i : Instr) (f : BitVec 6) : i.decoded.op ≠ .reserved f := by
  cases i <;> simp [Instr.decoded]

end Sys2Proof
end

