-- ==== Sys2Proof/Laws/Exec.lean ====
section
/-! SUPPORT. What the sequences of cycles that instructions are made of can do: one lemma per sequence of
Machine/Stages.lean, cited instead of unfolding it. -/

namespace Sys2Proof.Machine

/-! ## Sequences without a transaction -/

/-- Decode, Execute and WriteBack with an idle bus: the CPU's three stage steps, and three rounds of device ticks. -/
theorem threeCycles_idle {s : State} (h : s.soc.busIdle) {d e w : State → State}
    (hd : ∀ t, (d t).soc = t.soc) (he : ∀ t, (e t).soc = t.soc) (hw : ∀ t, (w t).soc = t.soc) :
    ∃ t, s.threeCycles d e w = .next { t with soc := Soc.afterTicks 3 s.soc } ∧
      t = w { e { d s with soc := s.soc.deviceTicks } with soc := Soc.afterTicks 2 s.soc } := by
  have t1 := s.soc.deviceTicks_ticks
  have h1 := t1.busIdle h
  have h2 := s.soc.deviceTicks.deviceTicks_ticks.busIdle h1
  refine ⟨_, ?_, rfl⟩
  unfold State.threeCycles
  rw [finishCycle_idle (by rw [hd]; exact h), andThen_next, finishCycle_idle (by rw [he, hd]; exact h1), andThen_next,
    finishCycle_idle (by rw [hw, he, hd]; exact h2), hw, he, hd]
  rfl

/-- A register-shaped ALU instruction with an idle bus (R163). -/
theorem aluInstruction_idle {s : State} (h : s.soc.busIdle) (op : AluOp) (rd rn rm : RegIdx) :
    s.aluInstruction op rd rn rm = .next
      { cpu := { s.cpu with
          x := s.cpu.x.set rd (op.result (s.cpu.reg rn) (s.cpu.reg rm))
          pc := s.cpu.pc + 4
          flags := (alu op (s.cpu.reg rn) (s.cpu.reg rm) s.cpu.flags).2
          stage := .fetch
          uop := 0
          opA := s.cpu.reg rn
          opB := s.cpu.reg rm
          aluResult := op.result (s.cpu.reg rn) (s.cpu.reg rm) }
        soc := Soc.afterTicks 3 s.soc } := by
  obtain ⟨t, ht, rfl⟩ := threeCycles_idle h (d := fun s => s.readRegisterOperands rn rm)
    (e := fun s => s.executeAlu op) (w := fun s => s.writeBackResult rd) (fun _ => rfl) (fun _ => rfl) (fun _ => rfl)
  exact ht

/-- A taken branch with an idle bus (R194). -/
theorem branchInstruction_taken {s : State} (h : s.soc.busIdle) (imm : Word) {taken : Flags → Bool}
    (ht : taken s.cpu.flags = true) :
    s.branchInstruction imm taken = .next
      { cpu := { s.cpu with pc := s.cpu.pc + imm, stage := .fetch, uop := 0, opB := imm }
        soc := Soc.afterTicks 2 s.soc } := by
  unfold State.branchInstruction
  rw [finishCycle_idle (by rw [readBranchOperand_soc]; exact h), andThen_next]
  simp only [readBranchOperand_flags, ht, executeBranch_taken, readBranchOperand_soc]
  rw [finishCycle_idle (s.soc.deviceTicks_ticks.busIdle h), andThen_next]
  rfl

/-- A branch not taken with an idle bus (R192, R193). -/
theorem branchInstruction_not_taken {s : State} (h : s.soc.busIdle) (imm : Word) {taken : Flags → Bool}
    (ht : taken s.cpu.flags = false) :
    s.branchInstruction imm taken = .next
      { cpu := { s.cpu with pc := s.cpu.pc + 4, stage := .fetch, uop := 0, opB := imm }
        soc := Soc.afterTicks 3 s.soc } := by
  have h1 := s.soc.deviceTicks_ticks.busIdle h
  unfold State.branchInstruction
  rw [finishCycle_idle (by rw [readBranchOperand_soc]; exact h), andThen_next]
  simp only [readBranchOperand_flags, ht, executeBranch_not_taken, readBranchOperand_soc]
  rw [finishCycle_idle h1, andThen_next, if_pos rfl,
    finishCycle_idle (s.soc.deviceTicks.deviceTicks_ticks.busIdle h1)]
  rfl

/-! ## Loads and stores -/

/-- The bus when an LDR has put its request on it (R126). -/
def Soc.loadRequest (p : Soc) (a : Word) : Soc := { p with bus := { p.bus with address := a, read := true } }

/-- The bus when an STR has put its request on it (R126). -/
def Soc.storeRequest (p : Soc) (a v : Word) : Soc :=
  { p with bus := { p.bus with address := a, data := v, write := true } }

/-- The CPU in Memory micro-op 1 of a load or store: effective address latched, request made. -/
def Cpu.inMemory (c : Cpu) (rn : RegIdx) (imm : Word) : Cpu :=
  { c with
    stage := .memory
    uop := 1
    opA := c.reg rn
    opB := imm
    aluResult := c.reg rn + imm }

/-- A load or store up to its request: Decode and Execute with an idle bus. -/
theorem memoryInstruction_request {s : State} (h : s.soc.busIdle) (rn : RegIdx) (imm : Word)
    (request latch writeBack : State → State) :
    s.memoryInstruction rn imm request latch writeBack =
      andThen (request
        { cpu := { s.cpu.inMemory rn imm with uop := 0 }, soc := Soc.afterTicks 2 s.soc }).finishCycle fun s =>
      andThen (s.completeTransaction latch) fun s =>
        if s.cpu.stage = .writeBack then (writeBack s).finishCycle else .next s := by
  unfold State.memoryInstruction
  rw [finishCycle_idle (by rw [readImmediateOperands_soc]; exact h), andThen_next,
    finishCycle_idle (by
      rw [executeAddress_soc, readImmediateOperands_soc]; exact s.soc.deviceTicks_ticks.busIdle h), andThen_next]
  rfl

/-- The request of a load on an idle bus. -/
theorem Soc.loadRequest_one {p : Soc} (h : p.busIdle) (a : Word) :
    (p.loadRequest a).bus.read ≠ (p.loadRequest a).bus.write := by
  simp [Soc.loadRequest, h.2]

/-- The request of a store on an idle bus. -/
theorem Soc.storeRequest_one {p : Soc} (h : p.busIdle) (a v : Word) :
    (p.storeRequest a v).bus.read ≠ (p.storeRequest a v).bus.write := by
  simp [Soc.storeRequest, h.1]

/-- A load that a device claims completes (R180): the value on the data lines goes into `x[rd]`. What the request cycle
establishes and waiting cycles keep (`J`) holds of the machine whose data lines are latched. -/
theorem load_claimed {s : State} (h : s.soc.busIdle) (rd rn : RegIdx) (imm : Word) {e : DeviceEntry}
    (ht : s.soc.target (s.effectiveAddress rn imm) = some e) (J : Soc → Prop)
    (h0 : ∀ q, ((Soc.afterTicks 2 s.soc).loadRequest (s.effectiveAddress rn imm)).cycle = .next q → J q)
    (hJ : ∀ p q : Soc, J p → p.Requested e → p.bus.wait = true → p.cycle = .next q → J q) :
    ∃ q, s.memoryInstruction rn imm State.requestLoad State.latchLoad (fun s => s.writeBackLoad rd) = .next
        { cpu := { s.cpu with
            x := s.cpu.x.set rd q.bus.data
            pc := s.cpu.pc + 4
            stage := .fetch
            uop := 0
            opA := s.cpu.reg rn
            opB := imm
            aluResult := s.effectiveAddress rn imm
            memData := q.bus.data }
          soc := Soc.afterTicks 2 { q with bus := { q.bus with read := false } } } ∧
      q.bus.wait = false ∧ q.Requested e ∧
      ((Soc.afterTicks 2 s.soc).loadRequest (s.effectiveAddress rn imm)).Served q ∧ J q := by
  have t2 := s.soc.afterTicks_ticks 2
  have i2 := t2.busIdle h
  obtain ⟨q, hq, hw, hr, hs, hj⟩ := transaction_claimed
    (s := State.requestLoad { cpu := { s.cpu.inMemory rn imm with uop := 0 }, soc := Soc.afterTicks 2 s.soc })
    (e := e) (Soc.loadRequest_one i2 _) (by
      show (Soc.loadRequest _ _).target _ = _
      exact (t2.target _).trans ht) J h0 hJ
  refine ⟨q, ?_, hw, hr, hs, hj⟩
  have i3 : Soc.busIdle { q with bus := { q.bus with read := false } } := ⟨rfl, hs.write.trans i2.2⟩
  have i4 := (Soc.deviceTicks_ticks { q with bus := { q.bus with read := false } }).busIdle i3
  rw [memoryInstruction_request h, ← andThen_assoc, hq State.latchLoad,
    finishCycle_idle (by rw [latchLoad_soc]; exact i3), andThen_next]
  simp only [latchLoad_stage, if_true]
  rw [finishCycle_idle (by rw [writeBackLoad_soc, latchLoad_soc]; exact i4)]
  rfl

/-- A store that a device claims completes (R181). -/
theorem store_claimed {s : State} (h : s.soc.busIdle) (rd rn : RegIdx) (imm : Word) {e : DeviceEntry}
    (ht : s.soc.target (s.effectiveAddress rn imm) = some e) (J : Soc → Prop)
    (h0 : ∀ q, ((Soc.afterTicks 2 s.soc).storeRequest (s.effectiveAddress rn imm) (s.cpu.reg rd)).cycle = .next q → J q)
    (hJ : ∀ p q : Soc, J p → p.Requested e → p.bus.wait = true → p.cycle = .next q → J q) :
    ∃ q, s.memoryInstruction rn imm (fun s => s.requestStore rd) State.latchStore State.writeBackNone = .next
        { cpu := { s.cpu with
            pc := s.cpu.pc + 4
            stage := .fetch
            uop := 0
            opA := s.cpu.reg rn
            opB := imm
            aluResult := s.effectiveAddress rn imm }
          soc := Soc.afterTicks 2 { q with bus := { q.bus with write := false } } } ∧
      q.bus.wait = false ∧ q.Requested e ∧
      ((Soc.afterTicks 2 s.soc).storeRequest (s.effectiveAddress rn imm) (s.cpu.reg rd)).Served q ∧ J q := by
  have t2 := s.soc.afterTicks_ticks 2
  have i2 := t2.busIdle h
  obtain ⟨q, hq, hw, hr, hs, hj⟩ := transaction_claimed
    (s := State.requestStore { cpu := { s.cpu.inMemory rn imm with uop := 0 }, soc := Soc.afterTicks 2 s.soc } rd)
    (e := e) (Soc.storeRequest_one i2 _ _) (by
      show (Soc.storeRequest _ _ _).target _ = _
      exact (t2.target _).trans ht) J h0 hJ
  refine ⟨q, ?_, hw, hr, hs, hj⟩
  have i3 : Soc.busIdle { q with bus := { q.bus with write := false } } := ⟨hs.read.trans i2.1, rfl⟩
  have i4 := (Soc.deviceTicks_ticks { q with bus := { q.bus with write := false } }).busIdle i3
  rw [memoryInstruction_request h, ← andThen_assoc, hq State.latchStore,
    finishCycle_idle (by rw [latchStore_soc]; exact i3), andThen_next]
  simp only [latchStore_stage, if_true]
  rw [finishCycle_idle (by rw [writeBackNone_soc, latchStore_soc]; exact i4)]
  rfl

/-- A load that no device claims leaves the CPU stuck in Memory micro-op 1 (R353). -/
theorem load_unclaimed {s : State} (h : s.soc.busIdle) (rd rn : RegIdx) (imm : Word)
    (ht : s.soc.target (s.effectiveAddress rn imm) = none) :
    ∃ q, s.memoryInstruction rn imm State.requestLoad State.latchLoad (fun s => s.writeBackLoad rd) = .next
        { cpu := s.cpu.inMemory rn imm, soc := q.deviceTicks } ∧
      q = { (Soc.afterTicks 2 s.soc).loadRequest (s.effectiveAddress rn imm) with
            bus := ((Soc.afterTicks 2 s.soc).loadRequest (s.effectiveAddress rn imm)).bus.busFailure } := by
  have t2 := s.soc.afterTicks_ticks 2
  have i2 := t2.busIdle h
  have hu := transaction_unclaimed
    (s := State.requestLoad { cpu := { s.cpu.inMemory rn imm with uop := 0 }, soc := Soc.afterTicks 2 s.soc })
    (Soc.loadRequest_one i2 _) (by
      show (Soc.loadRequest _ _).target _ = _
      exact (t2.target _).trans ht) State.latchLoad
  refine ⟨_, ?_, rfl⟩
  rw [memoryInstruction_request h, ← andThen_assoc, hu, andThen_next]
  rfl

/-- A store that no device claims leaves the CPU stuck in Memory micro-op 1 (R353). -/
theorem store_unclaimed {s : State} (h : s.soc.busIdle) (rd rn : RegIdx) (imm : Word)
    (ht : s.soc.target (s.effectiveAddress rn imm) = none) :
    ∃ q, s.memoryInstruction rn imm (fun s => s.requestStore rd) State.latchStore State.writeBackNone = .next
        { cpu := s.cpu.inMemory rn imm, soc := q.deviceTicks } ∧
      q = { (Soc.afterTicks 2 s.soc).storeRequest (s.effectiveAddress rn imm) (s.cpu.reg rd) with
            bus := ((Soc.afterTicks 2 s.soc).storeRequest (s.effectiveAddress rn imm) (s.cpu.reg rd)).bus.busFailure } := by
  have t2 := s.soc.afterTicks_ticks 2
  have i2 := t2.busIdle h
  have hu := transaction_unclaimed
    (s := State.requestStore { cpu := { s.cpu.inMemory rn imm with uop := 0 }, soc := Soc.afterTicks 2 s.soc } rd)
    (Soc.storeRequest_one i2 _ _) (by
      show (Soc.storeRequest _ _ _).target _ = _
      exact (t2.target _).trans ht) State.latchStore
  refine ⟨_, ?_, rfl⟩
  rw [memoryInstruction_request h, ← andThen_assoc, hu, andThen_next]
  rfl

/-! ## The fetch -/

/-- The bus when Fetch has put its request on it (R122). -/
def Soc.fetchRequest (p : Soc) (pc : Word) : Soc :=
  { p with bus := { p.bus with address := pc, read := true, write := false } }

theorem Soc.fetchRequest_one (p : Soc) (pc : Word) :
    (p.fetchRequest pc).bus.read ≠ (p.fetchRequest pc).bus.write := by
  simp [Soc.fetchRequest]

/-- A fetch that a device claims latches the instruction on the data lines (R123). -/
theorem fetch_claimed {s : State} (ha : s.cpu.pc.toNat % 4 = 0) {e : DeviceEntry}
    (ht : s.soc.target s.cpu.pc = some e) (J : Soc → Prop)
    (h0 : ∀ q, (s.soc.fetchRequest s.cpu.pc).cycle = .next q → J q)
    (hJ : ∀ p q : Soc, J p → p.Requested e → p.bus.wait = true → p.cycle = .next q → J q) :
    ∃ q, s.fetch = .next
        { cpu := { s.cpu with instr := decode (q.bus.data.extractLsb' 0 32), stage := .decode, uop := 0 }
          soc := Soc.deviceTicks { q with bus := { q.bus with read := false } } } ∧
      q.bus.wait = false ∧ q.Requested e ∧ (s.soc.fetchRequest s.cpu.pc).Served q ∧ J q := by
  obtain ⟨q, hq, hw, hr, hs, hj⟩ := transaction_claimed
    (s := { cpu := { s.cpu with uop := 1 }, soc := s.soc.fetchRequest s.cpu.pc })
    (e := e) (s.soc.fetchRequest_one _) ht J h0 hJ
  refine ⟨q, ?_, hw, hr, hs, hj⟩
  have i3 : Soc.busIdle { q with bus := { q.bus with read := false } } := ⟨rfl, hs.write⟩
  unfold State.fetch State.fetchRequest
  rw [if_pos ha, andThen_next]
  refine (hq State.fetchLatch).trans ?_
  rw [finishCycle_idle (by rw [fetchLatch_soc]; exact i3)]
  rfl

/-- A fetch that no device claims leaves the CPU stuck in Fetch micro-op 1 (R353). -/
theorem fetch_unclaimed {s : State} (ha : s.cpu.pc.toNat % 4 = 0) (ht : s.soc.target s.cpu.pc = none) :
    s.fetch = .next
      { cpu := { s.cpu with uop := 1 }
        soc := Soc.deviceTicks { s.soc.fetchRequest s.cpu.pc with
          bus := (s.soc.fetchRequest s.cpu.pc).bus.busFailure } } := by
  unfold State.fetch State.fetchRequest
  rw [if_pos ha, andThen_next]
  exact transaction_unclaimed (s := { cpu := { s.cpu with uop := 1 }, soc := s.soc.fetchRequest s.cpu.pc })
    (s.soc.fetchRequest_one _) ht State.fetchLatch

/-- A fetch at a `pc` that is not a multiple of 4 is refused (R66). -/
theorem fetch_unaligned {s : State} (ha : s.cpu.pc.toNat % 4 ≠ 0) :
    s.fetch = .refused (.unalignedFetch s.cpu.pc) := by
  unfold State.fetch State.fetchRequest
  rw [if_neg ha]
  rfl

end Sys2Proof.Machine
end

