-- ==== Sys2Proof/Laws/PerInstr.lean ====
section
/-! SUPPORT. The statements made for all instructions, one lemma per constructor. -/

namespace Sys2Proof.Laws.OpcodeField

/-- The value of bits 31..26 that the opcode table gives each instruction (30_encoding.md R97, column "field"). -/
def field : Instr → Nat
  | .nop _ _ _ _ => 0x00
  | .add _ _ _ _ => 0x01
  | .sub _ _ _ _ => 0x02
  | .and _ _ _ _ => 0x03
  | .or _ _ _ _ => 0x04
  | .xor _ _ _ _ => 0x05
  | .lsl _ _ _ _ => 0x06
  | .lsr _ _ _ _ => 0x07
  | .asr _ _ _ _ => 0x08
  | .cmp _ _ _ _ => 0x09
  | .ldr _ _ _ _ => 0x10
  | .str _ _ _ _ => 0x11
  | .mov _ _ _ _ => 0x20
  | .b _ _ _ _ => 0x30
  | .beq _ _ _ _ => 0x31
  | .bne _ _ _ _ => 0x32
  | .halt _ _ _ _ => 0x3F

/-- The word of an instruction has the table's opcode field, whatever its operands (R95, R97, R98). -/
def Statement (i : Instr) : Prop :=
  ((encode i).extractLsb' 26 6).toNat = field i

/-- The opcode field of any encoded instruction. -/
theorem encode_field (i : Instr) : (encode i).extractLsb' 26 6 = i.decoded.op.tag.setWidth 6 :=
  (encodeFields_fields _ _ _ _ _).1

theorem nop (rd rn rm : RegIdx) (imm : Word) : Statement (.nop rd rn rm imm) :=
  congrArg BitVec.toNat (encode_field (.nop rd rn rm imm))

theorem add (rd rn rm : RegIdx) (imm : Word) : Statement (.add rd rn rm imm) :=
  congrArg BitVec.toNat (encode_field (.add rd rn rm imm))

theorem sub (rd rn rm : RegIdx) (imm : Word) : Statement (.sub rd rn rm imm) :=
  congrArg BitVec.toNat (encode_field (.sub rd rn rm imm))

theorem and (rd rn rm : RegIdx) (imm : Word) : Statement (.and rd rn rm imm) :=
  congrArg BitVec.toNat (encode_field (.and rd rn rm imm))

theorem or (rd rn rm : RegIdx) (imm : Word) : Statement (.or rd rn rm imm) :=
  congrArg BitVec.toNat (encode_field (.or rd rn rm imm))

theorem xor (rd rn rm : RegIdx) (imm : Word) : Statement (.xor rd rn rm imm) :=
  congrArg BitVec.toNat (encode_field (.xor rd rn rm imm))

theorem lsl (rd rn rm : RegIdx) (imm : Word) : Statement (.lsl rd rn rm imm) :=
  congrArg BitVec.toNat (encode_field (.lsl rd rn rm imm))

theorem lsr (rd rn rm : RegIdx) (imm : Word) : Statement (.lsr rd rn rm imm) :=
  congrArg BitVec.toNat (encode_field (.lsr rd rn rm imm))

theorem asr (rd rn rm : RegIdx) (imm : Word) : Statement (.asr rd rn rm imm) :=
  congrArg BitVec.toNat (encode_field (.asr rd rn rm imm))

theorem cmp (rd rn rm : RegIdx) (imm : Word) : Statement (.cmp rd rn rm imm) :=
  congrArg BitVec.toNat (encode_field (.cmp rd rn rm imm))

theorem ldr (rd rn rm : RegIdx) (imm : Word) : Statement (.ldr rd rn rm imm) :=
  congrArg BitVec.toNat (encode_field (.ldr rd rn rm imm))

theorem str (rd rn rm : RegIdx) (imm : Word) : Statement (.str rd rn rm imm) :=
  congrArg BitVec.toNat (encode_field (.str rd rn rm imm))

theorem mov (rd rn rm : RegIdx) (imm : Word) : Statement (.mov rd rn rm imm) :=
  congrArg BitVec.toNat (encode_field (.mov rd rn rm imm))

theorem b (rd rn rm : RegIdx) (imm : Word) : Statement (.b rd rn rm imm) :=
  congrArg BitVec.toNat (encode_field (.b rd rn rm imm))

theorem beq (rd rn rm : RegIdx) (imm : Word) : Statement (.beq rd rn rm imm) :=
  congrArg BitVec.toNat (encode_field (.beq rd rn rm imm))

theorem bne (rd rn rm : RegIdx) (imm : Word) : Statement (.bne rd rn rm imm) :=
  congrArg BitVec.toNat (encode_field (.bne rd rn rm imm))

theorem halt (rd rn rm : RegIdx) (imm : Word) : Statement (.halt rd rn rm imm) := by
  simp [Statement, encode_field, field, Instr.decoded, Op.tag]

end Sys2Proof.Laws.OpcodeField
end

