-- ==== Sys2Proof/Laws/Transfers.lean ====
section
/-! SUPPORT. What a cycle with a request does while the controller is quiet, device by device: the value a read puts on the
data lines, the bytes a write stores, and what both leave alone. -/

namespace Sys2Proof.Machine

/-- What a request to RAM, scratch RAM or a peripheral leaves alone. -/
structure Soc.Calm (p q : Soc) : Prop where
  ctrl : q.ctrl = p.ctrl
  storage : q.storage = p.storage
  cfg : q.cfg = p.cfg

theorem Soc.Calm.refl (p : Soc) : p.Calm p := ⟨rfl, rfl, rfl⟩

theorem Soc.Calm.trans {p q r : Soc} (h : p.Calm q) (k : q.Calm r) : p.Calm r :=
  ⟨k.ctrl.trans h.ctrl, k.storage.trans h.storage, k.cfg.trans h.cfg⟩

theorem Soc.Calm.quiet {p q : Soc} (h : p.Calm q) (hq : p.quiet) : q.quiet := by
  simpa [Soc.quiet, h.ctrl] using hq

theorem Soc.QuietTicks.calm {p q : Soc} (h : p.QuietTicks q) : p.Calm q :=
  ⟨h.ctrl, h.storage, h.ticks.cfg⟩

theorem Soc.Calm.target {p q : Soc} (h : p.Calm q) (a : Word) : q.target a = p.target a := by
  simp [Soc.target, h.cfg]

theorem Soc.QuietTicks.bytesOf {p q : Soc} (h : p.QuietTicks q) (device : DeviceKind) :
    (q.ramOf device).bytes = (p.ramOf device).bytes := by
  unfold Soc.ramOf
  split
  · exact h.scratchBytes
  · exact h.ramBytes

/-- A cycle ends in the device ticks of what the bus tick answers. -/
theorem Soc.cycle_eq {p q : Soc} (h : p.busTick = .next q) : p.cycle = .next q.deviceTicks := by
  simp [Soc.cycle, h]

/-- A cycle with a read request to RAM or scratch RAM (R61, R62, R367): no byte of either changes; where Wait is clear after
it, the data lines hold what the device reads at the address, and it is no longer busy. -/
theorem Soc.cycle_ramRead {p q : Soc} {e : DeviceEntry} (hr : p.bus.read = true) (hw : p.bus.write = false)
    (ht : p.target p.bus.address = some e) (hd : e.device = .ram ∨ e.device = .scratchRam) (hq : p.quiet)
    (h : p.cycle = .next q) :
    p.Calm q ∧ (∀ k, (q.ramOf k).bytes = (p.ramOf k).bytes) ∧
      (q.bus.wait = false → q.bus.data = p.ramValue e p.bus.address ∧
        (0 < p.latencyOf e.device → (q.ramOf e.device).busy = false) ∧
        (p.latencyOf e.device = 0 → (q.ramOf e.device).busy = (p.ramOf e.device).busy)) := by
  have ht' := Soc.busTick_claimed (p := p) (by simp [hr, hw]) ht
  rw [hr, if_pos rfl] at ht'
  rw [Soc.cycle_eq ht'] at h
  cases h
  have waits : ∀ m : Soc, p.Calm m → (∀ k, (m.ramOf k).bytes = (p.ramOf k).bytes) → m.bus.wait = true →
      p.Calm m.deviceTicks ∧ (∀ k, (m.deviceTicks.ramOf k).bytes = (p.ramOf k).bytes) ∧ m.deviceTicks.bus.wait = true := by
    intro m hc hb hm
    have hqt := Soc.deviceTicks_quiet (hc.quiet hq)
    exact ⟨hc.trans hqt.calm, fun k => (hqt.bytesOf k).trans (hb k), by rw [hqt.bus, hm]⟩
  have done : ∀ (m : Soc) (v : Word), p.Calm m → (∀ k, (m.ramOf k).bytes = (p.ramOf k).bytes) →
      let n : Soc := { m with bus := { m.bus with data := v, wait := false } }
      p.Calm n.deviceTicks ∧ (∀ k, (n.deviceTicks.ramOf k).bytes = (p.ramOf k).bytes) ∧ n.deviceTicks.bus.data = v ∧
        (n.deviceTicks.ramOf e.device).busy = (m.ramOf e.device).busy := by
    intro m v hc hb n
    have hqt := Soc.deviceTicks_quiet (p := n) (hc.quiet hq)
    refine ⟨Soc.Calm.trans (q := n) ⟨hc.ctrl, hc.storage, hc.cfg⟩ hqt.calm, fun k => (hqt.bytesOf k).trans (hb k),
      by rw [hqt.bus], ?_⟩
    unfold Soc.ramOf
    split
    · exact hqt.ticks.scratchBusy
    · exact hqt.ticks.ramBusy
  rcases p.serveRead_cases e with ⟨r', hwait, ⟨hk, he⟩ | ⟨hk, he⟩⟩ |
    ⟨v, m, he, -, ⟨hk, hn, hv, hm⟩ | ⟨hk, hn, hv, hm⟩ | ⟨hn, hn', -⟩⟩
  · rw [he]
    obtain ⟨h1, h2, h3⟩ := waits { p.countRead with ram := r', bus := { p.countRead.bus with wait := true } } ⟨rfl, rfl, rfl⟩
      (fun k => by
        have := Ram.waiting_bytes hwait
        rw [hk] at this
        unfold Soc.ramOf at *
        split <;> simp_all [Soc.countRead]) rfl
    exact ⟨h1, h2, fun h => absurd (h3.symm.trans h) (by simp)⟩
  · rw [he]
    obtain ⟨h1, h2, h3⟩ := waits { p.countRead with scratch := r', bus := { p.countRead.bus with wait := true } }
      ⟨rfl, rfl, rfl⟩
      (fun k => by
        have := Ram.waiting_bytes hwait
        rw [hk] at this
        unfold Soc.ramOf at *
        split <;> simp_all [Soc.countRead]) rfl
    exact ⟨h1, h2, fun h => absurd (h3.symm.trans h) (by simp)⟩
  · rw [he]
    obtain ⟨h1, h2, h3, h4⟩ := done m v (by rw [hm]; exact ⟨rfl, rfl, rfl⟩)
      (fun k => by rw [hm]; unfold Soc.ramOf; split <;> simp [Soc.countRead])
    refine ⟨h1, h2, fun _ => ⟨h3.trans (by rw [hv, Soc.ramValue, Soc.ramOf, hk]; rfl), fun hl => ?_, fun hl => ?_⟩⟩ <;>
      rw [h4, hm] <;> simp_all [Soc.ramOf, Soc.latencyOf, Ram.settled, Nat.pos_iff_ne_zero]
  · rw [he]
    obtain ⟨h1, h2, h3, h4⟩ := done m v (by rw [hm]; exact ⟨rfl, rfl, rfl⟩)
      (fun k => by rw [hm]; unfold Soc.ramOf; split <;> simp [Soc.countRead])
    refine ⟨h1, h2, fun _ => ⟨h3.trans (by rw [hv, Soc.ramValue, Soc.ramOf, hk]; rfl), fun hl => ?_, fun hl => ?_⟩⟩ <;>
      rw [h4, hm] <;> simp_all [Soc.ramOf, Soc.latencyOf, Ram.settled, Nat.pos_iff_ne_zero]
  · rcases hd with hd | hd
    · exact absurd hd hn
    · exact absurd hd hn'

/-- A cycle with a write request to RAM or scratch RAM (R61, R62, R367): bytes change only where Wait is clear after it, in
the device that serves it, and then as the transfer says. -/
theorem Soc.cycle_ramWrite {p q : Soc} {e : DeviceEntry} (hr : p.bus.read = false) (hw : p.bus.write = true)
    (ht : p.target p.bus.address = some e) (hd : e.device = .ram ∨ e.device = .scratchRam) (hq : p.quiet)
    (h : p.cycle = .next q) :
    p.Calm q ∧ q.bus.data = p.bus.data ∧
      (q.bus.wait = true → ∀ k, (q.ramOf k).bytes = (p.ramOf k).bytes) ∧
      (q.bus.wait = false → ∀ k ∈ [DeviceKind.ram, .scratchRam], (q.ramOf k).bytes =
        if k = e.device then ((p.ramOf k).transferWrite e.size (e.offset p.bus.address) p.bus.data).bytes
        else (p.ramOf k).bytes) := by
  have ht' := Soc.busTick_claimed (p := p) (by simp [hr, hw]) ht
  rw [hr, if_neg (by simp)] at ht'
  rw [Soc.cycle_eq ht'] at h
  cases h
  have ticked : ∀ m : Soc, p.Calm m → m.bus.data = p.bus.data →
      p.Calm m.deviceTicks ∧ m.deviceTicks.bus.data = p.bus.data ∧ m.deviceTicks.bus.wait = m.bus.wait ∧
        ∀ k, (m.deviceTicks.ramOf k).bytes = (m.ramOf k).bytes := by
    intro m hc hm
    have hqt := Soc.deviceTicks_quiet (hc.quiet hq)
    exact ⟨hc.trans hqt.calm, by rw [hqt.bus, hm], by rw [hqt.bus], hqt.bytesOf⟩
  rcases p.serveWrite_cases e with ⟨r', hwait, ⟨hk, he⟩ | ⟨hk, he⟩⟩ |
    ⟨m, he, -, ⟨hk, hn, hm⟩ | ⟨hk, hn, hm⟩ | ⟨hn, hn', -⟩⟩
  · rw [he]
    obtain ⟨h1, h2, h3, h4⟩ := ticked { p.countWrite with ram := r', bus := { p.countWrite.bus with wait := true } }
      ⟨rfl, rfl, rfl⟩ rfl
    refine ⟨h1, h2, fun _ k => ?_, fun h => absurd (h3.symm.trans h) (by simp)⟩
    rw [h4]
    have := Ram.waiting_bytes hwait
    rw [hk] at this
    unfold Soc.ramOf at *
    split <;> simp_all [Soc.countWrite]
  · rw [he]
    obtain ⟨h1, h2, h3, h4⟩ := ticked { p.countWrite with scratch := r', bus := { p.countWrite.bus with wait := true } }
      ⟨rfl, rfl, rfl⟩ rfl
    refine ⟨h1, h2, fun _ k => ?_, fun h => absurd (h3.symm.trans h) (by simp)⟩
    rw [h4]
    have := Ram.waiting_bytes hwait
    rw [hk] at this
    unfold Soc.ramOf at *
    split <;> simp_all [Soc.countWrite]
  · rw [he]
    obtain ⟨h1, h2, h3, h4⟩ := ticked { m with bus := { m.bus with wait := false } } (by rw [hm]; exact ⟨rfl, rfl, rfl⟩)
      (by rw [hm]; rfl)
    refine ⟨h1, h2, fun h => absurd (h3.symm.trans h) (by simp), fun _ k hmem => ?_⟩
    rw [h4, hm, hk]
    simp only [List.mem_cons, List.not_mem_nil, or_false] at hmem
    rcases hmem with rfl | rfl <;> simp [Soc.ramOf, Soc.countWrite]
  · rw [he]
    obtain ⟨h1, h2, h3, h4⟩ := ticked { m with bus := { m.bus with wait := false } } (by rw [hm]; exact ⟨rfl, rfl, rfl⟩)
      (by rw [hm]; rfl)
    refine ⟨h1, h2, fun h => absurd (h3.symm.trans h) (by simp), fun _ k hmem => ?_⟩
    rw [h4, hm, hk]
    simp only [List.mem_cons, List.not_mem_nil, or_false] at hmem
    rcases hmem with rfl | rfl <;> simp [Soc.ramOf, Soc.countWrite]
  · rcases hd with hd | hd
    · exact absurd hd hn
    · exact absurd hd hn'

/-- A cycle with a read request to a device that is no RAM (R45): the transfer, at once, and the ticks. -/
theorem Soc.cycle_deviceRead {p : Soc} {e : DeviceEntry} (hr : p.bus.read = true) (hw : p.bus.write = false)
    (ht : p.target p.bus.address = some e) (hd : e.device ≠ .ram) (hs : e.device ≠ .scratchRam) :
    p.cycle = .next (Soc.deviceTicks
      { (p.countRead.transferRead e p.bus.address).2 with
        bus := { (p.countRead.transferRead e p.bus.address).2.bus with
          data := (p.countRead.transferRead e p.bus.address).1, wait := false } }) := by
  have ht' := Soc.busTick_claimed (p := p) (by simp [hr, hw]) ht
  rw [hr, if_pos rfl] at ht'
  rw [Soc.cycle_eq ht']
  rcases p.serveRead_cases e with ⟨r', -, ⟨h, -⟩ | ⟨h, -⟩⟩ | ⟨v, m, he, -, ⟨h, -⟩ | ⟨h, -⟩ | ⟨-, -, hv⟩⟩
  · exact absurd h hd
  · exact absurd h hs
  · exact absurd h hd
  · exact absurd h hs
  · rw [he, ← hv]

/-- A cycle with a write request to a device that is no RAM (R45): the transfer, at once, and the ticks. -/
theorem Soc.cycle_deviceWrite {p : Soc} {e : DeviceEntry} (hr : p.bus.read = false) (hw : p.bus.write = true)
    (ht : p.target p.bus.address = some e) (hd : e.device ≠ .ram) (hs : e.device ≠ .scratchRam) :
    p.cycle = .next (Soc.deviceTicks
      { p.countWrite.transferWrite e p.bus.address p.bus.data with
        bus := { (p.countWrite.transferWrite e p.bus.address p.bus.data).bus with wait := false } }) := by
  have ht' := Soc.busTick_claimed (p := p) (by simp [hr, hw]) ht
  rw [hr, if_neg (by simp)] at ht'
  rw [Soc.cycle_eq ht']
  rcases p.serveWrite_cases e with ⟨r', -, ⟨h, -⟩ | ⟨h, -⟩⟩ | ⟨m, he, -, ⟨h, -⟩ | ⟨h, -⟩ | ⟨-, -, hm⟩⟩
  · exact absurd h hd
  · exact absurd h hs
  · exact absurd h hd
  · exact absurd h hs
  · rw [he, ← hm]

end Sys2Proof.Machine
end

