-- ==== Sys2Proof/Tests/Slice0.lean ====
section
/-! SUPPORT. Small tests of the model: what the well-formedness checks refuse, a word of every instruction written out
from 30_encoding.md, one step per instruction with the values of 95_test_vectors.md, and for every statement with
hypotheses a state and operands that meet them. -/

namespace Sys2Proof.Machine.Tests

/-! ## Helpers -/

/-- A small platform: RAM of 0x100 bytes at 0, the controller, and each peripheral. No parameter is left open. -/
def config (latency : Nat) : Config where
  devices := [⟨.ram, 0, 0x100⟩, ⟨.controller, 0xF0000000, 0x2000⟩, ⟨.uart, 0xE0001000, 0x1000⟩,
    ⟨.pic, 0xE0002000, 0x1000⟩, ⟨.timer, 0xE0003000, 0x1000⟩, ⟨.keyboard, 0xE0004000, 0x1000⟩,
    ⟨.mouse, 0xE0005000, 0x1000⟩]
  ramLatency := latency
  scratchLatency := 0
  resetVector := 0
  loadAddress := 0
  cap := 0x0000000100000005
  sqDepth := 4
  cqDepth := 4
  busyTicks := 1
  scInternalError := 6
  nandBlocks := 1

/-- The small platform with some registers set and some bytes in RAM. -/
def machine (latency : Nat) (regs : List (RegIdx × Word)) (bytes : List Byte) : State :=
  let s := State.construct (config latency)
  { cpu := regs.foldl (fun c e => c.setReg e.1 e.2) s.cpu
    soc := { s.soc with ram := { s.soc.ram with bytes := s.soc.ram.bytes.writeBytes 0 bytes } } }

/-- The small platform with RAM latency `latency`, the scratch RAM of R367 in the controller's place, some registers set
and some bytes in the scratch RAM. -/
def scratchMachine (latency : Nat) (regs : List (RegIdx × Word)) (bytes : List Byte) : State :=
  let s := State.construct { config 0 with
    devices := [⟨.ram, 0, 0x100⟩, ⟨.scratchRam, 0xE0000000, 0x1000⟩], scratchLatency := latency }
  { cpu := regs.foldl (fun c e => c.setReg e.1 e.2) s.cpu
    soc := { s.soc with scratch := { s.soc.scratch with bytes := s.soc.scratch.bytes.writeBytes 0 bytes } } }

/-- The small platform with RAM latency 0 and no byte written. -/
def registers (regs : List (RegIdx × Word)) : State := machine 0 regs []

/-- Something read off a next state. -/
def nextWith {α : Type} (o : Out) (f : State → α) : Option α :=
  match o with
  | .next t => some (f t)
  | .fault _ => none
  | .refused _ => none

/-- A register and the flags Z, N, C, V. -/
def resultOf (r : RegIdx) (t : State) : Word × Flags := (t.cpu.reg r, t.cpu.flags)

/-- The bytes of some instruction words. -/
def image (words : List InstrWord) : List Byte := words.flatMap bytesOfWord

/-! ## WellFormed: each check refuses an ill-formed term -/

theorem test_register_shape_refuses_wide_immediate : (Instr.add 1 2 3 0x800).wellFormed = false := by decide
theorem test_immediate_shape_refuses_wide_immediate : (Instr.ldr 1 2 3 0xFFFFFFFFFFFFFFF8).wellFormed = false := by
  decide
theorem test_branch_shape_refuses_unsigned_immediate : (Instr.b 0 0 0 0x400).wellFormed = false := by decide
theorem test_immediate_shape_holds_2047 : (Instr.mov 1 0 0 0x7FF).wellFormed = true := by decide
theorem test_branch_shape_holds_minus_1024 : (Instr.b 0 0 0 (-1024)).wellFormed = true := by decide
theorem test_config_well_formed : (config 0).wellFormed = true := by decide
theorem test_config_refuses_repeated_device :
    ({ config 0 with devices := [⟨.ram, 0, 0x100⟩, ⟨.ram, 0x100, 0x100⟩] } : Config).wellFormed = false := by decide
theorem test_config_refuses_controller_window :
    ({ config 0 with devices := [⟨.controller, 0, 0x1000⟩] } : Config).wellFormed = false := by decide
theorem test_config_refuses_peripheral_window :
    ({ config 0 with devices := [⟨.uart, 0, 0x2000⟩] } : Config).wellFormed = false := by decide
theorem test_config_refuses_range_past_address_space :
    ({ config 0 with devices := [⟨.ram, 0xFFFFFFFFFFFFFFFF, 2⟩] } : Config).wellFormed = false := by decide
theorem test_config_refuses_empty_submission_queue : ({ config 0 with sqDepth := 0 } : Config).wellFormed = false := by
  decide
theorem test_config_refuses_empty_completion_queue : ({ config 0 with cqDepth := 0 } : Config).wellFormed = false := by
  decide
theorem test_config_allows_scratch_ram : (scratchMachine 1 [] []).soc.cfg.wellFormed = true := by decide
theorem test_config_refuses_scratch_base :
    ({ config 0 with devices := [⟨.scratchRam, 0xE0001000, 0x1000⟩] } : Config).wellFormed = false := by decide
theorem test_config_refuses_scratch_size :
    ({ config 0 with devices := [⟨.scratchRam, 0xE0000000, 0x2000⟩] } : Config).wellFormed = false := by decide
theorem test_config_refuses_scratch_beside_controller :
    ({ config 0 with devices := [⟨.scratchRam, 0xE0000000, 0x1000⟩, ⟨.controller, 0xF0000000, 0x2000⟩] } :
      Config).wellFormed = false := by decide
theorem test_config_refuses_no_nand_block : ({ config 0 with nandBlocks := 0 } : Config).wellFormed = false := by decide
theorem test_config_refuses_zero_error_code :
    ({ config 0 with scInternalError := 0 } : Config).wellFormed = false := by decide

/-! ## Decode: the words of 95_test_vectors.md T2 to T8 -/

theorem test_decode_nop : decodeWord 0x00200000 = .ok (.nop 1 0 0 0) := by decide
theorem test_decode_add : decodeWord 0x07FFF800 = .ok (.add 31 31 31 0) := by decide
theorem test_decode_sub : decodeWord 0x08611000 = .ok (.sub 3 1 2 0) := by decide
theorem test_decode_and : decodeWord 0x0C853000 = .ok (.and 4 5 6 0) := by decide
theorem test_decode_or : decodeWord 0x10E84800 = .ok (.or 7 8 9 0) := by decide
theorem test_decode_xor : decodeWord 0x154B6000 = .ok (.xor 10 11 12 0) := by decide
theorem test_decode_lsl : decodeWord 0x18611000 = .ok (.lsl 3 1 2 0) := by decide
theorem test_decode_lsr : decodeWord 0x1DAE7800 = .ok (.lsr 13 14 15 0) := by decide
theorem test_decode_asr : decodeWord 0x22119000 = .ok (.asr 16 17 18 0) := by decide
theorem test_decode_cmp : decodeWord 0x241EF800 = .ok (.cmp 0 30 31 0) := by decide
theorem test_decode_ldr : decodeWord 0x40A407F8 = .ok (.ldr 5 4 0 0x7F8) := by decide
theorem test_decode_str : decodeWord 0x47FE0000 = .ok (.str 31 30 0 0) := by decide
theorem test_decode_mov : decodeWord 0x83E007FF = .ok (.mov 31 0 0 0x7FF) := by decide
theorem test_decode_b : decodeWord 0xC0000400 = .ok (.b 0 0 0 (-1024)) := by decide
theorem test_decode_beq : decodeWord 0xC40007FC = .ok (.beq 0 0 0 (-4)) := by decide
theorem test_decode_bne : decodeWord 0xC8000004 = .ok (.bne 0 0 0 4) := by decide
theorem test_decode_halt : decodeWord 0xFFFFFFFF = .ok (.halt 31 31 31 0x7FF) := by decide
theorem test_decode_reserved : decodeWord 0x28000000 = .error (.reservedOpcode 0x0A) := by decide
theorem test_decode_truncated : decodeBytes [0x00, 0x18, 0x22] = .error .truncated := by decide
theorem test_decode_bytes : decodeBytes [0x00, 0x18, 0x22, 0x04, 0xFF] = .ok (.add 1 2 3 0, [0xFF]) := by decide
theorem test_table_word : decodeTableWord 32 0x41410010 = some (.ldr 10 1 0 16) := by decide

/-! ## One step per instruction (95_test_vectors.md parts 3 to 5) -/

theorem test_add_overflow :
    nextWith (exec (.add 1 2 3 0) (registers [(2, 0x7FFFFFFFFFFFFFFF), (3, 1)])) (resultOf 1) =
      some (0x8000000000000000, ⟨false, true, false, true⟩) := by decide
theorem test_add_carry :
    nextWith (exec (.add 2 2 2 0) (registers [(2, 0x8000000000000000)])) (resultOf 2) =
      some (0, ⟨true, false, true, true⟩) := by decide
theorem test_sub_borrow :
    nextWith (exec (.sub 1 1 3 0) (registers [(1, 5), (3, 7)])) (resultOf 1) =
      some (0xFFFFFFFFFFFFFFFE, ⟨false, true, true, false⟩) := by decide
theorem test_sub_overflow :
    nextWith (exec (.sub 1 2 3 0) (registers [(2, 0x8000000000000000), (3, 1)])) (resultOf 1) =
      some (0x7FFFFFFFFFFFFFFF, ⟨false, false, false, true⟩) := by decide
theorem test_and_bits :
    nextWith (exec (.and 4 5 6 0) (registers [(5, 0xF0), (6, 0x3C)])) (resultOf 4) =
      some (0x30, ⟨false, false, false, false⟩) := by decide
theorem test_or_sign :
    nextWith (exec (.or 7 8 9 0) (registers [(8, 0x8000000000000000), (9, 1)])) (resultOf 7) =
      some (0x8000000000000001, ⟨false, true, false, false⟩) := by decide
theorem test_xor_zero :
    nextWith (exec (.xor 1 2 2 0) (registers [(2, 0xAAAA)])) (resultOf 1) =
      some (0, ⟨true, false, false, false⟩) := by decide
theorem test_lsl_carry :
    nextWith (exec (.lsl 3 1 2 0) (registers [(1, 3), (2, 63)])) (resultOf 3) =
      some (0x8000000000000000, ⟨false, true, true, false⟩) := by decide
theorem test_lsr_masked_amount :
    nextWith (exec (.lsr 3 1 2 0) (registers [(1, 0xFFFFFFFFFFFFFFFF), (2, 64)])) (resultOf 3) =
      some (0xFFFFFFFFFFFFFFFF, ⟨false, true, false, false⟩) := by decide
theorem test_asr_sign :
    nextWith (exec (.asr 5 3 2 0) (registers [(3, 0x8000000000000000), (2, 63)])) (resultOf 5) =
      some (0xFFFFFFFFFFFFFFFF, ⟨false, true, false, false⟩) := by decide
theorem test_cmp_equal :
    nextWith (exec (.cmp 5 5 5 0) (registers [(5, 9)])) (resultOf 5) =
      some (9, ⟨true, false, false, false⟩) := by decide
theorem test_mov_immediate :
    nextWith (exec (.mov 5 0 7 255) (registers [(7, 1)])) (resultOf 5) =
      some (255, ⟨false, false, false, false⟩) := by decide
theorem test_nop_copies_the_last_result :
    nextWith (exec (.nop 1 0 0 0) { registers [] with cpu := { (registers []).cpu with aluResult := 0x9F8 } })
      (fun t => (t.cpu.reg 1, t.cpu.pc)) = some (0x9F8, 4) := by decide
theorem test_halt_stays_in_execute :
    nextWith (exec (.halt 31 31 31 0x7FF) (registers [(31, 3)])) (fun t => (t.cpu.halted, t.cpu.pc, t.cpu.stage)) =
      some (true, 0, .execute) := by decide
theorem test_b_backwards :
    nextWith (exec (.b 0 0 0 (-8)) { registers [] with cpu := { (registers []).cpu with pc := 0x14 } })
      (fun t => t.cpu.pc) = some 0x0C := by decide
theorem test_beq_not_taken : nextWith (exec (.beq 0 0 0 8) (registers [])) (fun t => t.cpu.pc) = some 4 := by decide
theorem test_bne_taken : nextWith (exec (.bne 0 0 0 8) (registers [])) (fun t => t.cpu.pc) = some 8 := by decide
theorem test_ldr_little_endian :
    nextWith (exec (.ldr 10 1 0 2) (machine 2 [(1, 1)] [0, 0, 0, 0xEF, 0xCD, 0xAB, 0x89, 0x67, 0x45, 0x23, 0x01]))
      (fun t => t.cpu.reg 10) = some 0x0123456789ABCDEF := by decide
theorem test_ldr_end_of_ram :
    nextWith (exec (.ldr 1 1 0 0xF9) (machine 0 [] (List.replicate 256 0xFF))) (fun t => (t.cpu.reg 1, t.cpu.pc)) =
      some (0, 4) := by decide +kernel
theorem test_str_little_endian :
    nextWith (exec (.str 2 1 0 8) (machine 1 [(1, 0x10), (2, 1000)] [])) (fun t => t.soc.ram.bytes) =
      some [(0x18, 0xE8), (0x19, 0x03)] := by decide
theorem test_str_unmapped_sticks :
    nextWith (exec (.str 2 1 0 0) (registers [(1, 0x400)])) (fun t => (t.stuck, t.cpu.pc, t.soc.bus.error)) =
      some (true, 0, true) := by decide

/-! ## The step and the host -/

/-- Scenario 4 (T20): after `MOV R0, #42`, a step at the HALT. -/
theorem test_step_runs_placed_word :
    nextWith (step (State.reset.withFetchWord 32 0x8000002A)) (fun t => (t.cpu.reg 0, t.cpu.pc)) = some (42, 4) := by
  decide
theorem test_run_scenario_4 :
    nextWith (run 50 (machine 0 [] (image [0x8000002A, 0xFC000000])))
      (fun t => (t.cpu.halted, t.cpu.pc, t.cpu.reg 0, t.soc.bus.readCount)) = some (true, 4, 42, 2) := by decide
/-- T80: the loop's branch, three instructions back. -/
theorem test_assemble_backward_branch :
    assemble "x: NOP\nSUB R1, R1, R3\nBNE x\n.string \"A\"".toList =
      .ok (image [0x00000000, 0x08211800, 0xC80007F8] ++ [0x41, 0x00]) := by decide
theorem test_assemble_refuses_wide_immediate :
    assembleExit "MOV R1, #2048".toList = .assemblyError := by decide

/-! ## Witnesses: states and operands that meet a statement's hypotheses together -/

/-- The entry of RAM in `config`. -/
def ramEntry0 : DeviceEntry := ⟨.ram, 0, 0x100⟩

/-- The entry of the scratch RAM in `scratchMachine`. -/
def scratchEntry0 : DeviceEntry := ⟨.scratchRam, 0xE0000000, 0x1000⟩

/-- The entry of the controller in `config`. -/
def controllerEntry0 : DeviceEntry := ⟨.controller, 0xF0000000, 0x2000⟩

theorem test_witness_DecodeOfEncode :
    ∀ i ∈ [Instr.add 31 31 31 0x7FF, .ldr 0 31 0 0x7FF, .b 0 0 0 (-1024), .bne 31 31 31 1023],
      i.wellFormed = true := by decide
theorem test_witness_EncodeOfDecode : decodeWord 0xFBFFFFFF = .error (.reservedOpcode 0x3E) ∧
    decodeWord 0xCBFFFFFF = .ok (.bne 31 31 31 (-1)) := by decide
theorem test_witness_EncodeWord : (Instr.bne 0 0 0 0).decoded.op ≠ .halt := by decide
theorem test_witness_ReservedFields :
    (∀ f ∈ [0x0A, 0x0F, 0x12, 0x1F, 0x21, 0x2F, 0x33, 0x3E],
      decodeWord (BitVec.ofNat 32 (f * 2 ^ 26)) = .error (.reservedOpcode (BitVec.ofNat 6 f))) ∧
    ∀ f ∈ [0x00, 0x09, 0x10, 0x11, 0x20, 0x30, 0x32, 0x3F],
      decodeWord (BitVec.ofNat 32 (f * 2 ^ 26)) ≠ .error (.reservedOpcode (BitVec.ofNat 6 f)) := by decide
theorem test_witness_HaltField : ((0xFC000001 : InstrWord).extractLsb' 26 6 = 0x3F) ∧
    (Instr.bne 0 0 0 0).decoded.op ≠ .halt := by decide
theorem test_witness_BitOperations : 63 < 64 ∧ (0 : Nat) ≠ 63 ∧ 0 ≤ 63 ∧ checkBit (setBit (0 : Word) 63) 63 = true := by
  decide
theorem test_witness_AluFlagLaws : (64 : Word).toNat % 64 = 0 ∧ AluOp.and ∈ [AluOp.and, .or, .xor] ∧
    AluOp.asr ∈ [AluOp.lsl, .lsr, .asr] := by decide
/-- Also of SubResult, LogicResults, ShiftResults, CompareResult, NopResult and HaltResult. -/
theorem test_witness_AddResult : (registers [(2, 0xFFFFFFFFFFFFFFFF), (3, 1)]).soc.busIdle := by decide
theorem test_witness_ShiftResults : (registers [(2, 64)]).soc.busIdle ∧ ((registers [(2, 64)]).cpu.reg 2).toNat % 64 = 0 ∧
    (registers [(2, 63)]).soc.busIdle ∧ ((registers [(2, 63)]).cpu.reg 2).toNat % 64 ≠ 0 := by decide
theorem test_witness_MoveResult : (registers []).soc.busIdle ∧ (Instr.mov 0 0 0 0).wellFormed = true ∧
    (Instr.mov 31 31 31 0x7FF).wellFormed = true := by decide
/-- The small platform with Z set. -/
def zeroSet : State := { registers [] with cpu := { (registers []).cpu with flags := ⟨true, false, false, false⟩ } }
/-- Also of BranchNotTaken. -/
theorem test_witness_BranchTaken : (registers []).soc.busIdle ∧ (registers []).cpu.flags.z = false ∧
    zeroSet.soc.busIdle ∧ zeroSet.cpu.flags.z = true := by decide
theorem test_witness_MemoryAccessCompletes : (registers [(1, 0xF0000000)]).soc.busIdle ∧
    (registers [(1, 0xF0000000)]).soc.target ((registers [(1, 0xF0000000)]).effectiveAddress 1 0x7FF) =
      some controllerEntry0 := by decide
/-- In each RAM device, with the last eight bytes and one past them. -/
theorem test_witness_LoadFromRam :
    (∀ s ∈ [machine 3 [(1, 0xF8)] [1, 2], machine 0 [(1, 0xF9)] []],
      s.soc.busIdle ∧ s.soc.quiet ∧ s.soc.target (s.effectiveAddress 1 0) = some ramEntry0) ∧
    (∀ s ∈ [scratchMachine 3 [(1, 0xE0000FF8)] [1, 2], scratchMachine 0 [(1, 0xE0000FF9)] []],
      s.soc.busIdle ∧ s.soc.quiet ∧ s.soc.target (s.effectiveAddress 1 0) = some scratchEntry0) ∧
    ∀ e ∈ [ramEntry0, scratchEntry0], e.device ∈ [DeviceKind.ram, .scratchRam] := by decide
/-- The other hypotheses are those of `test_witness_LoadFromRam`. -/
theorem test_witness_StoreToRam : Memory.wf ((machine 3 [(1, 0xF8)] [1, 2]).soc.ramOf .ram).bytes ∧
    Memory.wf ((machine 0 [(1, 0xF9)] []).soc.ramOf .ram).bytes ∧
    Memory.wf ((scratchMachine 3 [(1, 0xE0000FF8)] [1, 2]).soc.ramOf .scratchRam).bytes ∧
    Memory.wf ((scratchMachine 0 [(1, 0xE0000FF9)] []).soc.ramOf .scratchRam).bytes := by decide
/-- At VS, at CQ0HDBL and at no register. -/
theorem test_witness_LoadFromController :
    ∀ s ∈ [registers [(1, 0xF0000008)], registers [(1, 0xF0001004)], registers [(1, 0xF0001FFF)]],
      s.soc.busIdle ∧ s.soc.quiet ∧ s.soc.target (s.effectiveAddress 1 0) = some controllerEntry0 ∧
      controllerEntry0.device = .controller := by decide
theorem test_ldr_controller_version :
    nextWith (exec (.ldr 2 1 0 8) (registers [(1, 0xF0000000)])) (fun t => t.cpu.reg 2) = some 0x00010000 := by decide
/-- A store of `v` at offset `off` of the controller of the small platform, with CC as given. -/
def controllerStore (off v : Word) (cc : BitVec 32) : State :=
  let s := registers [(1, 0xF0000000 + off), (2, v)]
  { s with soc := { s.soc with ctrl := { s.soc.ctrl with cc := cc, csts := cc } } }
/-- With AQA, the read-only CSTS, no register, CC (setting Enable, clearing it, leaving it) and SQ0TDBL (not ready, and
ready with the tail at the head). -/
theorem test_witness_StoreToController :
    (∀ s ∈ [controllerStore 0x24 1 0, controllerStore 0x1C 1 0, controllerStore 0x18 1 0, controllerStore 0x14 1 0,
        controllerStore 0x14 0 1, controllerStore 0x14 3 1, controllerStore 0x1000 1 0, controllerStore 0x1000 0 1],
      s.soc.busIdle ∧ s.soc.quiet ∧ s.soc.target (s.effectiveAddress 1 0) = some controllerEntry0 ∧
      controllerEntry0.device = .controller ∧ s.soc.ctrl.sqTail = s.soc.ctrl.sqHead) ∧
    (∀ off v cc, (controllerStore off v cc).effectiveAddress 1 0 = 0xF0000000 + off + 0 ∧
      (controllerStore off v cc).cpu.reg 2 = v ∧ (controllerStore off v cc).soc.ctrl.cc = cc ∧
      (controllerStore off v cc).soc.ctrl.csts = cc ∧ (controllerStore off v cc).soc.ctrl.sqHead = 0) ∧
    ∀ off ∈ [(0x24 : Word), 0x1C, 0x18], (0xF0000000 + off + 0).toNat - controllerEntry0.base.toNat ≠ 0x14 ∧
      (0xF0000000 + off + 0).toNat - controllerEntry0.base.toNat ≠ 0x1000 :=
  ⟨by decide, fun _ _ _ => ⟨rfl, rfl, rfl, rfl, rfl⟩, by simp [controllerEntry0]⟩
theorem test_witness_PeripheralAccess :
    ∀ e ∈ [(⟨.uart, 0xE0001000, 0x1000⟩ : DeviceEntry), ⟨.pic, 0xE0002000, 0x1000⟩, ⟨.timer, 0xE0003000, 0x1000⟩,
      ⟨.keyboard, 0xE0004000, 0x1000⟩, ⟨.mouse, 0xE0005000, 0x1000⟩],
    let s := registers [(1, e.base)]
    s.soc.busIdle ∧ s.soc.quiet ∧ s.soc.target (s.effectiveAddress 1 4) = some e ∧
    s.soc.target (s.effectiveAddress 1 8) = some e ∧
    e.device ∈ [DeviceKind.uart, .pic, .timer, .keyboard, .mouse] := by decide
/-- The small platform with `pc` at the first address past RAM. -/
def pastRam : State := { registers [] with cpu := { (registers []).cpu with pc := 0x100 } }
theorem test_witness_UnmappedAccessSticks :
    ((registers [(1, 0x100)]).soc.busIdle ∧ (registers [(1, 0x100)]).cpu.halted = false ∧
      (registers [(1, 0x100)]).soc.target ((registers [(1, 0x100)]).effectiveAddress 1 0) = none ∧
      (registers [(1, 0x100)]).soc.quiet) ∧
    pastRam.atInstructionStart = true ∧ pastRam.cpu.pc.toNat % 4 = 0 ∧ pastRam.soc.target pastRam.cpu.pc = none ∧
    pastRam.soc.quiet := by decide
theorem test_witness_StuckStays :
    nextWith (step pastRam) (fun t => (t.stuck, t.soc.bus.read != t.soc.bus.write)) = some (true, true) := by decide
theorem test_witness_RegistersAndFlagsKept :
    ∀ i ∈ [Instr.str 1 2 3 0, .cmp 1 2 3 0, .b 0 0 0 4, .beq 0 0 0 4, .bne 0 0 0 4, .halt 0 0 0 0, .nop 1 0 0 0,
      .ldr 1 2 3 0, .add 1 2 3 0],
    (nextWith (exec i (registers [])) fun t => t.cpu.reg 31) = some 0 := by decide
theorem test_witness_MemoryKept : (Instr.add 1 2 3 0).decoded.op ≠ .ldr ∧ (Instr.add 1 2 3 0).decoded.op ≠ .str ∧
    (registers []).soc.busIdle ∧ (registers []).soc.quiet ∧
    (nextWith (exec (.add 1 2 3 0) (registers [])) fun t => t.cpu.pc) = some 4 := by decide
/-- `pc` at 0 before an ADD, and at the last word of RAM, where the fetch gives 0 (R407). -/
theorem test_witness_StepRunsDecodedInstruction :
    (let s := machine 0 [] (image [0x04221800])
     s.atInstructionStart = true ∧ s.cpu.pc.toNat % 4 = 0 ∧ s.soc.servedByRam s.cpu.pc ramEntry0 ∧ s.soc.quiet ∧
     decodeBytes ((List.range 4).map fun k => s.soc.ram.bytes.read k) = .ok (.add 1 2 3 0, [])) ∧
    (let s := { registers [] with cpu := { (registers []).cpu with pc := 0xFC } }
     s.atInstructionStart = true ∧ s.cpu.pc.toNat % 4 = 0 ∧ s.soc.servedByRam s.cpu.pc ramEntry0 ∧ s.soc.quiet ∧
     ¬ (0xFC + 8 ≤ ramEntry0.size) ∧ decodeBytes [0, 0, 0, 0] = .ok (.nop 0 0 0 0, [])) := by decide
theorem test_witness_StepOutcomes :
    (let s := { registers [] with cpu := { (registers []).cpu with pc := 2 } }
     s.atInstructionStart = true ∧ s.cpu.pc.toNat % 4 ≠ 0) ∧
    (let s := machine 0 [] (image [0x28000000])
     s.atInstructionStart = true ∧ s.cpu.pc.toNat % 4 = 0 ∧ s.soc.servedByRam s.cpu.pc ramEntry0 ∧ s.soc.quiet ∧
     0 + 8 ≤ ramEntry0.size ∧
     decodeBytes ((List.range 4).map fun k => s.soc.ram.bytes.read k) = .error (.reservedOpcode 0x0A)) := by decide
theorem test_step_refuses_reserved_opcode :
    step (machine 0 [] (image [0x28000000])) = .refused (.reservedOpcode 0x0A) := rfl
theorem test_step_refuses_unaligned_fetch :
    step { registers [] with cpu := { (registers []).cpu with pc := 2 } } = .refused (.unalignedFetch 2) := rfl
theorem test_witness_TickCounts :
    ∀ e ∈ [((0x04221800 : InstrWord), Instr.add 1 2 3 0), (0xC0000008, .b 0 0 0 8), (0xC4000008, .beq 0 0 0 8),
      (0xC8000004, .bne 0 0 0 4), (0xFC000000, .halt 0 0 0 0), (0x44410008, .str 2 1 0 8)],
    let s := machine 2 [] (image [e.1])
    s.soc.cfg.wellFormed = true ∧ s.atInstructionStart = true ∧ s.cpu.pc.toNat % 4 = 0 ∧
    s.soc.servedByRam s.cpu.pc ramEntry0 ∧ s.soc.quiet ∧ 0 + 8 ≤ ramEntry0.size ∧
    decodeBytes ((List.range 4).map fun k => s.soc.ram.bytes.read k) = .ok (e.2, []) ∧
    s.soc.target (s.effectiveAddress e.2.decoded.rn e.2.decoded.imm) = some ramEntry0 := by decide
/-- The small platform, halted. -/
def haltedState : State := { registers [] with cpu := { (registers []).cpu with halted := true } }
theorem test_witness_HaltedStays : haltedState.cpu.halted = true ∧ haltedState.soc.busIdle := by decide
theorem test_witness_RunIsCycles :
    (nextWith (run 2 (registers [])) fun t => t.cpu.halted) = some false ∧
    (nextWith (run 2 haltedState) fun t => t.cpu.halted) = some true ∧
    (nextWith (cycles 1 (registers [])) fun t => t.cpu.halted) = some false := by decide
theorem test_witness_StepKeepsCanonicalForms : (machine 0 [] (image [0x04221800])).soc.canonical ∧
    (nextWith (step (machine 0 [] (image [0x04221800]))) fun t => t.cpu.pc) = some 4 := by decide
theorem test_witness_StepKeepsBusProtocol : (machine 0 [] (image [0x04221800])).busProtocol := by
  show false = false ∧ false = false ∧ ¬ (false = true ∧ false = true)
  decide
/-- The small platform with sixteen keys in the keyboard's FIFO. -/
def fullFifo : State :=
  let s := registers []
  { s with soc := { s.soc with periph := { s.soc.periph with keyboard := ⟨0, 0, List.replicate 16 0x41⟩ } } }
/-- Its step is that of a fetch of the word 0, a NOP. -/
theorem test_witness_StepKeepsConfigAndStatus : fullFifo.soc.ctrl.statusLegal ∧
    fullFifo.soc.periph.keyboard.fifo.length ≤ 16 ∧ (nextWith (step fullFifo) fun t => t.cpu.pc) = some 4 := by decide
/-- Its step is that of `test_witness_StepKeepsCanonicalForms`. -/
theorem test_witness_StepKeepsBookkeeping : (machine 0 [] (image [0x04221800])).soc.storage.bookkeeping where
  blocks := by decide
  freeOnce := by decide
  freeListed := by
    rintro (_ | b) i h
    · cases h; decide
    · exact absurd h (by simp [machine, config, State.construct, Ftl.fresh])
  freeInRange := by decide
  activeIsCursor := by
    rintro (_ | b) i h
    · cases h; decide
    · exact absurd h (by simp [machine, config, State.construct, Ftl.fresh])
  cursorInRange := by
    intro c h
    exact absurd h (by simp [machine, config, State.construct, Ftl.fresh])
theorem test_witness_LoaderWritesImage : ramEntry (config 0) = some ramEntry0 ∧
    Memory.wf (registers []).soc.ram.bytes ∧ (0xFC : Word).toNat + 4 ≤ 0x100 ∧
    (loadImage 0xFC [1, 2, 3, 4] (registers [])).isSome = true ∧
    (loadImage 0xFD [1, 2, 3, 4] (registers [])).isSome = false := by decide
/-- The small platform with a read request at an address no device claims. -/
def unclaimedRead : Soc := { (registers []).soc with bus := { Bus.fresh with address := 0x100, read := true } }
theorem test_witness_BusDecodeFailure : unclaimedRead.bus.read ≠ unclaimedRead.bus.write ∧
    unclaimedRead.target unclaimedRead.bus.address = none ∧
    ∃ q, ({ unclaimedRead with bus := { unclaimedRead.bus with error := true } } : Soc).busTick = .next q :=
  ⟨by decide, by decide, _, rfl⟩
theorem test_witness_BypassAccess : (registers []).soc.target 0x100 = none ∧
    (registers []).soc.target 0xFF = some ramEntry0 := by decide
theorem test_witness_RamTransfers : Memory.wf (machine 0 [] [1, 2, 3]).soc.ram.bytes ∧ 0xF8 + 8 ≤ 0x100 ∧
    (0x100 < 0xF9 + 8) ∧ (0xF8 + 8 ≤ 0x100 ∨ 0x100 + 8 ≤ 0xF8) := by decide

/-! ### The storage stack -/

/-- A page of one byte. -/
def pageOf (b : Byte) : List Byte := List.replicate 4096 b

/-- A fresh chip of one block with a fresh FTL. -/
def oneBlock : Storage := ⟨Nand.fresh 1, Ftl.fresh 1⟩

theorem test_witness_NandLaws :
    Nand.wf oneBlock.nand ∧ 0 < oneBlock.nand.blockCount ∧ 63 < 64 ∧ (pageOf 0xF0).length = 4096 ∧
    (pageOf 0x30).length = 4096 ∧ oneBlock.nand.page 0 63 = Page.erased :=
  ⟨by decide, by decide, by decide, List.length_replicate, List.length_replicate, rfl⟩

/-- A page of one byte can be programmed over a page of another that has its bits. -/
theorem programmable_replicate (n : Nat) (a b : Byte) (h : a &&& b = b) :
    programmable (List.replicate n a) (List.replicate n b) = true := by
  simp [programmable, h]

/-- T51 on page 63 of the only block: after 0xF0, 0x30 succeeds. -/
theorem test_nand_second_program :
    ((oneBlock.nand.program 0 63 (pageOf 0xF0) none).2.program 0 63 (pageOf 0x30) none).1 = .success := by
  have hd := Nand.page_program_success (n := oneBlock.nand) (by decide) (b := 0) (p := 63) (x := pageOf 0xF0) (by decide)
    (by decide) List.length_replicate (programmable_replicate 4096 0xFF 0xF0 (by decide))
  have hb : programBytes (oneBlock.nand.page 0 63).data (pageOf 0xF0) = List.replicate 4096 0xF0 := by
    show List.zipWith _ (List.replicate 4096 0xFF) (List.replicate 4096 0xF0) = _
    rw [List.zipWith_replicate, Nat.min_self]
    rfl
  rw [Nand.program_success (x := pageOf 0x30) (by rw [Nand.program_blockCount]; decide) (by decide) List.length_replicate (by
    rw [hd, hb]; exact programmable_replicate 4096 0xF0 0x30 (by decide))]

/-- A program that succeeds, one that fails, and a page beside the one programmed. -/
theorem test_witness_CellBits :
    Nand.wf oneBlock.nand ∧ 0 < oneBlock.nand.blockCount ∧
    (oneBlock.nand.program 0 63 (pageOf 0xF0) none).1 = .success ∧
    (oneBlock.nand.program 1 0 (pageOf 0xF0) none).1 ≠ .success ∧ 62 < 64 ∧ ¬ ((0 : Nat) = 0 ∧ (62 : Nat) = 63) := by
  decide +kernel
theorem test_witness_WriteThenRead :
    Nand.wf oneBlock.nand ∧ Sparse.wf (none : Option (BitVec 32)) oneBlock.ftl.l2p ∧
    oneBlock.nand.blockCount ≤ 2 ^ 26 ∧ oneBlock.ftl.lookup 5 = none ∧
    (oneBlock.write 0xFFFFFFFF (pageOf 0xA1)).1 = .success := by decide +kernel
/-- Also of DistinctWritesPersist. -/
theorem test_witness_DistinctWritesRoundTrip :
    let writes : List (BitVec 32 × List Byte) := [(0xFFFFFFFF, pageOf 0xA1), (0, pageOf 0xFF)]
    1 ≤ 2 ^ 26 ∧ (∀ w ∈ writes, w.2.length = 4096) ∧ (writes.map Prod.fst).Nodup ∧ writes.length ≤ 64 * 1 ∧
    (5 : BitVec 32) ∉ writes.map Prod.fst := by decide +kernel
/-- A full block of stale pages and the cursor in another: GC takes the stale one. -/
def staleBlock : Storage :=
  ⟨Nand.fresh 2, ⟨[], [⟨.active, 0, 1⟩, ⟨.full, 0, 0⟩], [], some ⟨0, 5⟩⟩⟩
theorem test_witness_CollectionErasesVictim :
    staleBlock.ftl.victim = some (1, ⟨.full, 0, 0⟩) ∧ staleBlock.garbageCollect.1 = true := by decide +kernel

/-! ### The controller -/

/-- The controller of the small platform with queues at 0x40 and 0xC0, enabled. -/
def enabled : Soc :=
  { (registers []).soc with ctrl := { Ctrl.fresh with cc := 1, csts := 1, asqLo := 0x40, acqLo := 0xC0 } }

theorem test_witness_ControllerEnable :
    ((registers []).soc.ctrl.cc.getLsbD 0 = false ∧ (0xFFFFFFFF00000001 : Word).getLsbD 0 = true) ∧
    (enabled.ctrl.cc.getLsbD 0 = true ∧ (0 : Word).getLsbD 0 = false) ∧
    enabled.ctrl.cc.getLsbD 0 = (1 : Word).getLsbD 0 := by decide
theorem test_witness_DoorbellFetchesCommand :
    let slot := enabled.ctrl.asq + enabled.ctrl.sqHead.setWidth 64 * 64
    ramEntry0.device = .ram ∧ ramEntry0.base.toNat + ramEntry0.size ≤ 2 ^ 64 ∧
    slot.toNat - ramEntry0.base.toNat + 56 ≤ ramEntry0.size ∧
    enabled.target slot = some ramEntry0 ∧ enabled.target (slot + 24) = some ramEntry0 ∧
    enabled.target (slot + 40) = some ramEntry0 ∧ enabled.target (slot + 48) = some ramEntry0 ∧
    enabled.ctrl.csts.getLsbD 0 = true ∧ enabled.ctrl.pending.valid = false ∧
    (1 : Word).extractLsb' 0 32 ≠ enabled.ctrl.sqHead ∧ (registers []).soc.ctrl.csts.getLsbD 0 = false := by decide

/-- RAM of 0x3000 bytes at 0. -/
def largeRam : DeviceEntry := ⟨.ram, 0, 0x3000⟩

/-- A command about to execute, its buffer the last 4096 bytes of RAM and its completion entry at 0x40. -/
def commanded (opcode : BitVec 8) : Soc :=
  { (registers []).soc with
    cfg := { config 0 with devices := [largeRam, controllerEntry0] }
    ctrl := { Ctrl.fresh with cc := 1, csts := 1, acqLo := 0x40, pending := ⟨true, opcode, 0x2000, 5, 1⟩, busyTicks := 1 } }

theorem test_witness_WriteCommand :
    let p := commanded 0x01
    let entry := p.ctrl.acq + p.ctrl.cqTail.setWidth 64 * 16 + 8
    p.ctrl.pending.valid = true ∧ p.ctrl.pending.opcode = 0x01 ∧ p.ctrl.busyTicks ≤ 1 ∧
    largeRam.device = .ram ∧ largeRam.base.toNat + largeRam.size ≤ 2 ^ 64 ∧
    p.ctrl.pending.prp1.toNat - largeRam.base.toNat + 4096 ≤ largeRam.size ∧
    (∀ i < 512, p.target (p.ctrl.pending.prp1 + BitVec.ofNat 64 (8 * i)) = some largeRam) ∧
    p.target entry = some largeRam ∧ entry.toNat - largeRam.base.toNat + 8 ≤ largeRam.size := by decide +kernel
theorem test_witness_ReadCommand :
    let p := commanded 0x02
    let entry := p.ctrl.acq + p.ctrl.cqTail.setWidth 64 * 16 + 8
    p.ctrl.pending.valid = true ∧ p.ctrl.pending.opcode = 0x02 ∧ p.ctrl.busyTicks ≤ 1 ∧
    p.storage.read p.ctrl.pending.lba = (.success, pageOf 0xFF) ∧ Memory.wf p.ram.bytes ∧
    largeRam.device = .ram ∧ largeRam.base.toNat + largeRam.size ≤ 2 ^ 64 ∧
    p.ctrl.pending.prp1.toNat - largeRam.base.toNat + 4096 ≤ largeRam.size ∧
    (∀ i < 512, p.target (p.ctrl.pending.prp1 + BitVec.ofNat 64 (8 * i)) = some largeRam) ∧
    p.target entry = some largeRam ∧ entry.toNat - largeRam.base.toNat + 8 ≤ largeRam.size :=
  ⟨by decide, by decide, by decide, rfl, by decide, by decide, by decide, by decide, by decide +kernel, by decide,
    by decide⟩
/-- T71: an unknown opcode completes with the error code 6 in bits 31..17 and bit 0 set. -/
theorem test_unknown_opcode_completes_with_error :
    ((commanded 0x00).controllerTick.ram.bytes, (commanded 0x00).controllerTick.ctrl.pending.valid) =
      ([(0x4C, 0x01), (0x4E, 0x0C)], false) := by decide

/-! ### Peripherals and the assembler -/

/-- The sixteenth key is taken, and what a seventeenth does is not stated. -/
theorem test_keyboard_takes_sixteen_keys :
    ((⟨0, 0, List.replicate 15 0x41⟩ : Keyboard).receive 0x42).isSome = true ∧
    (⟨0, 0, List.replicate 16 0x41⟩ : Keyboard).receive 0x42 = none := by decide
/-- R357: the tick of each source device drives its own line and no other; the PIC's own tick drives none. -/
theorem test_irq_lines :
    [DeviceKind.uart, .timer, .keyboard, .mouse, .pic].map
        (fun d => (Peripherals.fresh.afterTick d fun _ => 1).pic.status) = [1, 2, 4, 8, 0] := by decide
theorem test_witness_InterruptPriority :
    (⟨0x8006, 0x8004, 0⟩ : Pic).lowestPendingLine = some 2 ∧ (⟨0x8006, 0x0001, 0⟩ : Pic).pending = false := by decide
/-- A program with every operand form of R331, stage by stage. -/
theorem test_witness_AssembledProgramDecodes :
    ∃ tokens ast instrs words,
      lexSource ("NOP\nADD R1, R2, R3\nADD R1, R2, #4\nCMP R1, R2\nCMP R1, #0\nMOV R31, #2047\nMOV R1, R2\n" ++
        "LDR R1, [R2, #-1024]\nx: BNE x").toList = .ok tokens ∧ parseTokens tokens = .ok ast ∧
      resolveAst ast = .ok instrs ∧ encodeInstrs instrs = .ok words ∧
      words = [0x00000000, 0x04221800, 0x04220004, 0x24011000, 0x24010000, 0x83E007FF, 0x80201000, 0x40220400,
        0xC8000000] :=
  ⟨_, _, _, _, rfl, rfl, rfl, rfl, rfl⟩
/-- The label at the last instruction in reach, forwards and backwards, and one past it. -/
theorem test_witness_BranchOffsets :
    Op.b ∈ [Op.b, .beq, .bne] ∧ SymbolTable.address [(['x'], 4 * 300)] ['x'] = some (4 * 300) ∧
    (-256 ≤ (300 : Int) - 556 ∧ (300 : Int) - 45 ≤ 255) ∧ ¬ (-256 ≤ (300 : Int) - 557) ∧
    ¬ ((300 : Int) - 44 ≤ 255) := by decide
theorem test_witness_ImmediateRanges :
    (2047 : Word).toNat ≤ 2047 ∧ 2047 < (2048 : Word).toNat ∧ (-1024 : Int) ≤ -1024 ∧ (1023 : Int) ≤ 1023 ∧
    (-1025 : Int) < -1024 ∧ 1023 < (1024 : Int) := by decide

end Sys2Proof.Machine.Tests
end

section
/-! PROOFS. The bit operations of 00_scope.md R8: what each says about one bit of its result, and the laws that follow. -/

namespace Sys2Proof.Machine

/-- A mask `1 << b` has bit `b` alone, and no bit at all when `b` is past the width. -/
theorem checkBit_bitMask {w : Nat} (b c : Nat) :
    checkBit (1#w <<< b) c = (decide (b < w) && decide (b = c)) :=
  BitVec.getLsbD_twoPow b c

/-- `set` raises bit `b` and keeps every other bit. -/
theorem checkBit_setBit {w : Nat} (v : BitVec w) {b : Nat} (hb : b < w) (c : Nat) :
    checkBit (setBit v b) c = (checkBit v c || decide (b = c)) := by
  have hmask := checkBit_bitMask (w := w) b c
  rw [decide_eq_true hb, Bool.true_and] at hmask
  calc checkBit (setBit v b) c
      = (checkBit v c || checkBit (1#w <<< b) c) := BitVec.getLsbD_or
    _ = (checkBit v c || decide (b = c)) := by rw [hmask]

/-- `clear` lowers bit `b` and keeps every other bit. -/
theorem checkBit_clearBit {w : Nat} (v : BitVec w) {b : Nat} (hb : b < w) (c : Nat) :
    checkBit (clearBit v b) c = (checkBit v c && !decide (b = c)) := by
  have hmask := checkBit_bitMask (w := w) b c
  rw [decide_eq_true hb, Bool.true_and] at hmask
  have hwidth : checkBit v c = true → c < w := BitVec.lt_of_getLsbD
  calc checkBit (clearBit v b) c
      = (checkBit v c && (decide (c < w) && !checkBit (1#w <<< b) c)) := by
        simp only [clearBit, checkBit, BitVec.getLsbD_and, BitVec.getLsbD_not]
    _ = (checkBit v c && !decide (b = c)) := by
        rw [hmask]
        cases hv : checkBit v c with
        | false => rfl
        | true => rw [decide_eq_true (hwidth hv), Bool.true_and]

theorem checkBit_setBit_self {w : Nat} (v : BitVec w) {b : Nat} (hb : b < w) : checkBit (setBit v b) b = true := by
  simp [checkBit_setBit v hb]

theorem checkBit_clearBit_self {w : Nat} (v : BitVec w) {b : Nat} (hb : b < w) :
    checkBit (clearBit v b) b = false := by
  simp [checkBit_clearBit v hb]

theorem checkBit_setBit_of_ne {w : Nat} (v : BitVec w) {b c : Nat} (hb : b < w) (hc : c ≠ b) :
    checkBit (setBit v b) c = checkBit v c := by
  simp [checkBit_setBit v hb, hc.symm]

theorem checkBit_clearBit_of_ne {w : Nat} (v : BitVec w) {b c : Nat} (hb : b < w) (hc : c ≠ b) :
    checkBit (clearBit v b) c = checkBit v c := by
  simp [checkBit_clearBit v hb, hc.symm]

/-- The mask is absorbed by itself under `|`. -/
theorem setBit_setBit {w : Nat} (v : BitVec w) (b : Nat) : setBit (setBit v b) b = setBit v b := by
  rw [setBit, setBit, BitVec.or_assoc, BitVec.or_self]

/-- The complemented mask is absorbed by itself under `&`. -/
theorem clearBit_clearBit {w : Nat} (v : BitVec w) (b : Nat) : clearBit (clearBit v b) b = clearBit v b := by
  rw [clearBit, clearBit, BitVec.and_assoc, BitVec.and_self]

/-- `extract` reads the slice of `hi - lo + 1` bits from `lo` up, as an unsigned number (R6). -/
theorem extractField_eq_toNat_extractLsb' {w : Nat} (v : BitVec w) (hi lo : Nat) :
    extractField v hi lo = (v.extractLsb' lo (hi - lo + 1)).toNat :=
  (BitVec.extractLsb'_toNat lo (hi - lo + 1) v).symm

/-- Settles O7: the first three clauses are the definitions, the laws come from the single-bit facts above. -/
theorem bitOperations : Obligations.BitOperations := by
  unfold Obligations.BitOperations
  intro w v b hb
  exact ⟨rfl, rfl, rfl,
    checkBit_setBit_self v hb, checkBit_clearBit_self v hb,
    setBit_setBit v b, clearBit_clearBit v b,
    fun _ hc => ⟨checkBit_setBit_of_ne v hb hc, checkBit_clearBit_of_ne v hb hc⟩,
    fun lo _ => extractField_eq_toNat_extractLsb' v b lo⟩

end Sys2Proof.Machine
end

section
/-! PROOFS. The FTL's bookkeeping (R22, R230, R231): the agreement of its tables, said block state by block state, and
every table update of Write, Allocate and GarbageCollect keeping it. -/

namespace Sys2Proof.Machine

/-! ## The state of a block -/

/-- The state the block table gives a block; none for a block it has no entry for. -/
def Ftl.stateOf (f : Ftl) (b : Nat) : Option BlockState :=
  f.info[b]?.map BlockInfo.state

@[simp] theorem Ftl.updateInfo_length (f : Ftl) (b : Nat) (g : BlockInfo → BlockInfo) :
    (f.updateInfo b g).info.length = f.info.length :=
  List.length_modify ..

/-- An update of block `b` acts on the state of `b` alone. -/
theorem Ftl.stateOf_updateInfo (f : Ftl) (b : Nat) (g : BlockInfo → BlockInfo) (c : Nat) :
    (f.updateInfo b g).stateOf c = if b = c then f.info[c]?.map fun i => (g i).state else f.stateOf c := by
  simp only [Ftl.stateOf, Ftl.updateInfo, List.getElem?_modify]
  split <;> simp [Function.comp_def]

/-- An update that gives block `b` a state. -/
theorem Ftl.stateOf_updateInfo_const (f : Ftl) {b : Nat} (g : BlockInfo → BlockInfo) {new : BlockState}
    (hg : ∀ i, (g i).state = new) (hb : b < f.info.length) (c : Nat) :
    (f.updateInfo b g).stateOf c = if b = c then some new else f.stateOf c := by
  rw [Ftl.stateOf_updateInfo]
  split
  · next h => subst h; simp [hg, hb]
  · rfl

/-- An update that leaves the state of every block, as those of the valid bits do. -/
theorem Ftl.stateOf_updateInfo_same (f : Ftl) (b : Nat) (g : BlockInfo → BlockInfo) (hg : ∀ i, (g i).state = i.state) :
    (f.updateInfo b g).stateOf = f.stateOf := by
  funext c
  rw [Ftl.stateOf_updateInfo]
  split
  · simp [Ftl.stateOf, hg]
  · rfl

theorem Ftl.lt_length_of_stateOf {f : Ftl} {b : Nat} {st : BlockState} (h : f.stateOf b = some st) :
    b < f.info.length := by
  obtain ⟨i, hi, -⟩ := Option.map_eq_some_iff.mp h
  exact (List.getElem?_eq_some_iff.mp hi).1

/-! ## Agreement of the tables -/

/-- The FTL's tables describe one another and a chip of `n` blocks: `Storage.bookkeeping` in terms of `Ftl.stateOf`, to
which it is tied by `Storage.bookkeeping_iff`. -/
structure Ftl.Consistent (f : Ftl) (n : Nat) : Prop where
  blocks : f.info.length = n
  freeOnce : f.freeList.Nodup
  free : ∀ b, f.stateOf b = some .free ↔ b ∈ f.freeList
  active : ∀ b, f.stateOf b = some .active ↔ f.active.map Cursor.block = some b

theorem Storage.bookkeeping_iff (st : Storage) : st.bookkeeping ↔ st.ftl.Consistent st.nand.blockCount := by
  constructor
  · intro h
    refine ⟨h.blocks, h.freeOnce, fun b => ⟨fun hb => ?_, fun hb => ?_⟩, fun b => ⟨fun hb => ?_, fun hb => ?_⟩⟩
    · obtain ⟨i, hi, hs⟩ := Option.map_eq_some_iff.mp hb
      exact (h.freeListed b i hi).mp hs
    · have hi := List.getElem?_eq_getElem (h.freeInRange b hb)
      exact Option.map_eq_some_iff.mpr ⟨_, hi, (h.freeListed b _ hi).mpr hb⟩
    · obtain ⟨i, hi, hs⟩ := Option.map_eq_some_iff.mp hb
      exact (h.activeIsCursor b i hi).mp hs
    · obtain ⟨c, hc, rfl⟩ := Option.map_eq_some_iff.mp hb
      have hi := List.getElem?_eq_getElem (h.cursorInRange c hc)
      exact Option.map_eq_some_iff.mpr ⟨_, hi, (h.activeIsCursor _ _ hi).mpr hb⟩
  · intro h
    have state : ∀ b i new, st.ftl.info[b]? = some i → (i.state = new ↔ st.ftl.stateOf b = some new) := by
      intro b i new hi
      simp [Ftl.stateOf, hi]
    exact
      { blocks := h.blocks
        freeOnce := h.freeOnce
        freeListed := fun b i hi => (state b i _ hi).trans (h.free b)
        freeInRange := fun b hb => Ftl.lt_length_of_stateOf ((h.free b).mpr hb)
        activeIsCursor := fun b i hi => (state b i _ hi).trans (h.active b)
        cursorInRange := fun c hc => Ftl.lt_length_of_stateOf ((h.active c.block).mpr (by simp [hc])) }

/-- Agreement speaks of the block states, the free list and the cursor's block alone. -/
theorem Ftl.Consistent.congr {f g : Ftl} {n : Nat} (h : f.Consistent n) (blocks : g.info.length = f.info.length)
    (states : g.stateOf = f.stateOf) (freeList : g.freeList = f.freeList)
    (cursor : g.active.map Cursor.block = f.active.map Cursor.block) : g.Consistent n :=
  ⟨blocks.trans h.blocks, freeList ▸ h.freeOnce, fun b => by rw [states, freeList]; exact h.free b,
    fun b => by rw [states, cursor]; exact h.active b⟩

/-- One block changes its state, and the free list and the cursor follow. -/
theorem Ftl.Consistent.changeState {f g : Ftl} {n b : Nat} {new : BlockState} (h : f.Consistent n)
    (blocks : g.info.length = f.info.length)
    (states : ∀ c, g.stateOf c = if b = c then some new else f.stateOf c)
    (freeOnce : g.freeList.Nodup)
    (free : new = .free ↔ b ∈ g.freeList)
    (freeOther : ∀ c, b ≠ c → (c ∈ g.freeList ↔ c ∈ f.freeList))
    (active : new = .active ↔ g.active.map Cursor.block = some b)
    (activeOther : ∀ c, b ≠ c → (g.active.map Cursor.block = some c ↔ f.active.map Cursor.block = some c)) :
    g.Consistent n := by
  refine ⟨blocks.trans h.blocks, freeOnce, fun c => ?_, fun c => ?_⟩ <;> rw [states]
  · by_cases hc : b = c
    · subst hc; simpa using free
    · rw [if_neg hc, freeOther c hc]; exact h.free c
  · by_cases hc : b = c
    · subst hc; simpa using active
    · rw [if_neg hc, activeOther c hc]; exact h.active c

/-! ## The table updates -/

/-- Clearing the valid bit of an LBA's old page changes no block's state (R234 step 2). -/
theorem Ftl.Consistent.invalidate {f : Ftl} {n : Nat} (h : f.Consistent n) (lba : BitVec 32) :
    (f.invalidate lba).Consistent n := by
  unfold Ftl.invalidate
  split
  · exact h.congr (f.updateInfo_length _ _) (f.stateOf_updateInfo_same _ _ fun _ => rfl) rfl rfl
  · exact h

/-- Mapping an LBA and setting a valid bit change no block's state (R234 step 5). -/
theorem Ftl.Consistent.mapPage {f : Ftl} {n : Nat} (h : f.Consistent n) (lba pba : BitVec 32) (b p : Nat) :
    ((f.map lba pba).setValid b p).Consistent n :=
  h.congr (Ftl.updateInfo_length _ _ _) (Ftl.stateOf_updateInfo_same _ _ _ fun _ => rfl) rfl rfl

/-- Moving the cursor on within its block. -/
theorem Ftl.Consistent.advanceCursor {f : Ftl} {n : Nat} (h : f.Consistent n) {c c' : Cursor}
    (hc : f.active = some c) (hb : c'.block = c.block) : Ftl.Consistent { f with active := some c' } n :=
  h.congr rfl rfl rfl (by simp [hc, hb])

/-- The cursor's block becomes Full and there is no cursor (R234: after page 63). -/
theorem Ftl.Consistent.closeBlock {f : Ftl} {n : Nat} (h : f.Consistent n) {c : Cursor} (hc : f.active = some c) :
    Ftl.Consistent { f.setState c.block .full with active := none } n := by
  have hactive : f.stateOf c.block = some .active := (h.active c.block).mpr (by simp [hc])
  have hfree : c.block ∉ f.freeList := by simp [← h.free, hactive]
  refine h.changeState (b := c.block) (new := .full) (f.updateInfo_length _ _)
    (f.stateOf_updateInfo_const _ (fun _ => rfl) (Ftl.lt_length_of_stateOf hactive)) h.freeOnce ?_ (fun _ _ => Iff.rfl)
    ?_ ?_
  · exact iff_of_false (by decide) hfree
  · exact iff_of_false (by decide) (by simp)
  · intro d hd; simp [hc, hd]

/-- The top of the free list becomes the Active block (R231, R236), where there was none. -/
theorem Ftl.Consistent.openFreeBlock {f g : Ftl} {n : Nat} {c : Cursor} (h : f.Consistent n) (hn : f.active = none)
    (ho : f.openFreeBlock = some (c, g)) : g.Consistent n ∧ g.active = some c := by
  unfold Ftl.openFreeBlock at ho
  split at ho
  · cases ho
  · next b rest hl =>
    cases ho
    have hnodup : (b :: rest).Nodup := hl ▸ h.freeOnce
    have hfree : f.stateOf b = some .free := (h.free b).mpr (by simp [hl])
    refine ⟨h.changeState (b := b) (new := .active) (f.updateInfo_length _ _)
      (f.stateOf_updateInfo_const _ (fun _ => rfl) (Ftl.lt_length_of_stateOf hfree)) hnodup.of_cons ?_ ?_ ?_ ?_, rfl⟩
    · exact iff_of_false (by decide) (List.nodup_cons.mp hnodup).1
    · intro d hd; simp [hl, hd.symm]
    · simp
    · intro d hd; simp [hn, hd]

/-- The victim is a block that the table has, neither Free nor Bad, and not the cursor's (R237 step 1). -/
theorem Ftl.victim_candidate {f : Ftl} {v : Nat} {i : BlockInfo} (h : f.victim = some (v, i)) :
    f.info[v]? = some i ∧ f.victimCandidate v i = true := by
  have fold : ∀ (l : List (BlockInfo × Nat)) (best : Option (Nat × BlockInfo)),
      (∀ e ∈ l, f.info[e.2]? = some e.1) →
      (∀ e ∈ best, f.info[e.1]? = some e.2 ∧ f.victimCandidate e.1 e.2 = true) →
      ∀ e ∈ l.foldl (betterVictim f) best, f.info[e.1]? = some e.2 ∧ f.victimCandidate e.1 e.2 = true := by
    intro l
    induction l with
    | nil => exact fun _ _ hb => hb
    | cons d rest ih =>
      intro best hl hb
      refine ih _ (fun e he => hl e (List.mem_cons_of_mem _ he)) fun e he => ?_
      unfold betterVictim at he
      have hd := hl d List.mem_cons_self
      split at he
      · next hcand =>
        split at he
        · cases he; exact ⟨hd, hcand⟩
        · split at he
          · cases he; exact ⟨hd, hcand⟩
          · exact hb e he
      · exact hb e he
  exact fold f.info.zipIdx none (fun e he => List.mem_zipIdx_iff_getElem?.mp he) (by simp) (v, i) h

/-- The victim's state as the agreement of the tables has it: its block is not on the free list nor the cursor's. -/
theorem Ftl.Consistent.victim {f : Ftl} {n v : Nat} {i : BlockInfo} (h : f.Consistent n) (hv : f.victim = some (v, i)) :
    v < f.info.length ∧ v ∉ f.freeList ∧ f.active.map Cursor.block ≠ some v := by
  obtain ⟨hi, hc⟩ := Ftl.victim_candidate hv
  have hs : f.stateOf v = some i.state := by simp [Ftl.stateOf, hi]
  simp only [Ftl.victimCandidate, Bool.and_eq_true, bne_iff_ne] at hc
  obtain ⟨⟨hfree, -⟩, hcursor⟩ := hc
  exact ⟨Ftl.lt_length_of_stateOf hs, by simp [← h.free, hs, hfree], hcursor⟩

/-- The erased victim becomes Free and the top of the free list (R237 step 4). -/
theorem Ftl.Consistent.freeVictim {f : Ftl} {n v : Nat} {i : BlockInfo} (h : f.Consistent n)
    (hv : f.victim = some (v, i)) : (f.freeVictim v).Consistent n := by
  obtain ⟨hlt, hfree, hcursor⟩ := h.victim hv
  refine h.changeState (b := v) (new := .free) (f.updateInfo_length _ _)
    (f.stateOf_updateInfo_const _ (fun _ => rfl) hlt) (List.nodup_cons.mpr ⟨hfree, h.freeOnce⟩) ?_ ?_ ?_
    (fun _ _ => Iff.rfl)
  · simp [Ftl.freeVictim]
  · intro d hd; simp [Ftl.freeVictim, hd.symm]
  · exact iff_of_false (by decide) hcursor

/-- A victim that cannot be erased becomes Bad (R237 step 4). -/
theorem Ftl.Consistent.spoilVictim {f : Ftl} {n v : Nat} {i : BlockInfo} (h : f.Consistent n)
    (hv : f.victim = some (v, i)) : (f.setState v .bad).Consistent n := by
  obtain ⟨hlt, hfree, hcursor⟩ := h.victim hv
  exact h.changeState (b := v) (new := .bad) (f.updateInfo_length _ _)
    (f.stateOf_updateInfo_const _ (fun _ => rfl) hlt) h.freeOnce (iff_of_false (by decide) hfree) (fun _ _ => Iff.rfl)
    (iff_of_false (by decide) hcursor) (fun _ _ => Iff.rfl)

/-! ## Write, Allocate, GarbageCollect -/

theorem Storage.programAt_bookkeeping {st : Storage} (h : st.bookkeeping) {c : Cursor} (hc : st.ftl.active = some c)
    (lba : BitVec 32) (buf : List Byte) : (st.programAt c lba buf).2.bookkeeping := by
  have hblocks := st.nand.program_blockCount c.block c.next buf (some (oobRecord lba))
  rw [Storage.bookkeeping_iff] at *
  unfold Storage.programAt
  split
  · next nand hp =>
    rw [hp] at hblocks
    dsimp only at *
    rw [hblocks]
    have hm := h.mapPage lba (pbaOf c.block c.next) c.block c.next
    split
    · next c' hadv =>
      refine hm.advanceCursor (c := c) hc ?_
      unfold Cursor.advance at hadv
      split at hadv <;> cases hadv
      rfl
    · exact hm.closeBlock (c := c) hc
  · next hp =>
    rw [hp] at hblocks
    dsimp only at *
    rw [hblocks]
    exact h

theorem Storage.invalidate_bookkeeping {st : Storage} (h : st.bookkeeping) (lba : BitVec 32) :
    Storage.bookkeeping { st with ftl := st.ftl.invalidate lba } := by
  rw [Storage.bookkeeping_iff] at *
  exact h.invalidate lba

theorem Storage.openFreeBlock_bookkeeping {st : Storage} (h : st.bookkeeping) (hn : st.ftl.active = none) {c : Cursor}
    {f : Ftl} (ho : st.ftl.openFreeBlock = some (c, f)) :
    Storage.bookkeeping { st with ftl := f } ∧ f.active = some c := by
  rw [Storage.bookkeeping_iff] at *
  exact h.openFreeBlock hn ho

theorem Storage.writeSurvivor_bookkeeping {st : Storage} (h : st.bookkeeping) (lba : BitVec 32) (buf : List Byte) :
    (st.writeSurvivor lba buf).2.bookkeeping := by
  have hi := Storage.invalidate_bookkeeping h lba
  unfold Storage.writeSurvivor
  dsimp only
  split
  · next c hc => exact Storage.programAt_bookkeeping hi hc lba buf
  · next hn =>
    split
    · next c f ho =>
      obtain ⟨hb, hc⟩ := Storage.openFreeBlock_bookkeeping hi hn ho
      exact Storage.programAt_bookkeeping hb hc lba buf
    · exact hi

theorem Storage.writeSurvivors_bookkeeping {st : Storage} (h : st.bookkeeping) (live : List (BitVec 32 × List Byte)) :
    (st.writeSurvivors live).2.bookkeeping := by
  induction live generalizing st with
  | nil => exact h
  | cons e rest ih =>
    obtain ⟨lba, data⟩ := e
    have hw := Storage.writeSurvivor_bookkeeping h lba data
    unfold Storage.writeSurvivors
    split
    · next hs => rw [hs] at hw; exact ih hw
    · next hs => rw [hs] at hw; exact hw

theorem Storage.garbageCollect_bookkeeping {st : Storage} (h : st.bookkeeping) :
    st.garbageCollect.2.bookkeeping := by
  unfold Storage.garbageCollect
  split
  · exact h
  · next victim info hv =>
    split
    · exact h
    · have hblocks := st.nand.erase_blockCount victim
      rw [Storage.bookkeeping_iff] at h
      split
      · next he =>
        rw [he] at hblocks
        refine Storage.writeSurvivors_bookkeeping ((Storage.bookkeeping_iff _).mpr ?_) _
        exact hblocks.symm ▸ h.freeVictim hv
      · next he =>
        rw [he] at hblocks
        exact (Storage.bookkeeping_iff _).mpr (hblocks.symm ▸ h.spoilVictim hv)

/-- Allocate gives the cursor of the Active block, its own or one that GC's survivors opened (R236, C10). -/
theorem Storage.allocate_bookkeeping {st : Storage} (h : st.bookkeeping) (hn : st.ftl.active = none) :
    st.allocate.2.bookkeeping ∧ ∀ c, st.allocate.1 = some c → st.allocate.2.ftl.active = some c := by
  unfold Storage.allocate
  split
  · next ho =>
    obtain ⟨hb, hc⟩ := Storage.openFreeBlock_bookkeeping h hn ho
    exact ⟨hb, fun _ he => he ▸ hc⟩
  · have hg := Storage.garbageCollect_bookkeeping h
    split
    · next he => rw [he] at hg; exact ⟨hg, nofun⟩
    · next he =>
      rw [he] at hg
      split
      · next hc => exact ⟨hg, fun _ he => he ▸ hc⟩
      · next hnone =>
        split
        · next ho =>
          obtain ⟨hb, hc⟩ := Storage.openFreeBlock_bookkeeping hg hnone ho
          exact ⟨hb, fun _ he => he ▸ hc⟩
        · exact ⟨hg, nofun⟩

theorem Storage.write_bookkeeping {st : Storage} (h : st.bookkeeping) (lba : BitVec 32) (buf : List Byte) :
    (st.write lba buf).2.bookkeeping := by
  have hi := Storage.invalidate_bookkeeping h lba
  unfold Storage.write
  dsimp only
  split
  · next c hc => exact Storage.programAt_bookkeeping hi hc lba buf
  · next hn =>
    obtain ⟨hb, hc⟩ := Storage.allocate_bookkeeping hi hn
    split
    · next he => rw [he] at hb hc; exact Storage.programAt_bookkeeping hb (hc _ rfl) lba buf
    · next he => rw [he] at hb; exact hb

end Sys2Proof.Machine
end

section
/-! PROOFS. What one cycle can change outside the CPU, and that a step is a whole number of cycles (R40, R121; log 8), so
that what every cycle keeps every step keeps. -/

namespace Sys2Proof.Machine

/-! ## What a cycle can change outside the CPU -/

/-- What passes outside the CPU and the bus, in any number of cycles: the configuration, the canonical forms and the
controller's status rule stay, the storage stack changes by Writes alone, and the keyboard's FIFO does not grow. -/
structure Soc.Evolves (p q : Soc) : Prop where
  cfg : q.cfg = p.cfg
  storage : p.storage.Reaches q.storage
  canonical : p.canonical → q.canonical
  status : p.ctrl.statusLegal → q.ctrl.statusLegal
  fifo : q.periph.keyboard.fifo.length ≤ p.periph.keyboard.fifo.length

theorem Soc.Evolves.refl (p : Soc) : p.Evolves p := ⟨rfl, .refl, id, id, le_rfl⟩

/-- The bus is none of it: whatever drives the lines and signals. -/
theorem Soc.evolves_withBus (p : Soc) (b : Bus) : p.Evolves { p with bus := b } := ⟨rfl, .refl, id, id, le_rfl⟩

theorem Soc.Evolves.trans {p q r : Soc} (h : p.Evolves q) (k : q.Evolves r) : p.Evolves r :=
  ⟨k.cfg.trans h.cfg, h.storage.trans k.storage, k.canonical ∘ h.canonical, k.status ∘ h.status, k.fifo.trans h.fifo⟩

/-- What the bus tick and the device ticks of a cycle keep, a decode failure included (R53): as `Soc.Evolves`, and the
signals that the CPU alone drives or nothing drives (R17). -/
structure Soc.Cycled (p q : Soc) : Prop extends Soc.Evolves p q where
  read : q.bus.read = p.bus.read
  write : q.bus.write = p.bus.write
  ready : q.bus.ready = p.bus.ready
  irq : q.bus.irq = p.bus.irq

theorem Soc.Cycled.refl (p : Soc) : p.Cycled p := ⟨.refl p, rfl, rfl, rfl, rfl⟩

theorem Soc.Cycled.trans {p q r : Soc} (h : p.Cycled q) (k : q.Cycled r) : p.Cycled r :=
  ⟨h.toEvolves.trans k.toEvolves, k.read.trans h.read, k.write.trans h.write, k.ready.trans h.ready, k.irq.trans h.irq⟩

theorem Soc.Served.cycled {p q : Soc} (h : p.Served q) : p.Cycled q :=
  ⟨⟨h.cfg, h.storage, h.canonical, h.status, h.fifo⟩, h.read, h.write, h.ready, h.irq⟩

/-- The bus tick and the device ticks of any cycle: idle, served, or not claimed. -/
theorem Soc.cycle_cycled {p q : Soc} (h : p.cycle = .next q) : p.Cycled q := by
  by_cases one : p.bus.read = p.bus.write
  · cases hr : p.bus.read with
    | false =>
      rw [Soc.cycle_idle ⟨hr, one ▸ hr⟩] at h
      cases h
      exact p.deviceTicks_ticks.served.cycled
    | true => simp [Soc.cycle, Soc.busTick, hr, one ▸ hr] at h
  · cases ht : p.target p.bus.address with
    | some e =>
      obtain ⟨r, hr, hs, -⟩ := Soc.cycle_served one ht
      rw [hr] at h
      cases h
      exact hs.cycled
    | none =>
      rw [Soc.cycle_unclaimed one ht] at h
      cases h
      have failed : p.Cycled { p with bus := p.bus.busFailure } := ⟨p.evolves_withBus _, rfl, rfl, rfl, rfl⟩
      exact failed.trans (Soc.deviceTicks_ticks _).served.cycled

/-- After its CPU tick, a cycle leaves the CPU alone. -/
theorem finishCycle_next {s t : State} (h : s.finishCycle = .next t) :
    t = { s with soc := t.soc } ∧ s.soc.Cycled t.soc := by
  unfold State.finishCycle at h
  split at h
  · next q hq => cases h; exact ⟨rfl, Soc.cycle_cycled hq⟩
  · cases h
  · cases h

/-! ## A step is a whole number of cycles -/

theorem andThen_next_right (o : Out) : andThen o .next = o := by
  cases o <;> rfl

theorem cycles_add (m n : Nat) (s : State) : cycles (m + n) s = andThen (cycles m s) (cycles n) := by
  induction m generalizing s with
  | zero => rw [Nat.zero_add]; rfl
  | succ m ih =>
    rw [Nat.succ_add, cycles, cycles, andThen_assoc]
    exact congrArg _ (funext ih)

/-- The outcome is that of some number of cycles. -/
def State.Runs (s : State) (o : Out) : Prop := ∃ n, cycles n s = o

theorem State.Runs.refl (s : State) : s.Runs (.next s) := ⟨0, rfl⟩

/-- One cycle, from what its CPU tick does. -/
theorem State.Runs.cycle {s u : State} (h : s.cpuTick = .next u) : s.Runs u.finishCycle := by
  refine ⟨1, ?_⟩
  unfold cycles Machine.cycle
  rw [h, andThen_next]
  exact andThen_next_right _

/-- One cycle that the CPU refuses. -/
theorem State.Runs.refused {s : State} {r : Refusal} (h : s.cpuTick = .refused r) : s.Runs (.refused r) :=
  ⟨1, by simp [cycles, Machine.cycle, h]⟩

theorem State.Runs.andThen {s : State} {o : Out} {f : State → Out} (h : s.Runs o)
    (hf : ∀ t, o = .next t → t.Runs (f t)) : s.Runs (andThen o f) := by
  obtain ⟨m, rfl⟩ := h
  cases ho : cycles m s with
  | next t =>
    obtain ⟨n, hn⟩ := hf t ho
    exact ⟨m + n, by rw [cycles_add, ho, andThen_next, andThen_next, hn]⟩
  | fault r => exact ⟨m, ho⟩
  | refused r => exact ⟨m, ho⟩

/-! ### Transactions -/

/-- A CPU that sees Wait in one of its waiting micro-ops does nothing (R123, R127). -/
theorem cpuTick_waiting {s : State} (h : s.waiting = true) (hw : s.soc.bus.wait = true) : s.cpuTick = .next s := by
  simp only [State.waiting, Bool.and_eq_true, Bool.not_eq_true', beq_iff_eq, Bool.or_eq_true] at h
  obtain ⟨⟨hrun, huop⟩, hstage | hstage⟩ := h
  · simp [State.cpuTick, hrun, hstage, huop, hw]
  · simp [State.cpuTick, State.memLatch, hrun, hstage, huop, hw]

/-- The wait states of a transaction are cycles that leave the CPU as it is. -/
theorem waitStates_runs (n : Nat) {s : State} (h : s.waiting = true) : s.Runs (s.waitStates n) := by
  induction n generalizing s with
  | zero => exact .refl s
  | succ n ih =>
    unfold State.waitStates
    split
    · next hw =>
      refine (State.Runs.cycle (cpuTick_waiting h (Bool.and_eq_true_iff.mp hw).1)).andThen fun t ht => ih ?_
      rw [(finishCycle_next ht).1]
      exact h
    · exact .refl s

theorem waitStates_next {n : Nat} {s t : State} (h : s.waitStates n = .next t) :
    t = { s with soc := t.soc } ∧ s.soc.Cycled t.soc := by
  induction n generalizing s with
  | zero => cases h; exact ⟨rfl, .refl _⟩
  | succ n ih =>
    unfold State.waitStates at h
    split at h
    · obtain ⟨u, hu, ht⟩ := andThen_eq_next h
      obtain ⟨hcpu, hsoc⟩ := finishCycle_next hu
      obtain ⟨hcpu', hsoc'⟩ := ih ht
      refine ⟨?_, hsoc.trans hsoc'⟩
      rw [hcpu', hcpu]
    · cases h; exact ⟨rfl, .refl _⟩

/-- The rest of a transaction is a number of cycles, where `latch` is what the CPU does in the tick that sees Wait
clear. -/
theorem completeTransaction_runs {s : State} (h : s.waiting = true) {latch : State → State}
    (hl : ∀ u : State, u.cpu = s.cpu → u.soc.bus.wait = false → u.cpuTick = .next (latch u)) :
    s.Runs (s.completeTransaction latch) := by
  refine (waitStates_runs _ h).andThen fun u hu => ?_
  split
  · exact .refl u
  · next hw =>
    refine .cycle (hl u ?_ (by simpa using hw))
    rw [(waitStates_next hu).1]

/-- How a transaction ends: the CPU still waits (R353), or the latch tick was its last. -/
theorem completeTransaction_next {s t : State} {latch : State → State} (h : s.completeTransaction latch = .next t) :
    t = { s with soc := t.soc } ∨
    ∃ p, s.soc.Cycled p ∧ p.bus.wait = false ∧ (latch { s with soc := p }).finishCycle = .next t := by
  obtain ⟨u, hu, ht⟩ := andThen_eq_next h
  obtain ⟨hcpu, hsoc⟩ := waitStates_next hu
  split at ht
  · cases ht; exact .inl hcpu
  · next hw => exact .inr ⟨u.soc, hsoc, by simpa using hw, hcpu ▸ ht⟩

/-! ### The stages of a running CPU -/

/-- The CPU runs, is in a stage, and has an instruction latched. -/
structure State.InStage (s : State) (stage : Stage) (d : Decoded) : Prop where
  running : s.cpu.halted = false
  stage : s.cpu.stage = stage
  instr : s.cpu.instr = d

theorem State.InStage.withSoc {s : State} {stage : Stage} {d : Decoded} (h : s.InStage stage d) (p : Soc) :
    State.InStage { s with soc := p } stage d := ⟨h.running, h.stage, h.instr⟩

/-- A cycle's bus tick and device ticks leave the CPU in its stage. -/
theorem State.InStage.finishCycle {s t : State} {stage : Stage} {d : Decoded} (h : s.InStage stage d)
    (ht : s.finishCycle = .next t) : t.InStage stage d := by
  rw [(finishCycle_next ht).1]
  exact h.withSoc _

theorem State.InStage.cpuTick_decode {s : State} {d : Decoded} (h : s.InStage .decode d) :
    s.cpuTick = .next s.decodeStage := by
  simp [State.cpuTick, h.running, h.stage]

theorem State.InStage.cpuTick_execute {s : State} {d : Decoded} (h : s.InStage .execute d) :
    s.cpuTick = s.executeStage := by
  simp [State.cpuTick, h.running, h.stage]

theorem State.InStage.cpuTick_writeBack {s : State} {d : Decoded} (h : s.InStage .writeBack d) :
    s.cpuTick = .next s.writeBackStage := by
  simp [State.cpuTick, h.running, h.stage]

theorem State.InStage.cpuTick_memRequest {s : State} {d : Decoded} (h : s.InStage .memory d) (hu : s.cpu.uop = 0) :
    s.cpuTick = .next s.memRequest := by
  simp [State.cpuTick, h.running, h.stage, hu]

theorem State.InStage.cpuTick_memLatch {s : State} {d : Decoded} (h : s.InStage .memory d) (hu : s.cpu.uop = 1) :
    s.cpuTick = .next s.memLatch := by
  simp [State.cpuTick, h.running, h.stage, hu]

/-- The Decode stage leaves the CPU in Execute with the same instruction (R124). -/
theorem State.InStage.decodeStage {s : State} {d : Decoded} (h : s.InStage .decode d) :
    s.decodeStage.InStage .execute d := by
  unfold State.decodeStage
  split <;> exact ⟨h.running, rfl, h.instr⟩

/-! ### The sequences of cycles -/

/-- A Decode cycle, and what follows it in Execute. -/
theorem decode_runs {s : State} {d : Decoded} (h : s.InStage .decode d) {rest : State → Out}
    (hrest : ∀ t : State, t.InStage .execute d → t.Runs (rest t)) :
    s.Runs (andThen s.decodeStage.finishCycle rest) :=
  (State.Runs.cycle h.cpuTick_decode).andThen fun t ht => hrest t (h.decodeStage.finishCycle ht)

/-- Decode, Execute and WriteBack (R120: the path D E W). -/
theorem threeCycles_runs {s : State} {d : Decoded} (h : s.InStage .decode d) {dec ex wb : State → State}
    (hdec : dec s = s.decodeStage)
    (hex : ∀ t : State, t.InStage .execute d → t.executeStage = .next (ex t) ∧ (ex t).InStage .writeBack d)
    (hwb : ∀ t : State, t.InStage .writeBack d → wb t = t.writeBackStage) :
    s.Runs (s.threeCycles dec ex wb) := by
  unfold State.threeCycles
  rw [hdec]
  refine decode_runs h fun t ht => ?_
  obtain ⟨hstep, hnext⟩ := hex t ht
  refine (State.Runs.cycle (ht.cpuTick_execute.trans hstep)).andThen fun u hu => ?_
  have hu := hnext.finishCycle hu
  rw [hwb u hu]
  exact .cycle hu.cpuTick_writeBack

/-- An ALU instruction, given by its decoded form (R125, R163). -/
theorem aluInstruction_runs {s : State} {d : Decoded} (h : s.InStage .decode d) (op : AluOp)
    (hshape : d.shape = .register)
    (hex : ∀ t : State, t.cpu.instr = d → t.executeStage = .next (t.executeAlu op))
    (hwb : ∀ t : State, t.cpu.instr = d → t.writeBackStage = t.writeBackResult d.rd) :
    s.Runs (s.aluInstruction op d.rd d.rn d.rm) :=
  threeCycles_runs h (by simp [State.decodeStage, h.instr, hshape])
    (fun t ht => ⟨hex t ht.instr, ht.running, rfl, ht.instr⟩) fun t ht => (hwb t ht.instr).symm

/-- A branch, given by its decoded form (R120: the path D E when taken, D E W when not). -/
theorem branchInstruction_runs {s : State} {d : Decoded} (h : s.InStage .decode d) {taken : Flags → Bool}
    (hshape : d.shape = .branch)
    (hex : ∀ t : State, t.cpu.instr = d → t.executeStage = .next (t.executeBranch (taken t.cpu.flags)))
    (hwb : ∀ t : State, t.cpu.instr = d → t.writeBackStage = t.writeBackNone) :
    s.Runs (s.branchInstruction d.imm taken) := by
  have hdec : s.readBranchOperand d.imm = s.decodeStage := by simp [State.decodeStage, h.instr, hshape]
  unfold State.branchInstruction
  rw [hdec]
  refine decode_runs h fun t ht => ?_
  refine (State.Runs.cycle (ht.cpuTick_execute.trans (hex t ht.instr))).andThen fun u hu => ?_
  obtain ⟨hcpu, -⟩ := finishCycle_next hu
  split
  · next hstage =>
    have hin : u.InStage .writeBack d := by
      refine ⟨?_, hstage, ?_⟩ <;> rw [hcpu] <;> cases taken t.cpu.flags
      exacts [ht.running, ht.running, ht.instr, ht.instr]
    rw [← hwb u hin.instr]
    exact .cycle hin.cpuTick_writeBack
  · exact .refl u

/-- The request of a transaction moves the micro-op counter alone (R126). -/
theorem memRequest_cpu (s : State) : s.memRequest.cpu = { s.cpu with uop := 1 } := by
  unfold State.memRequest
  split <;> rfl

/-- Latching, or waiting on, keeps the latched instruction of a running CPU (R127). -/
theorem memLatch_cpu (s : State) : s.memLatch.cpu.halted = s.cpu.halted ∧ s.memLatch.cpu.instr = s.cpu.instr := by
  unfold State.memLatch
  split
  · exact ⟨rfl, rfl⟩
  · split <;> exact ⟨rfl, rfl⟩

/-- The memory micro-ops and WriteBack of a load or store (R126, R127, R128), or the wait for a device that never
answers (R353). -/
theorem memoryCycles_runs {s : State} {d : Decoded} (h : s.InStage .memory d) (huop : s.cpu.uop = 0)
    {request latch wb : State → State}
    (hrequest : request s = s.memRequest)
    (hlatch : ∀ t : State, t.cpu.instr = d → t.soc.bus.wait = false → latch t = t.memLatch)
    (hwb : ∀ t : State, t.cpu.instr = d → wb t = t.writeBackStage) :
    s.Runs (andThen (request s).finishCycle fun s => andThen (s.completeTransaction latch) fun s =>
      if s.cpu.stage = .writeBack then (wb s).finishCycle else .next s) := by
  rw [hrequest]
  refine (State.Runs.cycle (h.cpuTick_memRequest huop)).andThen fun t ht => ?_
  have hcpu : t.cpu = { s.cpu with uop := 1 } := by rw [(finishCycle_next ht).1]; exact memRequest_cpu s
  have inMemory : ∀ u : State, u.cpu = t.cpu → u.InStage .memory d ∧ u.cpu.uop = 1 := fun u hu => by
    rw [hcpu] at hu
    exact ⟨⟨by rw [hu]; exact h.running, by rw [hu]; exact h.stage, by rw [hu]; exact h.instr⟩, by rw [hu]⟩
  obtain ⟨hin, hone⟩ := inMemory t rfl
  have hwaiting : t.waiting = true := by simp [State.waiting, hin.running, hin.stage, hone]
  refine (completeTransaction_runs hwaiting fun u hu hclear => ?_).andThen fun u hu => ?_
  · obtain ⟨hin, hone⟩ := inMemory u hu
    rw [hin.cpuTick_memLatch hone, hlatch u hin.instr hclear]
  · split
    · next hstage =>
      have hu : u.InStage .writeBack d := by
        rcases completeTransaction_next hu with hstuck | ⟨p, -, hclear, hlast⟩
        · rw [hstuck, hin.stage] at hstage
          cases hstage
        · obtain ⟨hrunning, hinstr⟩ := memLatch_cpu { t with soc := p }
          rw [hlatch { t with soc := p } hin.instr hclear] at hlast
          have hucpu := congrArg State.cpu (finishCycle_next hlast).1
          exact ⟨by rw [hucpu]; exact hrunning.trans hin.running, hstage, by rw [hucpu]; exact hinstr.trans hin.instr⟩
      rw [hwb u hu.instr]
      exact .cycle hu.cpuTick_writeBack
    · exact .refl u

/-- A load or store, given by its decoded form and its micro-ops (R120: the path D E M0 M1 W). -/
theorem memoryInstruction_runs {s : State} {d : Decoded} (h : s.InStage .decode d) {request latch wb : State → State}
    (hshape : d.shape = .immediate)
    (hex : ∀ t : State, t.cpu.instr = d → t.executeStage = .next t.executeAddress)
    (hrequest : ∀ t : State, t.cpu.instr = d → request t = t.memRequest)
    (hlatch : ∀ t : State, t.cpu.instr = d → t.soc.bus.wait = false → latch t = t.memLatch)
    (hwb : ∀ t : State, t.cpu.instr = d → wb t = t.writeBackStage) :
    s.Runs (s.memoryInstruction d.rn d.imm request latch wb) := by
  have hdec : s.readImmediateOperands d.rn d.imm = s.decodeStage := by simp [State.decodeStage, h.instr, hshape]
  unfold State.memoryInstruction
  rw [hdec]
  refine decode_runs h fun t ht => ?_
  refine (State.Runs.cycle (ht.cpuTick_execute.trans (hex t ht.instr))).andThen fun u hu => ?_
  have hin : u.InStage .memory d := State.InStage.finishCycle (s := t.executeAddress) ⟨ht.running, rfl, ht.instr⟩ hu
  have huop : u.cpu.uop = 0 := by rw [(finishCycle_next hu).1]; rfl
  exact memoryCycles_runs hin huop (hrequest u hin.instr) hlatch hwb

/-- The meaning of an instruction, from its Decode stage, is a number of cycles of a CPU that has it latched. -/
theorem exec_runs {s : State} (i : Instr) (h : s.InStage .decode i.decoded) : s.Runs (exec i s) := by
  cases i with
  | nop | cmp | mov =>
    simp only [exec, execNop, execCmp, execMov]
    exact threeCycles_runs h (by simp only [State.decodeStage, h.instr]; rfl)
      (fun t ht => ⟨by simp only [State.executeStage, ht.instr]; rfl, ht.running, rfl, ht.instr⟩)
      (fun t ht => by simp only [State.writeBackStage, ht.instr]; rfl)
  | add | sub | and | or | xor | lsl | lsr | asr =>
    simp only [exec, execAdd, execSub, execAnd, execOr, execXor, execLsl, execLsr, execAsr]
    exact aluInstruction_runs h _ rfl (fun t ht => by simp only [State.executeStage, ht]; rfl)
      (fun t ht => by simp only [State.writeBackStage, ht]; rfl)
  | ldr | str =>
    simp only [exec, execLdr, execStr]
    exact memoryInstruction_runs h rfl (fun t ht => by simp only [State.executeStage, ht]; rfl)
      (fun t ht => by simp only [State.memRequest, ht]; rfl)
      (fun t ht hw => by simp only [State.memLatch, ht, hw]; rfl)
      (fun t ht => by simp only [State.writeBackStage, ht]; rfl)
  | b | beq | bne =>
    simp only [exec, execB, execBeq, execBne]
    exact branchInstruction_runs h rfl (fun t ht => by simp only [State.executeStage, ht]; rfl)
      (fun t ht => by simp only [State.writeBackStage, ht]; rfl)
  | halt rd rn rm imm =>
    have hdec : s.readRegisterOperands rn rm = s.decodeStage := by simp only [State.decodeStage, h.instr]; rfl
    simp only [exec, execHalt, hdec]
    exact decode_runs h fun t ht =>
      .cycle (ht.cpuTick_execute.trans (by simp only [State.executeStage, ht.instr]; rfl))

/-! ### The step -/

/-- The instruction a decoded form stands for has that form; without one its opcode is reserved (R99). -/
theorem decoded_instr_cases (d : Decoded) :
    (∃ i, d.instr = .ok i ∧ i.decoded = d) ∨ ∃ f, d.instr = .error f ∧ d.op = .reserved f := by
  obtain ⟨op, rd, rn, rm, imm⟩ := d
  cases op with
  | reserved f => exact .inr ⟨f, rfl, rfl⟩
  | _ => exact .inl ⟨_, rfl, rfl⟩

/-- A reserved opcode is refused in Execute, one cycle after Decode (R99, U1). -/
theorem reserved_runs {s : State} {d : Decoded} (h : s.InStage .decode d) (hidle : s.soc.busIdle) {f : BitVec 6}
    (hd : d.op = .reserved f) : s.Runs (.refused (.reservedOpcode f)) := by
  have hsoc : s.decodeStage.soc.busIdle := by
    unfold State.decodeStage
    split <;> exact hidle
  have hrefuse : ∀ t : State, t.InStage .execute d → t.Runs (.refused (.reservedOpcode f)) := fun t ht =>
    .refused (by rw [ht.cpuTick_execute]; simp [State.executeStage, ht.instr, hd])
  have := decode_runs h hrefuse
  rwa [finishCycle_idle hsoc] at this

/-- What follows the fetch is a number of cycles, whatever was fetched. -/
theorem runFetched_runs {s : State} (hrun : s.cpu.halted = false) (hidle : s.cpu.stage = .decode → s.soc.busIdle) :
    s.Runs s.runFetched := by
  unfold State.runFetched
  split
  · next hstage =>
    have hin : s.InStage .decode s.cpu.instr := ⟨hrun, hstage, rfl⟩
    rcases decoded_instr_cases s.cpu.instr with ⟨i, hi, hd⟩ | ⟨f, hf, hd⟩
    · rw [hi]; exact exec_runs i (hd ▸ hin)
    · rw [hf]; exact reserved_runs hin (hidle hstage) hd
  · exact .refl s

/-- The request of a fetch, where it is not refused (R122). -/
theorem fetchRequest_next {s u : State} (h : s.fetchRequest = .next u) :
    u.cpu = { s.cpu with uop := 1 } ∧
    u.soc = { s.soc with bus := { s.soc.bus with address := s.cpu.pc, read := true, write := false } } := by
  unfold State.fetchRequest at h
  split at h
  · cases h; exact ⟨rfl, rfl⟩
  · cases h

/-- An instruction, from its fetch to its end, is at least one cycle. -/
theorem fetchAndRun_eq_cycles {s : State} (h : s.atInstructionStart = true) :
    ∃ n, s.fetchAndRun = cycles (n + 1) s := by
  simp only [State.atInstructionStart, Bool.and_eq_true, Bool.not_eq_true', beq_iff_eq] at h
  obtain ⟨⟨hrun, hstage⟩, huop⟩ := h
  have hcycle : s.fetchAndRun =
      andThen (cycle s) fun t => andThen (t.completeTransaction State.fetchLatch) State.runFetched := by
    unfold State.fetchAndRun State.fetch cycle State.cpuTick
    simp only [hrun, hstage, huop, andThen_assoc]
    rfl
  rw [hcycle]
  suffices htail : ∀ t, cycle s = .next t →
      t.Runs (andThen (t.completeTransaction State.fetchLatch) State.runFetched) by
    cases hc : cycle s with
    | next t =>
      obtain ⟨n, hn⟩ := htail t hc
      exact ⟨n, by rw [cycles, hc, andThen_next, andThen_next, hn]⟩
    | fault r => exact ⟨0, by rw [cycles, hc]; rfl⟩
    | refused r => exact ⟨0, by rw [cycles, hc]; rfl⟩
  intro t ht
  obtain ⟨u, hu, ht⟩ := andThen_eq_next ht
  have hu : s.fetchRequest = .next u := by simpa [State.cpuTick, hrun, hstage, huop] using hu
  obtain ⟨hucpu, husoc⟩ := fetchRequest_next hu
  obtain ⟨htcpu, htsoc⟩ := finishCycle_next ht
  have htcpu : t.cpu = { s.cpu with uop := 1 } := by rw [htcpu]; exact hucpu
  have hwaiting : t.waiting = true := by simp [State.waiting, htcpu, hrun, hstage]
  refine (completeTransaction_runs hwaiting fun v hv hclear => ?_).andThen fun w hw => ?_
  · simp [State.cpuTick, hv, htcpu, hrun, hstage, hclear]
  · rcases completeTransaction_next hw with hstuck | ⟨p, hp, -, hlast⟩
    · refine runFetched_runs ?_ fun hdecode => ?_
      · rw [hstuck, htcpu]; exact hrun
      · rw [hstuck, htcpu, hstage] at hdecode
        cases hdecode
    · obtain ⟨hwcpu, hwsoc⟩ := finishCycle_next hlast
      refine runFetched_runs ?_ fun _ => ⟨hwsoc.read, ?_⟩
      · rw [hwcpu, fetchLatch_halted, htcpu]; exact hrun
      · calc w.soc.bus.write = p.bus.write := hwsoc.write
          _ = t.soc.bus.write := hp.write
          _ = u.soc.bus.write := htsoc.write
          _ = false := by rw [husoc]

/-- A step is a whole number of cycles, and at least one (log 8). -/
theorem step_eq_cycles (s : State) : ∃ n, step s = cycles (n + 1) s := by
  unfold step State.advance
  split
  · next h => exact fetchAndRun_eq_cycles h
  · exact ⟨0, (andThen_next_right _).symm⟩

/-- What every cycle keeps, every step keeps. -/
theorem step_keeps {P : State → Prop} (hP : ∀ s t, cycle s = .next t → P s → P t) {s t : State}
    (h : step s = .next t) (hs : P s) : P t := by
  have hcycles : ∀ n s, cycles n s = .next t → P s → P t := by
    intro n
    induction n with
    | zero => intro s h hs; cases h; exact hs
    | succ n ih =>
      intro s h hs
      obtain ⟨u, hu, ht⟩ := andThen_eq_next h
      exact ih u ht (hP s u hu hs)
  obtain ⟨n, hn⟩ := step_eq_cycles s
  exact hcycles _ s (hn ▸ h) hs

end Sys2Proof.Machine
end

section
/-! PROOFS. The bus master's protocol (R17, R46, R122 to R128): what it asks in each stage, and every CPU tick and every
cycle keeping it. -/

namespace Sys2Proof.Machine

/-! ## The protocol, stage by stage -/

/-- No transaction: the micro-op counter 0, no line of a request asserted, Ready and Irq not driven. It is what the
protocol asks everywhere but in a fetch and in Memory micro-op 1, and meets it in every stage. -/
structure State.BusAtRest (s : State) : Prop where
  ready : s.soc.bus.ready = false
  irq : s.soc.bus.irq = false
  uop : s.cpu.uop = 0
  idle : s.soc.busIdle

theorem State.BusAtRest.busProtocol {s : State} (h : s.BusAtRest) : s.busProtocol := by
  refine ⟨h.ready, h.irq, ?_⟩
  cases hs : s.cpu.stage <;> dsimp only
  case fetch =>
    rw [if_pos h.uop]
    exact fun hboth => Bool.false_ne_true (h.idle.1.symm.trans hboth.1)
  case memory =>
    rw [if_pos h.uop]
    exact h.idle
  all_goals exact ⟨h.uop, h.idle⟩

/-- Between Fetch and Memory, and after Memory, there is no transaction. -/
theorem State.busProtocol.atRest {s : State} (h : s.busProtocol)
    (hs : s.cpu.stage = .decode ∨ s.cpu.stage = .execute ∨ s.cpu.stage = .writeBack) : s.BusAtRest := by
  obtain ⟨hready, hirq, hlines⟩ := h
  rcases hs with hs | hs | hs <;> rw [hs] at hlines <;> exact ⟨hready, hirq, hlines.1, hlines.2⟩

/-- Nor is there before a load or store makes its request. -/
theorem State.busProtocol.atRest_memory {s : State} (h : s.busProtocol) (hs : s.cpu.stage = .memory)
    (hu : s.cpu.uop = 0) : s.BusAtRest := by
  obtain ⟨hready, hirq, hlines⟩ := h
  rw [hs] at hlines
  dsimp only at hlines
  rw [if_pos hu] at hlines
  exact ⟨hready, hirq, hu, hlines⟩

/-- Read alone is asserted while a fetch waits (R122). -/
theorem busProtocol_fetch_iff {s : State} (hs : s.cpu.stage = .fetch) (hu : s.cpu.uop ≠ 0) :
    s.busProtocol ↔ s.soc.bus.ready = false ∧ s.soc.bus.irq = false ∧
      s.soc.bus.read = true ∧ s.soc.bus.write = false := by
  simp only [State.busProtocol, hs, if_neg hu]

/-- Read alone is asserted while an LDR waits, Write alone while a STR does (R126). -/
theorem busProtocol_memory_iff {s : State} (hs : s.cpu.stage = .memory) (hu : s.cpu.uop ≠ 0) :
    s.busProtocol ↔ s.soc.bus.ready = false ∧ s.soc.bus.irq = false ∧
      if s.cpu.instr.op = .ldr then s.soc.bus.read = true ∧ s.soc.bus.write = false
      else s.soc.bus.read = false ∧ s.soc.bus.write = true := by
  simp only [State.busProtocol, hs, if_neg hu]

/-! ## The CPU's tick -/

theorem decodeStage_atRest {s : State} (h : s.BusAtRest) : s.decodeStage.BusAtRest := by
  unfold State.decodeStage
  split <;> exact ⟨h.ready, h.irq, h.uop, h.idle⟩

theorem executeBranch_atRest {s : State} (h : s.BusAtRest) (taken : Bool) : (s.executeBranch taken).BusAtRest := by
  cases taken with
  | true => exact ⟨h.ready, h.irq, rfl, h.idle⟩
  | false => exact ⟨h.ready, h.irq, h.uop, h.idle⟩

theorem executeStage_atRest {s t : State} (h : s.BusAtRest) (ht : s.executeStage = .next t) : t.BusAtRest := by
  unfold State.executeStage at ht
  cases hop : s.cpu.instr.op <;> rw [hop] at ht <;> cases ht
  case ldr | str => exact ⟨h.ready, h.irq, rfl, h.idle⟩
  case b | beq | bne => exact executeBranch_atRest h _
  all_goals exact ⟨h.ready, h.irq, h.uop, h.idle⟩

theorem writeBackStage_atRest {s : State} (h : s.BusAtRest) : s.writeBackStage.BusAtRest := by
  unfold State.writeBackStage
  split <;> exact ⟨h.ready, h.irq, rfl, h.idle⟩

/-- The request of a load or store asserts its own line alone (R126). -/
theorem memRequest_busProtocol {s : State} (h : s.BusAtRest) (hs : s.cpu.stage = .memory) :
    s.memRequest.busProtocol := by
  obtain ⟨hread, hwrite⟩ := h.idle
  have hcpu := memRequest_cpu s
  rw [busProtocol_memory_iff (by rw [hcpu]; exact hs) (by rw [hcpu]; exact one_ne_zero), hcpu]
  unfold State.memRequest
  split
  · exact ⟨h.ready, h.irq, rfl, hwrite⟩
  · exact ⟨h.ready, h.irq, hread, rfl⟩

/-- A load or store that waits goes on waiting, or takes its own line back (R127). -/
theorem memLatch_busProtocol {s : State} (h : s.busProtocol) (hs : s.cpu.stage = .memory) (hu : s.cpu.uop ≠ 0) :
    s.memLatch.busProtocol := by
  obtain ⟨hready, hirq, hlines⟩ := (busProtocol_memory_iff hs hu).mp h
  unfold State.memLatch
  split
  · exact h
  · split <;> refine State.BusAtRest.busProtocol ⟨hready, hirq, rfl, ?_⟩
    · next hop => rw [if_pos hop] at hlines; exact ⟨rfl, hlines.2⟩
    · next hop => rw [if_neg hop] at hlines; exact ⟨hlines.1, rfl⟩

/-- A fetch that waits goes on waiting, or takes Read back (R123). -/
theorem fetchLatch_busProtocol {s : State} (h : s.busProtocol) (hs : s.cpu.stage = .fetch) (hu : s.cpu.uop ≠ 0) :
    s.fetchLatch.busProtocol := by
  obtain ⟨hready, hirq, -, hwrite⟩ := (busProtocol_fetch_iff hs hu).mp h
  exact State.BusAtRest.busProtocol ⟨hready, hirq, rfl, rfl, hwrite⟩

/-- The request of a fetch asserts Read alone, whatever a CPU Reset left of the lines (R122, R392). -/
theorem fetchRequest_busProtocol {s t : State} (h : s.busProtocol) (hs : s.cpu.stage = .fetch)
    (ht : s.fetchRequest = .next t) : t.busProtocol := by
  obtain ⟨hready, hirq, -⟩ := h
  obtain ⟨hcpu, hsoc⟩ := fetchRequest_next ht
  rw [busProtocol_fetch_iff (by rw [hcpu]; exact hs) (by rw [hcpu]; exact one_ne_zero), hsoc]
  exact ⟨hready, hirq, rfl, rfl⟩

/-- Every CPU tick keeps the protocol (R121). -/
theorem cpuTick_busProtocol {s t : State} (h : s.busProtocol) (ht : s.cpuTick = .next t) : t.busProtocol := by
  unfold State.cpuTick at ht
  split at ht
  · cases ht; exact h
  · split at ht
    · next hs =>
      split at ht
      · exact fetchRequest_busProtocol h hs ht
      · next hu =>
        cases ht
        split
        · exact h
        · exact fetchLatch_busProtocol h hs hu
    · next hs => cases ht; exact (decodeStage_atRest (h.atRest (.inl hs))).busProtocol
    · next hs => exact (executeStage_atRest (h.atRest (.inr (.inl hs))) ht).busProtocol
    · next hs =>
      cases ht
      split
      · next hu => exact memRequest_busProtocol (h.atRest_memory hs hu) hs
      · next hu => exact memLatch_busProtocol h hs hu
    · next hs => cases ht; exact (writeBackStage_atRest (h.atRest (.inr (.inr hs)))).busProtocol

/-! ## The cycle and the step -/

/-- The bus tick and the device ticks drive none of the lines the protocol speaks of. -/
theorem busProtocol_withSoc {s : State} (h : s.busProtocol) {p : Soc} (hp : s.soc.Cycled p) :
    State.busProtocol { s with soc := p } := by
  unfold State.busProtocol Soc.busIdle at *
  dsimp only at *
  rw [hp.ready, hp.irq, hp.read, hp.write]
  exact h

theorem cycle_busProtocol {s t : State} (ht : cycle s = .next t) (h : s.busProtocol) : t.busProtocol := by
  obtain ⟨u, hu, ht⟩ := andThen_eq_next ht
  obtain ⟨hcpu, hsoc⟩ := finishCycle_next ht
  rw [hcpu]
  exact busProtocol_withSoc (cpuTick_busProtocol h hu) hsoc

/-- Settles O36: a step is a number of cycles, and each keeps the protocol. -/
theorem stepKeepsBusProtocol : Obligations.StepKeepsBusProtocol :=
  fun _ _ h ht => step_keeps (fun _ _ => cycle_busProtocol) ht h

end Sys2Proof.Machine
end

section
/-! PROOFS. The invariants of 10_state.md: what a step keeps outside the CPU, the halted CPU, and the state at reset. -/

namespace Sys2Proof.Machine

/-! ## What a step keeps outside the CPU -/

/-- Execute works inside the CPU (R125). -/
theorem executeStage_soc {s t : State} (h : s.executeStage = .next t) : t.soc = s.soc := by
  unfold State.executeStage at h
  cases hop : s.cpu.instr.op <;> rw [hop] at h <;> cases h
  case b | beq | bne => exact executeBranch_soc s _
  all_goals rfl

/-- The CPU drives the bus and nothing else outside itself (R46). -/
theorem cpuTick_soc {s t : State} (h : s.cpuTick = .next t) : t.soc = { s.soc with bus := t.soc.bus } := by
  unfold State.cpuTick at h
  split at h
  · cases h; rfl
  · split at h
    · split at h
      · rw [(fetchRequest_next h).2]
      · cases h; split <;> rfl
    · cases h; unfold State.decodeStage; split <;> rfl
    · rw [executeStage_soc h]
    · cases h
      split
      · unfold State.memRequest; split <;> rfl
      · unfold State.memLatch
        split
        · rfl
        · split <;> rfl
    · cases h; unfold State.writeBackStage; split <;> rfl

theorem cycle_evolves {s t : State} (h : cycle s = .next t) : s.soc.Evolves t.soc := by
  obtain ⟨u, hu, ht⟩ := andThen_eq_next h
  have htick : s.soc.Evolves u.soc := by
    rw [cpuTick_soc hu]
    exact s.soc.evolves_withBus _
  exact htick.trans (finishCycle_next ht).2.toEvolves

theorem step_evolves {s t : State} (h : step s = .next t) : s.soc.Evolves t.soc :=
  step_keeps (P := fun u => s.soc.Evolves u.soc) (fun _ _ hc hs => hs.trans (cycle_evolves hc)) h (.refl _)

/-- Settles O37: no cycle changes the configuration, only writes of CC change CSTS, and nothing fills the FIFO. -/
theorem stepKeepsConfigAndStatus : Obligations.StepKeepsConfigAndStatus := fun s t h =>
  have hstep : s.soc.Evolves t.soc := step_evolves h
  ⟨hstep.cfg, hstep.status, hstep.fifo.trans⟩

/-- Settles O38: a step changes the storage stack by Writes alone, and each Write keeps the tables in agreement. -/
theorem stepKeepsBookkeeping : Obligations.StepKeepsBookkeeping := fun _ _ h ht =>
  (step_evolves ht).storage.keeps (fun _ lba buf hst => Storage.write_bookkeeping hst lba buf) h

/-! ## A halted CPU -/

/-- A cycle of a halted CPU over an idle bus is one round of device ticks (R201). -/
theorem cycle_halted {s : State} (hh : s.cpu.halted = true) (hi : s.soc.busIdle) :
    cycle s = .next { s with soc := s.soc.deviceTicks } := by
  have htick : s.cpuTick = .next s := by simp [State.cpuTick, hh]
  rw [cycle, htick, andThen_next, finishCycle_idle hi]

theorem cycles_halted (n : Nat) {s : State} (hh : s.cpu.halted = true) (hi : s.soc.busIdle) :
    cycles n s = .next { s with soc := s.soc.afterTicks n } := by
  induction n generalizing s with
  | zero => rfl
  | succ n ih =>
    rw [cycles, cycle_halted hh hi, andThen_next]
    exact ih (s := { s with soc := s.soc.deviceTicks }) hh (s.soc.deviceTicks_ticks.busIdle hi)

/-- Settles O33: a halted CPU is not at an instruction's start, so its step is one of those cycles. -/
theorem haltedStays : Obligations.HaltedStays := by
  intro s hh hi n
  refine ⟨cycles_halted n hh hi, ?_⟩
  have hstart : s.atInstructionStart = false := by simp [State.atInstructionStart, hh]
  calc step s = cycle s := by simp [step, State.advance, hstart]
    _ = .next { s with soc := s.soc.afterTicks 1 } := cycle_halted hh hi

/-! ## Reset -/

/-- A fresh chip and the FTL over it: every block Free and listed once, no cursor (R233, log 17). -/
theorem Storage.fresh_bookkeeping (n : Nat) : Storage.bookkeeping ⟨Nand.fresh n, Ftl.fresh n⟩ := by
  have states : ∀ b, (Ftl.fresh n).stateOf b = if b < n then some .free else none := fun b => by
    simp only [Ftl.stateOf, Ftl.fresh, List.getElem?_replicate]
    split <;> rfl
  refine (Storage.bookkeeping_iff _).mpr ⟨?_, List.nodup_range, fun b => ?_, fun b => ?_⟩
  · simp [Ftl.fresh, Nand.fresh, Nand.blockCount]
  · rw [states]; simp [Ftl.fresh]
  · rw [states]; simp [Ftl.fresh]

/-- Settles O39: at construction every map is empty, no signal is asserted, and the FTL is that of a fresh chip. -/
theorem resetInvariants : Obligations.ResetInvariants :=
  have empty : ∀ {β : Type} [DecidableEq β] (fill : β), Sparse.wf fill [] := fun _ => ⟨.nil, nofun⟩
  ⟨⟨empty _, empty _, ⟨empty _, nofun⟩, empty _⟩,
    State.BusAtRest.busProtocol ⟨rfl, rfl, rfl, rfl, rfl⟩,
    rfl,
    Storage.fresh_bookkeeping _,
    Nat.zero_le _⟩

/-- Every byte of a fresh chip's pages reads 0xFF (R21, R211). -/
theorem Nand.fresh_bytes (n b p : Nat) :
    ∀ byte ∈ ((Nand.fresh n).page b p).data ++ ((Nand.fresh n).page b p).oob, byte = 0xFF := by
  have hpage : (Nand.fresh n).page b p = Page.erased := rfl
  intro byte h
  rw [hpage, List.mem_append] at h
  rcases h with h | h <;> exact List.eq_of_mem_replicate h

theorem Nand.fresh_block {n : Nat} {m : NandBlock} (h : m ∈ (Nand.fresh n).blocks) : m = ⟨0, false⟩ :=
  List.eq_of_mem_replicate h

theorem Nand.fresh_eraseCount (n b : Nat) : (Nand.fresh n).eraseCount b = 0 := by
  unfold Nand.eraseCount
  rw [List.getD_eq_getElem?_getD]
  cases hm : (Nand.fresh n).blocks[b]? with
  | none => rfl
  | some m => rw [Nand.fresh_block (List.mem_of_getElem? hm)]; rfl

theorem Cpu.reset_reg (entry : Word) (i : RegIdx) : (Cpu.reset entry).reg i = 0 := by
  simp [Cpu.reg, Cpu.reset]

/-- Settles O40, row by row of R29's table. -/
theorem resetValues : Obligations.ResetValues := by
  have hinstr : Decoded.zero = decode 0 := by decide
  exact
    ⟨Cpu.reset_reg _, rfl, rfl, rfl, rfl, rfl, hinstr, rfl, rfl, rfl, rfl,
      rfl,
      fun _ => rfl, rfl, rfl,
      Nand.fresh_bytes _,
      Nand.fresh_eraseCount _, fun _ hm => by rw [Nand.fresh_block hm],
      rfl, rfl⟩

end Sys2Proof.Machine
end

section
/-! PROOFS. The bus and RAM (20_memory.md): transfers of a RAM device, the bypass path, decode failure; and the step and
the driver as numbers of cycles (R40, R42), with the canonical forms that they keep. -/

namespace Sys2Proof.Machine

/-! ## Steps and runs are cycles -/

/-- Settles O35: no cycle of a step takes a sparse map out of its canonical form. -/
theorem stepKeepsCanonicalForms : Obligations.StepKeepsCanonicalForms :=
  fun _ _ h ht => (step_evolves ht).canonical h

/-- Settles O31: a step runs the CPU ticks of its instruction in order, each with the rest of its cycle. -/
theorem stepIsCycles : Obligations.StepIsCycles := by
  intro s
  obtain ⟨n, hn⟩ := step_eq_cycles s
  exact ⟨n + 1, Nat.le_add_left 1 n, hn⟩

/-- A sequence whose first part stops does not go on. -/
theorem andThen_stopped {o : Out} (h : ∀ s, o ≠ .next s) (f : State → Out) : andThen o f = o := by
  cases o with
  | next s => exact absurd rfl (h s)
  | fault r => rfl
  | refused r => rfl

/-- The driver looks at Halted before a cycle (D31). -/
theorem run_halted {s : State} (h : s.cpu.halted = true) (maxCycles : Nat) : run maxCycles s = .next s := by
  cases maxCycles with
  | zero => rfl
  | succ m => exact if_pos h

theorem run_succ_running {s : State} (h : s.cpu.halted = false) (m : Nat) :
    run (m + 1) s = andThen (cycle s) (run m) := by
  simp [run, h]

/-- The run with a cap from `s` is `n` cycles: it ends halted or at the cap, and was not halted before (R42). -/
structure State.DrivenFor (s : State) (maxCycles n : Nat) : Prop where
  withinCap : n ≤ maxCycles
  outcome : run maxCycles s = cycles n s
  ended : ∀ t, run maxCycles s = .next t → t.cpu.halted = true ∨ n = maxCycles
  running : ∀ k t, k < n → cycles k s = .next t → t.cpu.halted = false

/-- A cap of 0 ends the run. -/
theorem drivenFor_zero (s : State) : s.DrivenFor 0 0 :=
  ⟨le_rfl, rfl, fun _ _ => .inr rfl, fun _ _ hk => absurd hk (Nat.not_lt_zero _)⟩

/-- A halted CPU ends the run. -/
theorem drivenFor_halted {s : State} (h : s.cpu.halted = true) (maxCycles : Nat) : s.DrivenFor maxCycles 0 := by
  have hrun := run_halted h maxCycles
  refine ⟨Nat.zero_le _, hrun, fun t ht => .inl ?_, fun _ _ hk => absurd hk (Nat.not_lt_zero _)⟩
  cases hrun.symm.trans ht
  exact h

/-- A cycle that stops ends the run. -/
theorem drivenFor_stopped {s : State} (h : s.cpu.halted = false) (hc : ∀ u, cycle s ≠ .next u) (m : Nat) :
    s.DrivenFor (m + 1) 1 := by
  have hrun : run (m + 1) s = cycle s := by rw [run_succ_running h, andThen_stopped hc]
  refine ⟨Nat.le_add_left 1 m, ?_, fun t ht => absurd (hrun ▸ ht) (hc t), fun k t hk ht => ?_⟩
  · rw [hrun, cycles, andThen_stopped hc]
  · cases Nat.lt_one_iff.mp hk
    cases ht
    exact h

/-- Any other cycle is followed by the run from its state, with the cap one lower. -/
theorem drivenFor_succ {s u : State} {m n : Nat} (h : s.cpu.halted = false) (hc : cycle s = .next u)
    (hu : u.DrivenFor m n) : s.DrivenFor (m + 1) (n + 1) := by
  have hrun : run (m + 1) s = run m u := by rw [run_succ_running h, hc, andThen_next]
  have hcycles : ∀ k, cycles (k + 1) s = cycles k u := fun k => by rw [cycles, hc, andThen_next]
  refine ⟨Nat.succ_le_succ hu.withinCap, ?_, fun t ht => ?_, fun k t hk ht => ?_⟩
  · rw [hrun, hcycles, hu.outcome]
  · exact (hu.ended t (hrun ▸ ht)).imp_right (congrArg (· + 1))
  · cases k with
    | zero => cases ht; exact h
    | succ k => exact hu.running k t (Nat.lt_of_succ_lt_succ hk) (hcycles k ▸ ht)

theorem exists_drivenFor (maxCycles : Nat) (s : State) : ∃ n, s.DrivenFor maxCycles n := by
  induction maxCycles generalizing s with
  | zero => exact ⟨0, drivenFor_zero s⟩
  | succ m ih =>
    cases hs : s.cpu.halted with
    | true => exact ⟨0, drivenFor_halted hs _⟩
    | false =>
      by_cases hc : ∃ u, cycle s = .next u
      · obtain ⟨u, hu⟩ := hc
        obtain ⟨n, hn⟩ := ih u
        exact ⟨n + 1, drivenFor_succ hs hu hn⟩
      · exact ⟨1, drivenFor_stopped hs (not_exists.mp hc) m⟩

/-- Settles O34: the cap, Halted and a cycle that stops are all that ends a run. -/
theorem runIsCycles : Obligations.RunIsCycles := by
  intro maxCycles s
  obtain ⟨n, hn⟩ := exists_drivenFor maxCycles s
  exact ⟨n, hn.withinCap, hn.outcome, hn.ended, hn.running⟩

/-! ## The bypass path (R56, R57) -/

/-- A read transfer drives nothing on the bus and is not itself counted (R56, D7). -/
theorem Soc.transferRead_bus (p : Soc) (e : DeviceEntry) (a : Word) : (p.transferRead e a).2.bus = p.bus := by
  unfold Soc.transferRead
  split <;> rfl

theorem Soc.bypassRead_unclaimed {p : Soc} {a : Word} (h : p.target a = none) : p.bypassRead a = (false, 0, p) := by
  simp [Soc.bypassRead, h]

theorem Soc.bypassRead_claimed {p : Soc} {a : Word} {e : DeviceEntry} (h : p.target a = some e) :
    p.bypassRead a = (true, p.countRead.transferRead e a) := by
  simp [Soc.bypassRead, h]

theorem Soc.bypassWrite_unclaimed {p : Soc} {a : Word} (h : p.target a = none) (v : Word) :
    p.bypassWrite a v = (false, p) := by
  simp [Soc.bypassWrite, h]

theorem Soc.bypassWrite_claimed {p : Soc} {a : Word} {e : DeviceEntry} (h : p.target a = some e) (v : Word) :
    p.bypassWrite a v = (true, p.countWrite.transferWrite e a v) := by
  simp [Soc.bypassWrite, h]

/-- A bypass read answers true where a device claims the address (R56). -/
theorem Soc.bypassRead_ok_iff (p : Soc) (a : Word) : (p.bypassRead a).1 = true ↔ ∃ e, p.target a = some e := by
  cases h : p.target a with
  | none => simp [Soc.bypassRead_unclaimed h]
  | some e => simp [Soc.bypassRead_claimed h]

theorem Soc.bypassWrite_ok_iff (p : Soc) (a v : Word) : (p.bypassWrite a v).1 = true ↔ ∃ e, p.target a = some e := by
  cases h : p.target a with
  | none => simp [Soc.bypassWrite_unclaimed h]
  | some e => simp [Soc.bypassWrite_claimed h]

theorem Soc.bypassRead_readCount {p : Soc} {a : Word} {e : DeviceEntry} (h : p.target a = some e) :
    (p.bypassRead a).2.2.bus.readCount = p.bus.readCount + 1 := by
  rw [Soc.bypassRead_claimed h, Soc.transferRead_bus]
  rfl

/-- A bypass read is no write handler call (D7). -/
theorem Soc.bypassRead_writeCount (p : Soc) (a : Word) : (p.bypassRead a).2.2.bus.writeCount = p.bus.writeCount := by
  cases h : p.target a with
  | none => rw [Soc.bypassRead_unclaimed h]
  | some e =>
    rw [Soc.bypassRead_claimed h, Soc.transferRead_bus]
    rfl

/-- A command fetch is four bypass reads (R277). -/
theorem Soc.fetchCommand_writeCount (p : Soc) : p.fetchCommand.bus.writeCount = p.bus.writeCount := by
  simp only [Soc.fetchCommand, Soc.bypassRead_writeCount]

/-- The one bus traffic a write can cause is the command fetch of a doorbell (R276), which reads. -/
theorem Soc.transferWrite_writeCount (p : Soc) (e : DeviceEntry) (a v : Word) :
    (p.transferWrite e a v).bus.writeCount = p.bus.writeCount := by
  unfold Soc.transferWrite
  cases e.device
  case controller =>
    dsimp only [Soc.controllerWrite]
    split
    · unfold Soc.ringSubmission
      split
      · exact Soc.fetchCommand_writeCount _
      · rfl
    · rfl
  all_goals rfl

theorem Soc.bypassWrite_writeCount {p : Soc} {a : Word} {e : DeviceEntry} (h : p.target a = some e) (v : Word) :
    (p.bypassWrite a v).2.bus.writeCount = p.bus.writeCount + 1 := by
  rw [Soc.bypassWrite_claimed h, Soc.transferWrite_writeCount]
  rfl

/-- Settles O44: what a bypass access leaves alone is what every transfer does (`Soc.Transfers`). -/
theorem bypassAccess : Obligations.BypassAccess := by
  intro p a v
  have hread := p.bypassRead_transfers a
  have hwrite := p.bypassWrite_transfers a v
  exact
    ⟨hread.signals, hwrite.signals,
      hread.ramBusy, hread.ramPending, hwrite.ramBusy, hwrite.ramPending,
      hread.scratchBusy, hread.scratchPending, hwrite.scratchBusy, hwrite.scratchPending,
      p.bypassRead_ok_iff a, p.bypassWrite_ok_iff a v,
      fun _ he => ⟨Soc.bypassRead_readCount he, Soc.bypassWrite_writeCount he v⟩,
      fun hnone => ⟨Soc.bypassRead_unclaimed hnone, Soc.bypassWrite_unclaimed hnone v⟩⟩

/-! ## RAM transfers (R61, D9) -/

theorem Ram.transferRead_inside (r : Ram) {size off : Nat} (h : off + 8 ≤ size) :
    r.transferRead size off = r.bytes.read64 off :=
  if_pos (decide_eq_true h)

theorem Ram.transferRead_outside (r : Ram) {size off : Nat} (h : size < off + 8) : r.transferRead size off = 0 := by
  simp [Ram.transferRead, Ram.covers, h]

theorem Ram.transferWrite_inside (r : Ram) {size off : Nat} (h : off + 8 ≤ size) (v : Word) :
    r.transferWrite size off v = { r with bytes := r.bytes.write64 off v } :=
  if_pos (decide_eq_true h)

theorem Ram.transferWrite_outside (r : Ram) {size off : Nat} (h : size < off + 8) (v : Word) :
    r.transferWrite size off v = r := by
  simp [Ram.transferWrite, Ram.covers, h]

/-- Settles O45, from the rules of 64-bit accesses to memory. -/
theorem ramTransfers : Obligations.RamTransfers := by
  intro r size off v hwf
  refine ⟨Ram.wf_transferWrite hwf size off v, fun hin => ?_, fun hout =>
    ⟨r.transferRead_outside hout, r.transferWrite_outside hout v⟩⟩
  rw [r.transferWrite_inside hin v]
  refine ⟨?_, fun a => Memory.read_write64 hwf off a v, fun other hd => ?_⟩
  · rw [Ram.transferRead_inside _ hin]
    exact Memory.read64_write64_same hwf off v
  · rcases Nat.lt_or_ge size (other + 8) with hout | hin'
    · rw [Ram.transferRead_outside _ hout, Ram.transferRead_outside _ hout]
    · rw [Ram.transferRead_inside _ hin', Ram.transferRead_inside _ hin']
      exact Memory.read64_write64_disjoint hwf v hd

/-! ## Decode failure (R52, R53) -/

/-- A bus tick keeps Error where it is set (D3): an idle tick and a served one leave it, a decode failure sets it. -/
theorem Soc.busTick_error {p q : Soc} (h : p.busTick = .next q) (herr : p.bus.error = true) : q.bus.error = true := by
  by_cases one : p.bus.read = p.bus.write
  · cases hr : p.bus.read with
    | false =>
      rw [Soc.busTick_idle ⟨hr, one ▸ hr⟩] at h
      cases h
      exact herr
    | true => simp [Soc.busTick, hr, one ▸ hr] at h
  · cases ht : p.target p.bus.address with
    | none =>
      rw [Soc.busTick_unclaimed one ht] at h
      cases h
      rfl
    | some e =>
      obtain ⟨r, hr, hserved, -⟩ := Soc.busTick_served one ht
      rw [hr] at h
      cases h
      exact hserved.error.trans herr

/-- Settles O43: a request is one control line, so it is `busTick_unclaimed` where no device claims the address. -/
theorem busDecodeFailure : Obligations.BusDecodeFailure :=
  ⟨fun _ => Soc.busTick_unclaimed, fun _ _ => Soc.busTick_error⟩

end Sys2Proof.Machine
end

section
/-! PROOFS. The instruction codec (30_encoding.md): the opcode map, the immediates, and `decode` and `encode` as inverses
of each other, first on decoded forms and then on instructions and bytes. -/

namespace Sys2Proof

/-! ## The opcode map (R97 to R99) -/

/-- The tag of whatever opcode a field has, a reserved one too, has that field as its low six bits. -/
theorem Op.tag_ofField (f : BitVec 6) : (Op.ofField f).tag.setWidth 6 = f := by
  revert f
  decide

/-- HALT's is the only tag that does not fit the opcode field (R98). -/
theorem Op.tag_lt_of_ne_halt {op : Op} (h : op ≠ .halt) : op.tag.toNat < 64 := by
  cases op with
  | halt => exact absurd rfl h
  | reserved f =>
    calc (f.setWidth 8).toNat = f.toNat := BitVec.toNat_setWidth_of_le (by decide)
      _ < 64 := f.isLt
  | _ => decide

/-- The four ranges of R99. -/
theorem Op.ofField_eq_reserved_iff (f : BitVec 6) :
    Op.ofField f = .reserved f ↔
      (0x0A ≤ f.toNat ∧ f.toNat ≤ 0x0F) ∨ (0x12 ≤ f.toNat ∧ f.toNat ≤ 0x1F) ∨
      (0x21 ≤ f.toNat ∧ f.toNat ≤ 0x2F) ∨ (0x33 ≤ f.toNat ∧ f.toNat ≤ 0x3E) := by
  revert f
  decide

/-! ## Immediates (R94) -/

/-- The 11-bit field can be read back from the immediate that any shape makes of it. -/
theorem Shape.setWidth_immediate64 (shape : Shape) (imm11 : BitVec 11) :
    (shape.immediate64 imm11).setWidth 11 = imm11 := by
  cases shape with
  | branch =>
    ext i hi
    have hi64 : i < 64 := hi.trans (by decide)
    simp [Shape.immediate64, BitVec.getElem_signExtend, hi, hi64]
  | register | immediate =>
    calc (imm11.setWidth 64).setWidth 11 = imm11.setWidth 11 := imm11.setWidth_setWidth_of_le (by decide)
      _ = imm11 := imm11.setWidth_eq

/-- A shape holds exactly the immediates that its low 11 bits give back. -/
theorem Shape.holds_iff (shape : Shape) (imm : Word) :
    shape.holds imm = true ↔ shape.immediate64 (imm.setWidth 11) = imm := by
  rw [eq_comm (b := imm)]
  cases shape <;> exact beq_iff_eq

/-! ## Instructions and their decoded forms (R15) -/

theorem Instr.instr_decoded (i : Instr) : i.decoded.instr = .ok i := by
  cases i <;> rfl

theorem Decoded.instr_eq_ok_iff (d : Decoded) (i : Instr) : d.instr = .ok i ↔ i.decoded = d := by
  constructor
  · intro h
    rcases Machine.decoded_instr_cases d with ⟨j, hj, hd⟩ | ⟨f, hf, -⟩
    · cases hj.symm.trans h
      exact hd
    · cases hf.symm.trans h
  · rintro rfl
    exact i.instr_decoded

theorem Decoded.instr_eq_error_iff (d : Decoded) (f : BitVec 6) : d.instr = .error f ↔ d.op = .reserved f := by
  rcases Machine.decoded_instr_cases d with ⟨i, hi, rfl⟩ | ⟨g, hg, hd⟩
  · simp [hi, i.decoded_op_ne_reserved]
  · simp [hg, hd]

theorem decodeWord_eq_ok_iff (w : InstrWord) (i : Instr) : decodeWord w = .ok i ↔ i.decoded = decode w := by
  rw [← Decoded.instr_eq_ok_iff]
  unfold decodeWord
  split <;> simp [*]

theorem decodeWord_eq_reserved_iff (w : InstrWord) (f : BitVec 6) :
    decodeWord w = .error (.reservedOpcode f) ↔ (decode w).op = .reserved f := by
  rw [← Decoded.instr_eq_error_iff]
  unfold decodeWord
  split <;> simp [*]

/-! ## `decode` and `encode` on decoded forms (R103) -/

/-- The five fields cover a word (R91). -/
theorem append_fields (w : InstrWord) :
    w.extractLsb' 26 6 ++ w.extractLsb' 21 5 ++ w.extractLsb' 16 5 ++ w.extractLsb' 11 5 ++ w.extractLsb' 0 11 = w := by
  simp only [BitVec.extractLsb'_append_extractLsb'_eq_extractLsb']
  exact BitVec.extractLsb'_eq_self

/-- An encoded word is its fields side by side. -/
theorem encodeFields_eq_append (tag : BitVec 8) (rd rn rm : RegIdx) (imm11 : BitVec 11) :
    encodeFields tag rd rn rm imm11 =
      tag.setWidth 6 ++ BitVec.ofFin (w := 5) rd ++ BitVec.ofFin (w := 5) rn ++ BitVec.ofFin (w := 5) rm ++ imm11 := by
  obtain ⟨hop, hrd, hrn, hrm, himm⟩ := encodeFields_fields tag rd rn rm imm11
  rw [← append_fields (encodeFields tag rd rn rm imm11), hop, hrd, hrn, hrm, himm]

/-- No word is lost in decoding, one with a reserved opcode neither. -/
theorem encode_decode (w : InstrWord) : (decode w).encode = w := by
  unfold Decoded.encode decode
  rw [encodeFields_eq_append, Op.tag_ofField, Shape.setWidth_immediate64]
  exact append_fields w

theorem decode_encode {d : Decoded} (hop : ∀ f, d.op ≠ .reserved f)
    (himm : d.shape.immediate64 (d.imm.setWidth 11) = d.imm) : decode d.encode = d := by
  unfold Decoded.encode
  rw [decode_encodeFields, Op.ofField_tag hop, himm]

theorem holds_decode (w : InstrWord) : (decode w).shape.holds (decode w).imm = true :=
  (Shape.holds_iff _ _).2 (congrArg _ (Shape.setWidth_immediate64 _ _))

/-! ## Words as bytes (R90) -/

theorem wordOfBytes_extractLsb' (w : InstrWord) :
    wordOfBytes (w.extractLsb' 0 8) (w.extractLsb' 8 8) (w.extractLsb' 16 8) (w.extractLsb' 24 8) = w := by
  unfold wordOfBytes
  simp only [BitVec.extractLsb'_append_extractLsb'_eq_extractLsb']
  exact BitVec.extractLsb'_eq_self

/-- Decoding the four bytes of a word is decoding the word, whatever bytes follow. -/
theorem decodeBytes_bytesOfWord {w : InstrWord} {i : Instr} (h : decodeWord w = .ok i) (rest : List Byte) :
    decodeBytes (bytesOfWord w ++ rest) = .ok (i, rest) := by
  simp only [bytesOfWord, List.cons_append, List.nil_append, decodeBytes, wordOfBytes_extractLsb', h]

/-! ## The round trip of instructions -/

/-- Settles O1: an instruction's decoded form has an assigned opcode and, being well formed, an immediate that its
11-bit field gives back. -/
theorem decodeOfEncode : Obligations.DecodeOfEncode := by
  intro i hwf
  have hdecode : decode (encode i) = i.decoded :=
    decode_encode i.decoded_op_ne_reserved ((Shape.holds_iff _ _).1 hwf)
  have hword : decodeWord (encode i) = .ok i := (decodeWord_eq_ok_iff _ _).2 hdecode.symm
  exact ⟨hword, decodeBytes_bytesOfWord hword []⟩

/-- Settles O2: the instruction a word decodes to has the word's decoded form. -/
theorem encodeOfDecode : Obligations.EncodeOfDecode := by
  intro w i h
  have hd : i.decoded = decode w := (decodeWord_eq_ok_iff w i).1 h
  unfold Instr.wellFormed encode
  rw [hd]
  exact ⟨holds_decode w, encode_decode w⟩

/-! ## The encoded word as a number (R95, R98) -/

/-- R95's formula. Each operand fits the word, so that only the shifts are reduced. -/
theorem toNat_encodeFields (tag : BitVec 8) (rd rn rm : RegIdx) (imm11 : BitVec 11) :
    (encodeFields tag rd rn rm imm11).toNat =
      (tag.toNat <<< 26 ||| rd.val <<< 21 ||| rn.val <<< 16 ||| rm.val <<< 11 ||| imm11.toNat) % 2 ^ 32 := by
  have himm : imm11.toNat % 2 ^ 32 = imm11.toNat := Nat.mod_eq_of_lt (imm11.isLt.trans (by decide))
  simp only [encodeFields, BitVec.toNat_or, BitVec.toNat_shiftLeft, BitVec.toNat_ofFin, Nat.or_mod_two_pow, himm,
    BitVec.toNat_setWidth_of_le (by decide : 8 ≤ 32), BitVec.toNat_setWidth_of_le (by decide : 5 ≤ 32),
    BitVec.toNat_setWidth_of_le (by decide : 11 ≤ 32)]

/-- The reduction modulo 2^32 leaves the low six bits of the tag. -/
theorem toNat_opcode_encodeFields (tag : BitVec 8) (rd rn rm : RegIdx) (imm11 : BitVec 11) :
    ((encodeFields tag rd rn rm imm11).extractLsb' 26 6).toNat = tag.toNat % 64 := by
  rw [(encodeFields_fields tag rd rn rm imm11).1, BitVec.toNat_setWidth]

/-- Settles O3: the formula, the tag's low bits, and the tags that fit the opcode field. -/
theorem encodeWord : Obligations.EncodeWord :=
  ⟨fun tag rd rn rm imm11 =>
      ⟨toNat_encodeFields tag rd rn rm imm11, toNat_opcode_encodeFields tag rd rn rm imm11, rfl⟩,
    fun _ => rfl, fun _ => Op.tag_lt_of_ne_halt, rfl⟩

/-- Settles O5: a word decodes to no instruction exactly if the opcode map has none for its field. -/
theorem reservedFields : Obligations.ReservedFields := fun w =>
  (decodeWord_eq_reserved_iff w _).trans (Op.ofField_eq_reserved_iff _)

/-- Settles O6: a tag that fits the opcode field is its own field; HALT's does not, and leaves 0x3F there. -/
theorem haltField : Obligations.HaltField := by
  refine ⟨by decide, fun w hw => ?_, fun i hi => ?_, by decide⟩
  · exact congrArg Op.ofField hw
  · have htag : i.decoded.op.tag.toNat < 64 := Op.tag_lt_of_ne_halt hi
    exact ⟨htag, (toNat_opcode_encodeFields _ _ _ _ _).trans (Nat.mod_eq_of_lt htag)⟩

end Sys2Proof
end

section
/-! PROOFS. What an instruction leaves alone (R128, R130, R162, R163), from what its sequence of cycles leaves of the
CPU, whatever the bus and the devices do, and of the rest of the machine, with an idle bus. -/

namespace Sys2Proof.Machine

/-! ## The CPU after a sequence of cycles -/

/-- Decode, Execute and WriteBack: the three stage steps, each on whatever the devices made of the last one's state. -/
theorem threeCycles_next {s t : State} {d e w : State → State} (h : s.threeCycles d e w = .next t) :
    ∃ p q : Soc, t.cpu = (w { e { d s with soc := p } with soc := q }).cpu := by
  obtain ⟨u, hu, h⟩ := andThen_eq_next h
  obtain ⟨v, hv, h⟩ := andThen_eq_next h
  have hd := (finishCycle_next hu).1
  have he := (finishCycle_next hv).1
  refine ⟨u.soc, v.soc, ?_⟩
  rw [← hd, ← he, (finishCycle_next h).1]

/-- A branch changes `pc` and OpB, taken or not, and ends before the next fetch (R125, R128). -/
theorem branchInstruction_next {s t : State} {imm : Word} {taken : Flags → Bool}
    (h : s.branchInstruction imm taken = .next t) :
    ∃ pc, t.cpu = { s.cpu with pc := pc, stage := .fetch, uop := 0, opB := imm } := by
  obtain ⟨u, hu, h⟩ := andThen_eq_next h
  obtain ⟨v, hv, h⟩ := andThen_eq_next h
  have hdec : u.cpu = (s.readBranchOperand imm).cpu := by rw [(finishCycle_next hu).1]
  have hex : v.cpu = (u.executeBranch (taken u.cpu.flags)).cpu := by rw [(finishCycle_next hv).1]
  cases htaken : taken u.cpu.flags with
  | true =>
    rw [htaken, executeBranch_taken, hdec] at hex
    have hstage : v.cpu.stage ≠ .writeBack := by rw [hex]; nofun
    rw [if_neg hstage] at h
    cases h
    exact ⟨_, hex⟩
  | false =>
    rw [htaken, executeBranch_not_taken, hdec] at hex
    have hstage : v.cpu.stage = .writeBack := by rw [hex]
    rw [if_pos hstage] at h
    refine ⟨s.cpu.pc + 4, ?_⟩
    rw [(finishCycle_next h).1]
    dsimp only
    rw [writeBackNone_cpu, hex]
    rfl

/-- A load or store ends waiting in Memory micro-op 1 (R353), or with its latch tick and WriteBack. -/
theorem memoryInstruction_next {s t : State} {rn : RegIdx} {imm : Word} {request latch wb : State → State}
    (hrequest : ∀ u, (request u).cpu = { u.cpu with uop := 1 })
    (hlatch : ∀ u, (latch u).cpu.stage = .writeBack)
    (h : s.memoryInstruction rn imm request latch wb = .next t) :
    t.cpu = s.cpu.inMemory rn imm ∨
    ∃ p q : Soc, t.cpu = (wb { latch { cpu := s.cpu.inMemory rn imm, soc := p } with soc := q }).cpu := by
  obtain ⟨u, hu, h⟩ := andThen_eq_next h
  obtain ⟨v, hv, h⟩ := andThen_eq_next h
  obtain ⟨m, hm, h⟩ := andThen_eq_next h
  obtain ⟨l, hl, h⟩ := andThen_eq_next h
  have hmcpu : m.cpu = s.cpu.inMemory rn imm := by
    rw [(finishCycle_next hm).1]
    dsimp only
    rw [hrequest, (finishCycle_next hv).1, (finishCycle_next hu).1]
    rfl
  rcases completeTransaction_next hl with hstuck | ⟨p, -, -, hlast⟩
  · left
    have hlcpu : l.cpu = s.cpu.inMemory rn imm := by rw [hstuck]; exact hmcpu
    have hstage : l.cpu.stage ≠ .writeBack := by rw [hlcpu]; nofun
    rw [if_neg hstage] at h
    cases h
    exact hlcpu
  · right
    have hlatched := (finishCycle_next hlast).1
    have hstage : l.cpu.stage = .writeBack := by rw [hlatched]; exact hlatch _
    rw [if_pos hstage] at h
    refine ⟨p, l.soc, ?_⟩
    rw [(finishCycle_next h).1, ← hmcpu, ← hlatched]

/-- HALT sets Halted, and reads registers into OpA and OpB; it stays in Execute (R201, D13). -/
theorem execHalt_next {s t : State} {rn rm : RegIdx} (h : execHalt rn rm s = .next t) :
    t.cpu = { s.cpu with opA := s.cpu.reg rn, opB := s.cpu.reg rm, stage := .execute, halted := true } := by
  obtain ⟨u, hu, h⟩ := andThen_eq_next h
  rw [(finishCycle_next h).1, (finishCycle_next hu).1]
  rfl

/-! ## Registers, flags, Halted, `mem_data` and the instruction latch -/

/-- What an instruction of opcode `op` and destination `rd` leaves alone of the CPU (R128, R130, R162). -/
structure Cpu.Frame (op : Op) (rd : RegIdx) (c d : Cpu) : Prop where
  others : ∀ r : RegIdx, r ≠ rd → d.reg r = c.reg r
  registers : op ∈ [Op.str, .cmp, .b, .beq, .bne, .halt] → d.x = c.x
  flags : op ∈ [Op.nop, .ldr, .str, .b, .beq, .bne, .halt] → d.flags = c.flags
  halted : op ≠ .halt → d.halted = c.halted
  memData : op ≠ .ldr → d.memData = c.memData
  instr : d.instr = c.instr

/-- Writing `x[rd]` leaves the other registers alone. -/
theorem reg_of_x_eq_set {c d : Cpu} {rd r : RegIdx} {v : Word} (h : d.x = c.x.set rd v) (hr : r ≠ rd) :
    d.reg r = c.reg r :=
  (reg_of_x_eq (d := c.setReg rd v) h r).trans (reg_setReg_other c v hr.symm)

theorem aluInstruction_frame {s t : State} {op : AluOp} {rd rn rm : RegIdx}
    (h : s.aluInstruction op rd rn rm = .next t) {o : Op}
    (hop : o ∈ [Op.add, .sub, .and, .or, .xor, .lsl, .lsr, .asr]) : Cpu.Frame o rd s.cpu t.cpu := by
  obtain ⟨p, q, hcpu⟩ := threeCycles_next h
  rw [hcpu]
  refine ⟨fun r => reg_of_x_eq_set rfl, fun hx => ?_, fun hf => ?_, fun _ => rfl, fun _ => rfl, rfl⟩
  · revert hop hx
    cases o <;> simp
  · revert hop hf
    cases o <;> simp

theorem branchInstruction_frame {s t : State} {imm : Word} {taken : Flags → Bool}
    (h : s.branchInstruction imm taken = .next t) (op : Op) (rd : RegIdx) : Cpu.Frame op rd s.cpu t.cpu := by
  obtain ⟨pc, hcpu⟩ := branchInstruction_next h
  rw [hcpu]
  exact ⟨fun _ _ => rfl, fun _ => rfl, fun _ => rfl, fun _ => rfl, fun _ => rfl, rfl⟩

theorem execLdr_frame {s t : State} {rd rn : RegIdx} {imm : Word} (h : execLdr rd rn imm s = .next t) :
    Cpu.Frame .ldr rd s.cpu t.cpu := by
  rcases memoryInstruction_next (fun _ => rfl) (fun _ => rfl) h with hcpu | ⟨p, q, hcpu⟩ <;> rw [hcpu]
  · exact ⟨fun _ _ => rfl, fun _ => rfl, fun _ => rfl, fun _ => rfl, fun _ => rfl, rfl⟩
  · exact ⟨fun r => reg_of_x_eq_set rfl, by simp, fun _ => rfl, fun _ => rfl, fun hop => absurd rfl hop, rfl⟩

theorem execStr_frame {s t : State} {rd rn : RegIdx} {imm : Word} (h : execStr rd rn imm s = .next t) :
    Cpu.Frame .str rd s.cpu t.cpu := by
  rcases memoryInstruction_next (fun _ => rfl) (fun _ => rfl) h with hcpu | ⟨p, q, hcpu⟩ <;> rw [hcpu] <;>
    exact ⟨fun _ _ => rfl, fun _ => rfl, fun _ => rfl, fun _ => rfl, fun _ => rfl, rfl⟩

theorem execNop_frame {s t : State} {rd rn rm : RegIdx} (h : execNop rd rn rm s = .next t) :
    Cpu.Frame .nop rd s.cpu t.cpu := by
  unfold execNop at h
  obtain ⟨p, q, hcpu⟩ := threeCycles_next h
  rw [hcpu]
  exact ⟨fun r => reg_of_x_eq_set rfl, by simp, fun _ => rfl, fun _ => rfl, fun _ => rfl, rfl⟩

theorem execMov_frame {s t : State} {rd rn : RegIdx} {imm : Word} (h : execMov rd rn imm s = .next t) :
    Cpu.Frame .mov rd s.cpu t.cpu := by
  unfold execMov at h
  obtain ⟨p, q, hcpu⟩ := threeCycles_next h
  rw [hcpu]
  exact ⟨fun r => reg_of_x_eq_set rfl, by simp, by simp, fun _ => rfl, fun _ => rfl, rfl⟩

theorem execCmp_frame {s t : State} {rn rm : RegIdx} (h : execCmp rn rm s = .next t) (rd : RegIdx) :
    Cpu.Frame .cmp rd s.cpu t.cpu := by
  unfold execCmp at h
  obtain ⟨p, q, hcpu⟩ := threeCycles_next h
  rw [hcpu]
  exact ⟨fun _ _ => rfl, fun _ => rfl, by simp, fun _ => rfl, fun _ => rfl, rfl⟩

theorem execHalt_frame {s t : State} {rn rm : RegIdx} (h : execHalt rn rm s = .next t) (rd : RegIdx) :
    Cpu.Frame .halt rd s.cpu t.cpu := by
  rw [execHalt_next h]
  exact ⟨fun _ _ => rfl, fun _ => rfl, fun _ => rfl, fun hop => absurd rfl hop, fun _ => rfl, rfl⟩

theorem exec_frame {i : Instr} {s t : State} (h : exec i s = .next t) :
    Cpu.Frame i.decoded.op i.decoded.rd s.cpu t.cpu := by
  cases i with
  | nop => exact execNop_frame h
  | add | sub | and | or | xor | lsl | lsr | asr => exact aluInstruction_frame h (by simp [Instr.decoded])
  | cmp => exact execCmp_frame h _
  | ldr => exact execLdr_frame h
  | str => exact execStr_frame h
  | mov => exact execMov_frame h
  | b | beq | bne =>
    simp only [exec, execB, execBeq, execBne] at h
    exact branchInstruction_frame h _ _
  | halt => exact execHalt_frame h _

/-- Settles O27: each instruction's sequence of cycles gives the CPU it ends with, whatever the devices do between. -/
theorem registersAndFlagsKept : Obligations.RegistersAndFlagsKept := fun _ _ _ h =>
  have frame := exec_frame h
  ⟨frame.others, frame.registers, frame.flags, frame.halted, frame.memData, frame.instr⟩

/-! ## Memory, the controller and the storage stack -/

/-- A sequence of cycles over an idle bus is, outside the CPU, so many rounds of device ticks. -/
theorem threeCycles_soc {s t : State} (hi : s.soc.busIdle) {d e w : State → State} (h : s.threeCycles d e w = .next t)
    (hd : ∀ u, (d u).soc = u.soc) (he : ∀ u, (e u).soc = u.soc) (hw : ∀ u, (w u).soc = u.soc) :
    t.soc = s.soc.afterTicks 3 := by
  obtain ⟨u, hu, -⟩ := threeCycles_idle hi hd he hw
  cases hu.symm.trans h
  rfl

theorem branchInstruction_soc {s t : State} (hi : s.soc.busIdle) {imm : Word} {taken : Flags → Bool}
    (h : s.branchInstruction imm taken = .next t) : ∃ n, t.soc = s.soc.afterTicks n := by
  cases htaken : taken s.cpu.flags with
  | true => cases (branchInstruction_taken hi imm htaken).symm.trans h; exact ⟨2, rfl⟩
  | false => cases (branchInstruction_not_taken hi imm htaken).symm.trans h; exact ⟨3, rfl⟩

theorem execHalt_soc {s t : State} (hi : s.soc.busIdle) {rn rm : RegIdx} (h : execHalt rn rm s = .next t) :
    t.soc = s.soc.afterTicks 2 := by
  unfold execHalt at h
  rw [finishCycle_idle (by rw [readRegisterOperands_soc]; exact hi), andThen_next,
    finishCycle_idle (by rw [executeHalt_soc]; exact s.soc.deviceTicks_ticks.busIdle hi)] at h
  cases h
  rfl

/-- An instruction that makes no request on an idle bus leaves everything outside the CPU to the device ticks (R52). -/
theorem exec_soc {i : Instr} {s t : State} (hldr : i.decoded.op ≠ .ldr) (hstr : i.decoded.op ≠ .str)
    (hi : s.soc.busIdle) (h : exec i s = .next t) : ∃ n, t.soc = s.soc.afterTicks n := by
  cases i with
  | ldr => exact absurd rfl hldr
  | str => exact absurd rfl hstr
  | b | beq | bne =>
    simp only [exec, execB, execBeq, execBne] at h
    exact branchInstruction_soc hi h
  | halt => exact ⟨2, execHalt_soc hi h⟩
  | nop | add | sub | and | or | xor | lsl | lsr | asr | cmp | mov =>
    simp only [exec, execNop, execAdd, execSub, execAnd, execOr, execXor, execLsl, execLsr, execAsr, execCmp, execMov,
      State.aluInstruction] at h
    exact ⟨3, threeCycles_soc hi h (fun _ => rfl) (fun _ => rfl) (fun _ => rfl)⟩

/-- Settles O28: such an instruction is device ticks outside the CPU, and those of a quiet machine keep all this. -/
theorem memoryKept : Obligations.MemoryKept := by
  intro i s t hldr hstr hi hquiet h
  obtain ⟨n, hsoc⟩ := exec_soc hldr hstr hi h
  have ticks := Soc.afterTicks_quiet n hquiet
  rw [hsoc]
  exact ⟨fun _ => by rw [ticks.ramBytes], fun _ => by rw [ticks.scratchBytes], ticks.ctrl, ticks.storage, ticks.bus,
    ticks.ticks.cfg⟩

end Sys2Proof.Machine
end

section
/-! PROOFS. The step (40_pipeline.md): what a fetch from RAM leaves and the instruction it latches, and how many cycles
an instruction takes (R131). -/

namespace Sys2Proof.Machine

/-! ## Reading RAM on the bus (R61, R62) -/

/-- A request to read RAM, some cycles later: no byte and no controller register has changed, and once the transaction
is done the value is on the data lines and RAM is not busy. -/
structure Soc.ReadsRam (p : Soc) (e : DeviceEntry) (q : Soc) : Prop where
  calm : p.Calm q
  served : p.Served q
  ramBytes : q.ram.bytes = p.ram.bytes
  scratchBytes : q.scratch.bytes = p.scratch.bytes
  done : q.bus.wait = false → q.bus.data = p.ramValue e p.bus.address ∧ q.ram.busy = false

/-- The cycle of the request, to a RAM that is not busy. -/
theorem Soc.readsRam_request {p q : Soc} {e : DeviceEntry} (hr : p.bus.read = true) (hw : p.bus.write = false)
    (hs : p.servedByRam p.bus.address e) (hq : p.quiet) (h : p.cycle = .next q) : p.ReadsRam e q := by
  obtain ⟨ht, hd, hb⟩ := hs
  obtain ⟨r, hc, hserved, -⟩ := Soc.cycle_served (by simp [hr, hw]) ht
  cases hc.symm.trans h
  obtain ⟨hcalm, hbytes, hdone⟩ := Soc.cycle_ramRead hr hw ht (.inl hd) hq h
  refine ⟨hcalm, hserved, hbytes .ram, hbytes .scratchRam, fun hclear => ?_⟩
  obtain ⟨hdata, hlate, hsoon⟩ := hdone hclear
  rw [hd] at hlate hsoon
  refine ⟨hdata, ?_⟩
  rcases Nat.eq_zero_or_pos (p.latencyOf .ram) with hl | hl
  · exact (hsoon hl).trans hb
  · exact hlate hl

/-- A waiting cycle. RAM waits only with a latency, and is not busy when that is over. -/
theorem Soc.ReadsRam.wait {p m q : Soc} {e : DeviceEntry} (h : p.ReadsRam e m) (hr : p.bus.read = true)
    (hw : p.bus.write = false) (hd : e.device = .ram) (hq : p.quiet) (hreq : m.Requested e)
    (hwait : m.bus.wait = true) (hc : m.cycle = .next q) : p.ReadsRam e q := by
  have hhold := hreq.holds hwait
  have hvalue : m.ramValue e p.bus.address = p.ramValue e p.bus.address := by
    simp [Soc.ramValue, Soc.ramOf, hd, Ram.transferRead, h.ramBytes]
  obtain ⟨r, hr', hserved, -⟩ := Soc.cycle_served hreq.one hreq.target
  cases hr'.symm.trans hc
  obtain ⟨hcalm, hbytes, hdone⟩ := Soc.cycle_ramRead (h.served.read.trans hr) (h.served.write.trans hw) hreq.target
    (.inl hd) (h.calm.quiet hq) hc
  refine ⟨h.calm.trans hcalm, h.served.trans hserved, (hbytes .ram).trans h.ramBytes,
    (hbytes .scratchRam).trans h.scratchBytes, fun hclear => ?_⟩
  obtain ⟨hdata, hlate, -⟩ := hdone hclear
  have hidle := hlate hhold.latency
  rw [hd] at hidle
  exact ⟨by rw [hdata, h.served.address, hvalue], hidle⟩

/-! ## The fetch from RAM (R122, R123) -/

/-- What a fetch from RAM leaves outside the CPU: an idle bus, memory and the storage stack as they were, RAM not
busy. -/
structure Soc.Fetched (p q : Soc) : Prop where
  calm : p.Calm q
  ramBytes : q.ram.bytes = p.ram.bytes
  scratchBytes : q.scratch.bytes = p.scratch.bytes
  idle : q.busIdle
  ramIdle : q.ram.busy = false

/-- The word a fetch from RAM takes off the data lines: the low half of the 64 bits read at `pc` (R123). -/
def Soc.fetchedWord (p : Soc) (e : DeviceEntry) (pc : Word) : InstrWord :=
  (p.ramValue e pc).extractLsb' 0 32

theorem fetch_ram {s : State} {e : DeviceEntry} (ha : s.cpu.pc.toNat % 4 = 0) (hs : s.soc.servedByRam s.cpu.pc e)
    (hq : s.soc.quiet) :
    ∃ f : State, s.fetch = .next f ∧
      f.cpu = { s.cpu with instr := decode (s.soc.fetchedWord e s.cpu.pc), stage := .decode, uop := 0 } ∧
      s.soc.Fetched f.soc := by
  obtain ⟨q, hfetch, hclear, -, -, hreads⟩ := fetch_claimed ha hs.1 ((s.soc.fetchRequest s.cpu.pc).ReadsRam e)
    (fun _ => Soc.readsRam_request rfl rfl hs hq) (fun _ _ hm => hm.wait rfl rfl hs.2.1 hq)
  obtain ⟨hdata, hbusy⟩ := hreads.done hclear
  have ticks := Soc.deviceTicks_quiet (p := { q with bus := { q.bus with read := false } }) (hreads.calm.quiet hq)
  refine ⟨_, hfetch, by rw [hdata]; rfl, ?_⟩
  exact
    { calm := ⟨ticks.ctrl.trans hreads.calm.ctrl, ticks.storage.trans hreads.calm.storage,
        ticks.ticks.cfg.trans hreads.calm.cfg⟩
      ramBytes := ticks.ramBytes.trans hreads.ramBytes
      scratchBytes := ticks.scratchBytes.trans hreads.scratchBytes
      idle := ticks.ticks.busIdle ⟨rfl, hreads.served.write⟩
      ramIdle := ticks.ticks.ramBusy.trans hbusy }

/-! ## The instruction fetched -/

/-- The low half of eight bytes is the word of the four at the lowest addresses (R61, R90). -/
theorem join64_extractLsb' (f : Nat → Byte) : (join64 f).extractLsb' 0 32 = wordOfBytes (f 0) (f 1) (f 2) (f 3) := by
  unfold join64 wordOfBytes
  apply BitVec.eq_of_getLsbD_eq
  intro i hi
  simp only [BitVec.getLsbD_extractLsb', BitVec.getLsbD_append, hi, decide_true, Bool.true_and, Nat.zero_add]
  grind

/-- Four bytes that decode to an instruction are those of a word that does (R90). -/
theorem decodeWord_of_decodeBytes {b0 b1 b2 b3 : Byte} {i : Instr} {rest : List Byte}
    (h : decodeBytes [b0, b1, b2, b3] = .ok (i, rest)) : decodeWord (wordOfBytes b0 b1 b2 b3) = .ok i := by
  cases hword : decodeWord (wordOfBytes b0 b1 b2 b3) with
  | ok j => simp only [decodeBytes, hword] at h; cases h; rfl
  | error err => simp only [decodeBytes, hword] at h; cases h

/-- The four bytes at `pc` in RAM, or zeros where the access of a fetch passes the end of RAM (R407, D9). -/
def Soc.fetchedBytes (p : Soc) (e : DeviceEntry) (pc : Word) : List Byte :=
  if e.offset pc + 8 ≤ e.size then (List.range 4).map fun k => p.ram.bytes.read (e.offset pc + k) else [0, 0, 0, 0]

/-- The instruction that the bytes at `pc` decode to is the one that a fetch from RAM latches. -/
theorem decoded_eq_decode_fetchedWord {p : Soc} {e : DeviceEntry} {pc : Word} {i : Instr} (hd : e.device = .ram)
    (h : decodeBytes (p.fetchedBytes e pc) = .ok (i, [])) :
    i.decoded = decode (p.fetchedWord e pc) := by
  have hram : p.ramOf e.device = p.ram := by rw [hd]; rfl
  refine (decodeWord_eq_ok_iff _ _).1 ?_
  unfold Soc.fetchedWord Soc.ramValue
  unfold Soc.fetchedBytes at h
  rw [hram]
  split at h
  · next hin =>
    rw [Ram.transferRead_inside _ hin, Memory.read64, join64_extractLsb']
    exact decodeWord_of_decodeBytes h
  · next hout =>
    rw [Ram.transferRead_outside _ (Nat.lt_of_not_le hout)]
    exact decodeWord_of_decodeBytes h

/-- At an instruction's start, a step is the fetch and then the meaning of the instruction that it latches. -/
theorem step_of_fetch {s f : State} {i : Instr} (h : s.atInstructionStart = true) (hf : s.fetch = .next f)
    (hstage : f.cpu.stage = .decode) (hi : f.cpu.instr = i.decoded) : step s = exec i f := by
  unfold step State.advance State.fetchAndRun
  rw [if_pos h, hf, andThen_next]
  unfold State.runFetched
  rw [if_pos hstage, hi, i.instr_decoded]

/-- A step from RAM: the fetch, which latches the instruction at `pc`, and the instruction from what that leaves. -/
theorem step_ram {s : State} {i : Instr} {e : DeviceEntry} (h : s.atInstructionStart = true)
    (ha : s.cpu.pc.toNat % 4 = 0) (hs : s.soc.servedByRam s.cpu.pc e) (hq : s.soc.quiet)
    (hi : decodeBytes (s.soc.fetchedBytes e s.cpu.pc) = .ok (i, [])) :
    ∃ f : State, s.fetch = .next f ∧ step s = exec i f ∧
      f.cpu = { s.cpu with instr := i.decoded, stage := .decode, uop := 0 } ∧ s.soc.Fetched f.soc := by
  obtain ⟨f, hf, hcpu, hsoc⟩ := fetch_ram ha hs hq
  rw [← decoded_eq_decode_fetchedWord hs.2.1 hi] at hcpu
  exact ⟨f, hf, step_of_fetch h hf (by rw [hcpu]) (by rw [hcpu]), hcpu, hsoc⟩

/-- Settles O29: the fetch is one transaction with RAM, and the low word of its eight bytes is the instruction. -/
theorem stepRunsDecodedInstruction : Obligations.StepRunsDecodedInstruction := by
  intro s i e h ha hs hq off bytes hi
  obtain ⟨f, hf, hstep, hcpu, hsoc⟩ := step_ram h ha hs hq hi
  exact ⟨f, hf, hstep, hcpu, hsoc.idle, hsoc.calm.quiet hq, hsoc.ramBytes, hsoc.ramIdle, hsoc.scratchBytes,
    hsoc.calm.ctrl, hsoc.calm.storage, hsoc.calm.cfg⟩

/-! ## Counting cycles -/

theorem andThen_congr {o : Out} {f g : State → Out} (h : ∀ s, o = .next s → f s = g s) : andThen o f = andThen o g := by
  cases o with
  | next s => exact h s rfl
  | fault r => rfl
  | refused r => rfl

/-- One cycle more, from what its CPU tick does. -/
theorem cycles_succ {s u : State} (h : s.cpuTick = .next u) (n : Nat) :
    cycles (n + 1) s = andThen u.finishCycle (cycles n) := by
  rw [cycles, cycle, h, andThen_next]

/-- The last cycle of a sequence. -/
theorem cycles_one {s u : State} (h : s.cpuTick = .next u) : u.finishCycle = cycles 1 s := by
  rw [cycles_succ h]
  exact (andThen_next_right _).symm

/-- A cycle followed by `n`, from what its CPU tick does. -/
theorem andThen_finishCycle_eq_cycles {s u : State} {n : Nat} {rest : State → Out} (h : s.cpuTick = .next u)
    (hrest : ∀ t, u.finishCycle = .next t → rest t = cycles n t) :
    andThen u.finishCycle rest = cycles (n + 1) s := by
  rw [cycles_succ h]
  exact andThen_congr hrest

/-! ### The wait states of a RAM transaction (R62) -/

/-- The cycles in which the CPU will see Wait: none where Wait is clear, else RAM's count and the one that transfers. -/
def Soc.waitsLeft (p : Soc) : Nat :=
  if p.bus.wait then p.ram.pendingWait + 1 else 0

theorem Soc.waitsLeft_eq_zero_iff {p : Soc} : p.waitsLeft = 0 ↔ p.bus.wait = false := by
  cases h : p.bus.wait <;> simp [Soc.waitsLeft, h]

theorem Soc.waitsLeft_of_wait {p : Soc} (h : p.bus.wait = true) : p.waitsLeft = p.ram.pendingWait + 1 := by
  simp [Soc.waitsLeft, h]

theorem Ram.tick_pendingWait (r : Ram) : r.tick.pendingWait = if r.busy then r.pendingWait - 1 else r.pendingWait := by
  unfold Ram.tick
  cases r.busy with
  | false => rfl
  | true =>
    rcases Nat.eq_zero_or_pos r.pendingWait with h | h <;> simp [h]

/-- A device tick counts down if the device is RAM. -/
theorem Soc.deviceTick_ramPending (p : Soc) (e : DeviceEntry) (hb : p.ram.busy = true) :
    (p.deviceTick e).ram.pendingWait = p.ram.pendingWait - if e.device = .ram then 1 else 0 := by
  unfold Soc.deviceTick
  cases hd : e.device
  case ram => simp [Ram.tick_pendingWait, hb]
  case controller => exact p.controllerTick_transfers.ramPending
  all_goals rfl

/-- The ticks of a device table count down once for each RAM in it. -/
theorem Soc.foldl_deviceTick_ramPending (devices : List DeviceEntry) {p : Soc} (hb : p.ram.busy = true) :
    (devices.foldl Soc.deviceTick p).ram.pendingWait =
      p.ram.pendingWait - (devices.map DeviceEntry.device).count .ram := by
  induction devices generalizing p with
  | nil => rfl
  | cons e rest ih =>
    rw [List.foldl_cons, ih ((p.deviceTick_ticks e).ramBusy.trans hb), p.deviceTick_ramPending e hb, List.map_cons,
      List.count_cons, Nat.sub_sub, Nat.add_comm]
    simp only [beq_iff_eq]

/-- A well-formed configuration attaches RAM once (R18), so that a busy RAM counts once a cycle. -/
theorem Soc.deviceTicks_ramPending {p : Soc} {e : DeviceEntry} (hcfg : p.cfg.wellFormed = true)
    (he : e ∈ p.cfg.devices) (hd : e.device = .ram) (hb : p.ram.busy = true) :
    p.deviceTicks.ram.pendingWait = p.ram.pendingWait - 1 := by
  have hnodup : (p.cfg.devices.map DeviceEntry.device).Nodup := by
    simp only [Config.wellFormed, Bool.and_eq_true, decide_eq_true_eq] at hcfg
    tauto
  unfold Soc.deviceTicks
  rw [Soc.foldl_deviceTick_ramPending _ hb,
    List.count_eq_one_of_mem hnodup (List.mem_map.mpr ⟨e, he, hd⟩)]

/-- What RAM's handler answers a request (R62) is what the bus tick leaves: the count it waits with, or Wait clear. -/
theorem Soc.busTick_ram_cases {p q : Soc} {e : DeviceEntry} (one : p.bus.read ≠ p.bus.write)
    (ht : p.target p.bus.address = some e) (hd : e.device = .ram) (h : p.busTick = .next q) :
    (p.ram.waiting p.cfg.ramLatency = some q.ram ∧ q.bus.wait = true) ∨
    (p.ram.waiting p.cfg.ramLatency = none ∧ q.bus.wait = false) := by
  rw [Soc.busTick_claimed one ht] at h
  cases h
  cases hw : p.ram.waiting p.cfg.ramLatency with
  | some r =>
    left
    split
    · simp [Soc.serveRead, Soc.handleRead, hd, Ram.read, Soc.countRead, hw]
    · simp [Soc.serveWrite, Soc.handleWrite, hd, Ram.write, Soc.countWrite, hw]
  | none =>
    right
    split
    · simp [Soc.serveRead, Soc.handleRead, hd, Ram.read, Soc.countRead, hw]
    · simp [Soc.serveWrite, Soc.handleWrite, hd, Ram.write, Soc.countWrite, hw]

/-- After a cycle of a request to RAM, the waits left are the count of a busy RAM, and the latency at the request. -/
theorem Soc.cycle_waitsLeft {p q : Soc} {e : DeviceEntry} (hcfg : p.cfg.wellFormed = true)
    (one : p.bus.read ≠ p.bus.write) (ht : p.target p.bus.address = some e) (hd : e.device = .ram)
    (hlatency : p.ram.busy = true → 0 < p.cfg.ramLatency) (h : p.cycle = .next q) :
    q.waitsLeft = if p.ram.busy then p.ram.pendingWait else p.cfg.ramLatency := by
  obtain ⟨m, hm, hserved, -⟩ := Soc.busTick_served one ht
  cases (Soc.cycle_eq hm).symm.trans h
  have ticks := m.deviceTicks_ticks
  rcases Soc.busTick_ram_cases one ht hd hm with ⟨hwaiting, hwait⟩ | ⟨hwaiting, hclear⟩ <;>
    rcases Ram.waiting_cases p.ram p.cfg.ramLatency with
      ⟨r, hr, -, -, hb, hpos, -, hsame, hnew⟩ | ⟨hr, hover, hzero⟩ <;>
    rw [hr] at hwaiting <;> cases hwaiting
  · have hmem : e ∈ m.cfg.devices := by rw [hserved.cfg]; exact Soc.target_mem ht
    rw [Soc.waitsLeft_of_wait (ticks.wait.trans hwait),
      Soc.deviceTicks_ramPending (hserved.cfg ▸ hcfg) hmem hd hb, Nat.sub_add_cancel hpos]
    cases hbusy : p.ram.busy with
    | true => rw [if_pos rfl, (hsame hbusy).2]
    | false => exact hnew hbusy
  · rw [Soc.waitsLeft_eq_zero_iff.mpr (ticks.wait.trans hclear)]
    cases hbusy : p.ram.busy with
    | true => exact (hover hbusy (hlatency hbusy)).symm
    | false => exact (hzero hbusy).symm

/-- Where nothing but waits is left, they are as many cycles, and Wait is clear after them. -/
theorem waitStates_eq_cycles {e : DeviceEntry} (hd : e.device = .ram) {n : Nat} {s : State} (hw : s.waiting = true)
    (hcfg : s.soc.cfg.wellFormed = true) (hr : s.soc.Requested e) (hn : s.soc.waitsLeft ≤ n) :
    s.waitStates n = cycles s.soc.waitsLeft s ∧ ∀ t, s.waitStates n = .next t → t.soc.bus.wait = false := by
  induction n generalizing s with
  | zero =>
    have hzero := Nat.le_zero.mp hn
    rw [hzero]
    exact ⟨rfl, fun t ht => by cases ht; exact Soc.waitsLeft_eq_zero_iff.mp hzero⟩
  | succ n ih =>
    unfold State.waitStates
    cases hwait : s.soc.bus.wait with
    | false =>
      rw [Soc.waitsLeft_eq_zero_iff.mpr hwait]
      exact ⟨rfl, fun t ht => by cases ht; exact hwait⟩
    | true =>
      have hclaimed : s.soc.claimed = true := by simp [Soc.claimed, hr.target]
      have hhold := hr.holds hwait
      have hbusy : s.soc.ram.busy = true := by simpa [Soc.ramOf, hd] using hhold.busy
      have hlatency : 0 < s.soc.cfg.ramLatency := by simpa [Soc.latencyOf, hd] using hhold.latency
      obtain ⟨q, hq, hserved, hreq, -⟩ := Soc.cycle_served hr.one hr.target
      have hleft := Soc.cycle_waitsLeft hcfg hr.one hr.target hd (fun _ => hlatency) hq
      rw [hbusy, if_pos rfl] at hleft
      rw [Soc.waitsLeft_of_wait hwait] at hn ⊢
      rw [hclaimed, Bool.and_self, if_pos rfl, cycles_succ (cpuTick_waiting hw hwait), finishCycle_eq hq, andThen_next,
        andThen_next, ← hleft]
      exact ih (s := { s with soc := q }) hw (hserved.cfg ▸ hcfg) hreq (by dsimp only; omega)

/-- A transaction with RAM from its request: a cycle, as many waits as the latency, and the cycle of the latch (R62). -/
theorem transaction_eq_cycles {s u : State} {e : DeviceEntry} {latch : State → State} (htick : s.cpuTick = .next u)
    (hw : u.waiting = true) (hcfg : u.soc.cfg.wellFormed = true) (one : u.soc.bus.read ≠ u.soc.bus.write)
    (hs : u.soc.servedByRam u.soc.bus.address e)
    (hl : ∀ v : State, v.cpu = u.cpu → v.soc.bus.wait = false → v.cpuTick = .next (latch v)) :
    andThen u.finishCycle (fun t => t.completeTransaction latch) = cycles (2 + u.soc.cfg.ramLatency) s := by
  obtain ⟨ht, hd, hidle⟩ := hs
  obtain ⟨q, hq, hserved, hreq, -⟩ := Soc.cycle_served one ht
  have hleft := Soc.cycle_waitsLeft hcfg one ht hd (fun hb => by simp [hidle] at hb) hq
  rw [hidle, if_neg Bool.false_ne_true, ← hserved.cfg] at hleft
  rw [show 2 + u.soc.cfg.ramLatency = q.cfg.ramLatency + 1 + 1 by rw [hserved.cfg]; omega, cycles_succ htick,
    finishCycle_eq hq, andThen_next, andThen_next, ← hleft, cycles_add]
  have hbound : q.waitsLeft ≤ q.waitBound := by rw [hleft]; unfold Soc.waitBound; omega
  obtain ⟨hstates, hclear⟩ :=
    waitStates_eq_cycles hd (s := { u with soc := q }) hw (hserved.cfg ▸ hcfg) hreq hbound
  unfold State.completeTransaction
  rw [← hstates]
  refine andThen_congr fun v hv => ?_
  have hvclear := hclear v hv
  rw [if_neg (by simp [hvclear])]
  exact cycles_one (hl v (by rw [(waitStates_next hv).1]) hvclear)

/-! ### The sequences of cycles -/

/-- The fetch from RAM is its transaction (R120: F0 F1). -/
theorem fetch_eq_cycles {s : State} {e : DeviceEntry} (h : s.atInstructionStart = true)
    (ha : s.cpu.pc.toNat % 4 = 0) (hs : s.soc.servedByRam s.cpu.pc e) (hcfg : s.soc.cfg.wellFormed = true) :
    s.fetch = cycles (2 + s.soc.cfg.ramLatency) s := by
  simp only [State.atInstructionStart, Bool.and_eq_true, Bool.not_eq_true', beq_iff_eq] at h
  obtain ⟨⟨hrun, hstage⟩, huop⟩ := h
  have hrequest : s.fetchRequest = .next { cpu := { s.cpu with uop := 1 }, soc := s.soc.fetchRequest s.cpu.pc } :=
    if_pos ha
  unfold State.fetch
  rw [hrequest, andThen_next]
  refine transaction_eq_cycles (e := e) ?_ ?_ hcfg (s.soc.fetchRequest_one _) hs fun v hv hclear => ?_
  · simp [State.cpuTick, hrun, hstage, huop, hrequest]
  · simp [State.waiting, hrun, hstage]
  · simp [State.cpuTick, hv, hrun, hstage, hclear]

/-- Decode, Execute and WriteBack (R120: D E W). -/
theorem threeCycles_eq_cycles {s : State} {d : Decoded} (h : s.InStage .decode d) {dec ex wb : State → State}
    (hdec : dec s = s.decodeStage)
    (hex : ∀ t : State, t.InStage .execute d → t.executeStage = .next (ex t) ∧ (ex t).InStage .writeBack d)
    (hwb : ∀ t : State, t.InStage .writeBack d → wb t = t.writeBackStage) :
    s.threeCycles dec ex wb = cycles 3 s := by
  unfold State.threeCycles
  rw [hdec]
  refine andThen_finishCycle_eq_cycles h.cpuTick_decode fun t ht => ?_
  have ht := h.decodeStage.finishCycle ht
  obtain ⟨hstep, hnext⟩ := hex t ht
  refine andThen_finishCycle_eq_cycles (ht.cpuTick_execute.trans hstep) fun u hu => ?_
  have hu := hnext.finishCycle hu
  rw [hwb u hu]
  exact cycles_one hu.cpuTick_writeBack

/-- A branch (R120: D E when taken, D E W when not). -/
theorem branchInstruction_eq_cycles {s : State} {d : Decoded} (h : s.InStage .decode d) {taken : Flags → Bool}
    (hshape : d.shape = .branch)
    (hex : ∀ t : State, t.cpu.instr = d → t.executeStage = .next (t.executeBranch (taken t.cpu.flags)))
    (hwb : ∀ t : State, t.cpu.instr = d → t.writeBackStage = t.writeBackNone) :
    s.branchInstruction d.imm taken = cycles (if taken s.cpu.flags then 2 else 3) s := by
  have hdec : s.decodeStage = s.readBranchOperand d.imm := by simp [State.decodeStage, h.instr, hshape]
  have hcycles : (if taken s.cpu.flags then 2 else 3) = (if taken s.cpu.flags then 0 else 1) + 1 + 1 := by
    split <;> rfl
  unfold State.branchInstruction
  rw [hcycles, ← hdec]
  refine andThen_finishCycle_eq_cycles h.cpuTick_decode fun t ht => ?_
  have hin := h.decodeStage.finishCycle ht
  have hflags : t.cpu.flags = s.cpu.flags := by rw [(finishCycle_next ht).1, hdec]; rfl
  refine andThen_finishCycle_eq_cycles (hin.cpuTick_execute.trans (hex t hin.instr)) fun u hu => ?_
  have hcpu : u.cpu = (t.executeBranch (taken s.cpu.flags)).cpu := by rw [(finishCycle_next hu).1, hflags]
  cases htaken : taken s.cpu.flags with
  | true =>
    rw [htaken, executeBranch_taken] at hcpu
    rw [if_neg (by rw [hcpu]; nofun)]
    rfl
  | false =>
    rw [htaken, executeBranch_not_taken] at hcpu
    have hin : u.InStage .writeBack d := by
      rw [hflags, htaken] at hu
      exact State.InStage.finishCycle (s := t.executeBranch false) ⟨hin.running, rfl, hin.instr⟩ hu
    rw [if_pos hin.stage, ← hwb u hin.instr]
    exact cycles_one hin.cpuTick_writeBack

/-- The request of a load or store asserts one line, at the address in `alu_result`, and changes nothing else outside
the CPU (R126). -/
theorem memRequest_soc {s : State} (hi : s.soc.busIdle) :
    s.memRequest.soc.bus.read ≠ s.memRequest.soc.bus.write ∧
    s.memRequest.soc = { s.soc with bus := { s.memRequest.soc.bus with address := s.cpu.aluResult } } := by
  obtain ⟨hread, hwrite⟩ := hi
  unfold State.memRequest
  split
  · exact ⟨by simp [hwrite], rfl⟩
  · exact ⟨by simp [hread], rfl⟩

/-- The latch tick of a load or store leads to WriteBack (R127). -/
theorem memLatch_stage {s : State} (h : s.soc.bus.wait = false) : s.memLatch.cpu.stage = .writeBack := by
  unfold State.memLatch
  rw [h, if_neg Bool.false_ne_true]
  split <;> rfl

/-- A load or store after its Decode and Execute cycles over an idle bus. -/
theorem cycles_two_of_memory {s : State} {d : Decoded} (h : s.InStage .decode d) (hi : s.soc.busIdle)
    (hshape : d.shape = .immediate)
    (hex : ∀ t : State, t.cpu.instr = d → t.executeStage = .next t.executeAddress) :
    cycles 2 s = .next { cpu := { s.cpu.inMemory d.rn d.imm with uop := 0 }, soc := s.soc.afterTicks 2 } := by
  have hdec : s.decodeStage = s.readImmediateOperands d.rn d.imm := by simp [State.decodeStage, h.instr, hshape]
  have hin : ({ s.decodeStage with soc := s.soc.deviceTicks } : State).InStage .execute d := h.decodeStage.withSoc _
  have htick := hin.cpuTick_execute.trans (hex _ hin.instr)
  rw [hdec] at htick
  rw [cycles_succ h.cpuTick_decode, hdec, finishCycle_idle (by rw [readImmediateOperands_soc]; exact hi), andThen_next,
    readImmediateOperands_soc, cycles_succ htick,
    finishCycle_idle (by rw [executeAddress_soc]; exact s.soc.deviceTicks_ticks.busIdle hi)]
  rfl

/-- The transaction of a load or store with RAM, and its WriteBack (R120: M0 M1 W). -/
theorem memoryCycles_eq_cycles {s : State} {d : Decoded} {e : DeviceEntry} (h : s.InStage .memory d)
    (huop : s.cpu.uop = 0) (hi : s.soc.busIdle) (hcfg : s.soc.cfg.wellFormed = true)
    (hs : s.soc.servedByRam s.cpu.aluResult e) {request latch wb : State → State}
    (hrequest : ∀ t : State, t.cpu.instr = d → request t = t.memRequest)
    (hlatch : ∀ t : State, t.cpu.instr = d → t.soc.bus.wait = false → latch t = t.memLatch)
    (hwb : ∀ t : State, t.cpu.instr = d → wb t = t.writeBackStage) :
    (andThen (request s).finishCycle fun s => andThen (s.completeTransaction latch) fun s =>
      if s.cpu.stage = .writeBack then (wb s).finishCycle else .next s) =
    cycles (2 + s.soc.cfg.ramLatency + 1) s := by
  obtain ⟨hone, hsoc⟩ := memRequest_soc hi
  have inMemory : ∀ u : State, u.cpu = s.memRequest.cpu → u.InStage .memory d ∧ u.cpu.uop = 1 := fun u hu => by
    rw [memRequest_cpu] at hu
    exact ⟨⟨by rw [hu]; exact h.running, by rw [hu]; exact h.stage, by rw [hu]; exact h.instr⟩, by rw [hu]⟩
  have hcfg' : s.memRequest.soc.cfg = s.soc.cfg := by rw [hsoc]
  have hserved : s.memRequest.soc.servedByRam s.memRequest.soc.bus.address e := by rw [hsoc]; exact hs
  have hcount := transaction_eq_cycles (latch := latch) (h.cpuTick_memRequest huop)
    (by obtain ⟨hin, hu⟩ := inMemory _ rfl; simp [State.waiting, hin.running, hin.stage, hu])
    (hcfg' ▸ hcfg) hone hserved fun u hu hclear => by
      obtain ⟨hin, hu⟩ := inMemory u hu
      rw [hin.cpuTick_memLatch hu, hlatch u hin.instr hclear]
  obtain ⟨q, hq, hclear, -⟩ := transaction_claimed hone hserved.1 (fun _ => True) (fun _ _ => trivial)
    (fun _ _ _ _ _ _ => trivial)
  rw [hrequest s h.instr, ← andThen_assoc, cycles_add, ← hcfg', ← hcount]
  refine andThen_congr fun u hu => ?_
  obtain ⟨hin, -⟩ := inMemory { s.memRequest with soc := q } rfl
  rw [hq, hlatch _ hin.instr hclear] at hu
  obtain ⟨hrunning, hinstr⟩ := memLatch_cpu { s.memRequest with soc := q }
  have hwriteBack : u.InStage .writeBack d := State.InStage.finishCycle
    ⟨hrunning.trans hin.running, memLatch_stage hclear, hinstr.trans hin.instr⟩ hu
  rw [if_pos hwriteBack.stage, hwb u hwriteBack.instr]
  exact cycles_one hwriteBack.cpuTick_writeBack

/-- A load or store of RAM over an idle bus (R120: D E M0 M1 W). -/
theorem memoryInstruction_eq_cycles {s : State} {d : Decoded} {e : DeviceEntry} (h : s.InStage .decode d)
    (hi : s.soc.busIdle) (hcfg : s.soc.cfg.wellFormed = true)
    (hs : s.soc.servedByRam (s.effectiveAddress d.rn d.imm) e) {request latch wb : State → State}
    (hshape : d.shape = .immediate)
    (hex : ∀ t : State, t.cpu.instr = d → t.executeStage = .next t.executeAddress)
    (hrequest : ∀ t : State, t.cpu.instr = d → request t = t.memRequest)
    (hlatch : ∀ t : State, t.cpu.instr = d → t.soc.bus.wait = false → latch t = t.memLatch)
    (hwb : ∀ t : State, t.cpu.instr = d → wb t = t.writeBackStage) :
    s.memoryInstruction d.rn d.imm request latch wb = cycles (5 + s.soc.cfg.ramLatency) s := by
  have ticks := s.soc.afterTicks_ticks 2
  have hlatency : s.soc.cfg.ramLatency = (s.soc.afterTicks 2).cfg.ramLatency := by rw [ticks.cfg]
  have hsplit : 5 + s.soc.cfg.ramLatency = 2 + (2 + (s.soc.afterTicks 2).cfg.ramLatency + 1) := by omega
  rw [memoryInstruction_request hi, hsplit, cycles_add, cycles_two_of_memory h hi hshape hex, andThen_next]
  exact memoryCycles_eq_cycles (s := { cpu := { s.cpu.inMemory d.rn d.imm with uop := 0 }, soc := s.soc.afterTicks 2 })
    ⟨h.running, rfl, h.instr⟩ rfl (ticks.busIdle hi) (ticks.cfg.symm ▸ hcfg)
    ⟨(ticks.target _).trans hs.1, hs.2.1, ticks.ramBusy.trans hs.2.2⟩ hrequest hlatch hwb

/-! ### The instructions -/

theorem exec_eq_three_cycles {s : State} {i : Instr} (h : s.InStage .decode i.decoded)
    (hop : i.decoded.op ∈ [Op.add, .sub, .and, .or, .xor, .lsl, .lsr, .asr, .cmp, .mov, .nop]) :
    exec i s = cycles 3 s := by
  cases i with
  | nop | add | sub | and | or | xor | lsl | lsr | asr | cmp | mov =>
    simp only [exec, execNop, execAdd, execSub, execAnd, execOr, execXor, execLsl, execLsr, execAsr, execCmp, execMov,
      State.aluInstruction]
    exact threeCycles_eq_cycles h (by simp only [State.decodeStage, h.instr]; rfl)
      (fun t ht => ⟨by simp only [State.executeStage, ht.instr]; rfl, ht.running, rfl, ht.instr⟩)
      (fun t ht => by simp only [State.writeBackStage, ht.instr]; rfl)
  | _ => simp [Instr.decoded] at hop

/-- Whether a branch of an opcode is taken (R191 to R193). -/
def branchTaken (op : Op) (flags : Flags) : Bool :=
  match op with
  | .beq => flags.z
  | .bne => !flags.z
  | _ => true

theorem exec_branch_eq_cycles {s : State} {i : Instr} (h : s.InStage .decode i.decoded)
    (hop : i.decoded.op ∈ [Op.b, .beq, .bne]) :
    exec i s = cycles (if branchTaken i.decoded.op s.cpu.flags then 2 else 3) s := by
  cases i with
  | b | beq | bne =>
    simp only [exec, execB, execBeq, execBne]
    refine (branchInstruction_eq_cycles h rfl (fun t ht => by simp only [State.executeStage, ht]; rfl)
      (fun t ht => by simp only [State.writeBackStage, ht]; rfl)).trans ?_
    rfl
  | _ => simp [Instr.decoded] at hop

theorem exec_halt_eq_cycles {s : State} {i : Instr} (h : s.InStage .decode i.decoded) (hop : i.decoded.op = .halt) :
    exec i s = cycles 2 s := by
  cases i with
  | halt rd rn rm imm =>
    have hdec : s.readRegisterOperands rn rm = s.decodeStage := by simp only [State.decodeStage, h.instr]; rfl
    simp only [exec, execHalt, hdec]
    refine andThen_finishCycle_eq_cycles h.cpuTick_decode fun t ht => ?_
    have hin := h.decodeStage.finishCycle ht
    exact cycles_one (hin.cpuTick_execute.trans (by simp only [State.executeStage, hin.instr]; rfl))
  | _ => cases hop

theorem exec_memory_eq_cycles {s : State} {i : Instr} {e : DeviceEntry} (h : s.InStage .decode i.decoded)
    (hi : s.soc.busIdle) (hcfg : s.soc.cfg.wellFormed = true)
    (hs : s.soc.servedByRam (s.effectiveAddress i.decoded.rn i.decoded.imm) e)
    (hop : i.decoded.op ∈ [Op.ldr, .str]) : exec i s = cycles (5 + s.soc.cfg.ramLatency) s := by
  cases i with
  | ldr | str =>
    simp only [exec, execLdr, execStr]
    exact memoryInstruction_eq_cycles h hi hcfg hs rfl (fun t ht => by simp only [State.executeStage, ht]; rfl)
      (fun t ht => by simp only [State.memRequest, ht]; rfl)
      (fun t ht hw => by simp only [State.memLatch, ht, hw]; rfl)
      (fun t ht => by simp only [State.writeBackStage, ht]; rfl)
  | _ => simp [Instr.decoded] at hop

/-- A step from RAM is the fetch's cycles and then those of the instruction, from what the fetch leaves. -/
theorem step_ram_eq_cycles {s : State} {i : Instr} {e : DeviceEntry} (h : s.atInstructionStart = true)
    (hcfg : s.soc.cfg.wellFormed = true) (ha : s.cpu.pc.toNat % 4 = 0) (hs : s.soc.servedByRam s.cpu.pc e)
    (hq : s.soc.quiet)
    (hi : decodeBytes (s.soc.fetchedBytes e s.cpu.pc) = .ok (i, [])) :
    ∃ f : State, f.InStage .decode i.decoded ∧ f.cpu.x = s.cpu.x ∧ f.cpu.flags = s.cpu.flags ∧ s.soc.Fetched f.soc ∧
      ∀ {m n : Nat}, exec i f = cycles n f → m = 2 + s.soc.cfg.ramLatency + n → step s = cycles m s := by
  obtain ⟨f, hf, hstep, hcpu, hsoc⟩ := step_ram h ha hs hq hi
  have hrun : s.cpu.halted = false := by
    simp only [State.atInstructionStart, Bool.and_eq_true, Bool.not_eq_true'] at h
    obtain ⟨⟨hrun, -⟩, -⟩ := h
    exact hrun
  refine ⟨f, ⟨by rw [hcpu]; exact hrun, by rw [hcpu], by rw [hcpu]⟩, by rw [hcpu], by rw [hcpu], hsoc, ?_⟩
  rintro m n hn rfl
  rw [cycles_add, ← fetch_eq_cycles h ha hs hcfg, hf, andThen_next, hstep, hn]

/-- Settles O32: the fetch is one RAM transaction, an LDR or STR makes another, and every other stage is one cycle. -/
theorem tickCounts : Obligations.TickCounts := by
  intro s i e hcfg hstart ha hs hq off hin hi latency
  obtain ⟨f, hdecode, hx, hflags, hsoc, count⟩ :=
    step_ram_eq_cycles hstart hcfg ha hs hq ((congrArg decodeBytes (if_pos hin)).trans hi)
  have branch : i.decoded.op ∈ [Op.b, .beq, .bne] →
      step s = cycles ((if branchTaken i.decoded.op s.cpu.flags then 4 else 5) + latency) s := fun hop =>
    count (exec_branch_eq_cycles hdecode hop) (by rw [hflags]; split <;> omega)
  refine ⟨fun hop => ?_, fun hop => ?_, fun hop => ?_, fun hop => ?_, fun hop ht => ?_⟩
  · exact count (exec_eq_three_cycles hdecode hop) (by omega)
  · rcases List.mem_pair.mp hop with hb | hhalt
    · rw [branch (by simp [hb]), hb]; rfl
    · exact count (exec_halt_eq_cycles hdecode hhalt) (by omega)
  · rw [branch (by simp [hop]), hop]; rfl
  · rw [branch (by simp [hop]), hop]
    cases hz : s.cpu.flags.z <;> simp [branchTaken, hz]
  · have haddress : f.effectiveAddress i.decoded.rn i.decoded.imm = s.effectiveAddress i.decoded.rn i.decoded.imm :=
      congrArg (· + i.decoded.imm) (reg_of_x_eq hx i.decoded.rn)
    have hserved : f.soc.servedByRam (f.effectiveAddress i.decoded.rn i.decoded.imm) e :=
      ⟨by rw [haddress, hsoc.calm.target]; exact ht, hs.2.1, hsoc.ramIdle⟩
    have hlatency : f.soc.cfg.ramLatency = latency := by rw [hsoc.calm.cfg]
    exact count (exec_memory_eq_cycles hdecode hsoc.idle (hsoc.calm.cfg ▸ hcfg) hserved hop) (by omega)

end Sys2Proof.Machine
end

section
/-! PROOFS. The ALU (41_alu_ops.md): what its operations answer, in the numbers the words stand for, and what the ALU
instructions and CMP leave on an idle bus. -/

namespace Sys2Proof.Machine

/-! ## The parts of the ALU's answer (R150) -/

/-- Z and N are read off the result, whatever the operation; what an operation fixes are its result, C and V. -/
theorem alu_eq {op : AluOp} {a b r : Word} {flags : Flags} {c v : Bool} (hr : op.result a b = r)
    (hc : op.carry a b flags.c = c) (hv : op.overflow a b = v) :
    alu op a b flags = (r, { z := decide (r = 0), n := r.getLsbD 63, c := c, v := v }) := by
  subst hr hc hv
  simp only [alu, Bool.beq_eq_decide_eq, BitVec.msb_eq_getLsbD_last]

/-- The sum wraps below an operand exactly when the exact sum does not fit. -/
theorem carry_add (a b : Word) (c : Bool) : AluOp.add.carry a b c = decide (2 ^ 64 ≤ a.toNat + b.toNat) := by
  have ha := a.isLt
  have hb := b.isLt
  simp only [AluOp.carry, BitVec.toNat_add, decide_eq_decide]
  omega

/-- R150's sign rule for ADD is the library's `saddOverflow`: the exact signed sum does not fit. -/
theorem overflow_add (a b : Word) :
    AluOp.add.overflow a b = decide (a.toInt + b.toInt < -2 ^ 63 ∨ 2 ^ 63 ≤ a.toInt + b.toInt) := by
  calc AluOp.add.overflow a b
      = a.saddOverflow b := by rw [BitVec.saddOverflow_eq, AluOp.overflow, bne, BEq.comm (a := a.msb) (b := (a + b).msb)]
    _ = _ := by simp [BitVec.saddOverflow, Bool.or_comm]

/-- R150's sign rule for SUB is the library's `ssubOverflow`: the exact signed difference does not fit. -/
theorem overflow_sub (a b : Word) :
    AluOp.sub.overflow a b = decide (a.toInt - b.toInt < -2 ^ 63 ∨ 2 ^ 63 ≤ a.toInt - b.toInt) := by
  calc AluOp.sub.overflow a b
      = a.ssubOverflow b := by
        rw [BitVec.ssubOverflow_eq, AluOp.overflow]
        cases a.msb <;> cases b.msb <;> cases (a - b).msb <;> rfl
    _ = _ := by simp [BitVec.ssubOverflow, Bool.or_comm]

/-! ## ADD and SUB (R151, R152) -/

theorem alu_add (a b : Word) (flags : Flags) :
    alu .add a b flags = (BitVec.ofNat 64 (a.toNat + b.toNat),
      { z := decide ((a.toNat + b.toNat) % 2 ^ 64 = 0)
        n := decide (2 ^ 63 ≤ (a.toNat + b.toNat) % 2 ^ 64)
        c := decide (2 ^ 64 ≤ a.toNat + b.toNat)
        v := decide (a.toInt + b.toInt < -2 ^ 63 ∨ 2 ^ 63 ≤ a.toInt + b.toInt) }) := by
  have result : AluOp.add.result a b = BitVec.ofNat 64 (a.toNat + b.toNat) := by
    simp [AluOp.result, BitVec.ofNat_add]
  have zero : BitVec.ofNat 64 (a.toNat + b.toNat) = 0 ↔ (a.toNat + b.toNat) % 2 ^ 64 = 0 := by
    simp [BitVec.toNat_eq]
  have negative : (BitVec.ofNat 64 (a.toNat + b.toNat)).getLsbD 63 =
      decide (2 ^ 63 ≤ (a.toNat + b.toNat) % 2 ^ 64) := by
    rw [← BitVec.toNat_ofNat]
    exact (BitVec.msb_eq_getLsbD_last _).symm.trans (BitVec.msb_eq_decide _)
  rw [alu_eq result (carry_add a b _) (overflow_add a b), negative, decide_eq_decide.mpr zero]

theorem alu_sub (a b : Word) (flags : Flags) :
    alu .sub a b flags = (a - b,
      { z := decide (a = b)
        n := (a - b).getLsbD 63
        c := decide (a.toNat < b.toNat)
        v := decide (a.toInt - b.toInt < -2 ^ 63 ∨ 2 ^ 63 ≤ a.toInt - b.toInt) }) := by
  have zero : a - b = 0 ↔ a = b := sub_eq_zero
  rw [alu_eq rfl rfl (overflow_sub a b), ← decide_eq_decide.mpr zero]
  rfl

/-- The difference of words is the exact difference of the numbers, modulo 2^64. -/
theorem sub_eq_ofInt (a b : Word) : a - b = BitVec.ofInt 64 (a.toNat - b.toNat) := by
  rw [Int.sub_eq_add_neg, BitVec.ofInt_add, BitVec.ofInt_neg]
  simp [BitVec.sub_eq_add_neg]

/-- After SUB, N other than V is signed order (R159): N is the exact difference's sign, unless it does not fit. -/
theorem sub_negative_ne_overflow_iff (a b : Word) :
    (a - b).getLsbD 63 ≠ decide (a.toInt - b.toInt < -2 ^ 63 ∨ 2 ^ 63 ≤ a.toInt - b.toInt) ↔ a.toInt < b.toInt := by
  have negative : (a - b).getLsbD 63 = decide ((a.toInt - b.toInt).bmod (2 ^ 64) < 0) := by
    rw [← BitVec.toInt_sub, ← BitVec.msb_eq_toInt]
    exact (BitVec.msb_eq_getLsbD_last _).symm
  have ha := a.le_toInt
  have ha' := a.toInt_lt
  have hb := b.le_toInt
  have hb' := b.toInt_lt
  rw [negative, Ne, decide_eq_decide, Int.bmod_def]
  omega

/-! ## The shifts (R156 to R158) -/

/-- "masked to its low 6 bits" (R150). -/
theorem shiftAmount_eq (b : Word) : shiftAmount b = b.toNat % 64 := by
  simp [shiftAmount]

theorem result_lsl (a b : Word) : AluOp.lsl.result a b = BitVec.ofNat 64 (a.toNat * 2 ^ (b.toNat % 64)) := by
  rw [AluOp.result, shiftAmount_eq, ← Nat.shiftLeft_eq]
  rfl

theorem result_lsr (a b : Word) : AluOp.lsr.result a b = BitVec.ofNat 64 (a.toNat / 2 ^ (b.toNat % 64)) := by
  rw [AluOp.result, shiftAmount_eq, ← Nat.shiftRight_eq_div_pow, ← BitVec.toNat_ushiftRight, BitVec.ofNat_toNat,
    BitVec.setWidth_eq]

theorem result_asr (a b : Word) : AluOp.asr.result a b = BitVec.ofInt 64 (a.toInt / 2 ^ (b.toNat % 64)) := by
  rw [AluOp.result, shiftAmount_eq, BitVec.sshiftRight_eq, Int.shiftRight_eq_div_pow]
  rfl

theorem carry_lsl (a b : Word) (c : Bool) :
    AluOp.lsl.carry a b c = if b.toNat % 64 = 0 then c else a.getLsbD (64 - b.toNat % 64) := by
  rw [AluOp.carry, shiftAmount_eq]

theorem carry_lsr (a b : Word) (c : Bool) :
    AluOp.lsr.carry a b c = if b.toNat % 64 = 0 then c else a.getLsbD (b.toNat % 64 - 1) := by
  rw [AluOp.carry, shiftAmount_eq]

/-- Both right shifts put the same bit out last. -/
theorem carry_asr (a b : Word) (c : Bool) :
    AluOp.asr.carry a b c = if b.toNat % 64 = 0 then c else a.getLsbD (b.toNat % 64 - 1) :=
  carry_lsr a b c

/-! ## The flag laws (R161) -/

/-- Settles O8: the carries of ADD, SUB and the shifts are the lemmas above, Z and N those of every operation. -/
theorem aluFlagLaws : Obligations.AluFlagLaws := by
  intro a b flags
  refine ⟨?_, ?_, rfl, fun op hop => ?_, fun op hop => ?_, fun op => ?_⟩
  · rw [alu_add, decide_eq_true_iff]
  · rw [alu_sub, decide_eq_true_iff]
  · simp only [List.mem_cons, List.not_mem_nil, or_false] at hop
    rcases hop with rfl | rfl | rfl <;> exact ⟨rfl, rfl⟩
  · simp only [List.mem_cons, List.not_mem_nil, or_false] at hop
    rcases hop with rfl | rfl | rfl
    · exact ⟨rfl, fun h => (carry_lsl a b _).trans (if_pos h)⟩
    · exact ⟨rfl, fun h => (carry_lsr a b _).trans (if_pos h)⟩
    · exact ⟨rfl, fun h => (carry_asr a b _).trans (if_pos h)⟩
  · rw [alu_eq rfl rfl rfl, decide_eq_true_iff]
    exact ⟨Iff.rfl, rfl⟩

/-! ## The instructions on an idle bus (R163) -/

/-- An ALU instruction's next state, from what the ALU answers for its operands. -/
theorem aluInstruction_of_alu {s : State} (h : s.soc.busIdle) {op : AluOp} (rd : RegIdx) {rn rm : RegIdx} {r : Word}
    {flags : Flags} (ha : alu op (s.cpu.reg rn) (s.cpu.reg rm) s.cpu.flags = (r, flags)) :
    s.aluInstruction op rd rn rm = .next
      { cpu := { s.cpu with
          x := s.cpu.x.set rd r
          pc := s.cpu.pc + 4
          flags := flags
          stage := .fetch
          uop := 0
          opA := s.cpu.reg rn
          opB := s.cpu.reg rm
          aluResult := r }
        soc := s.soc.afterTicks 3 } := by
  have result : op.result (s.cpu.reg rn) (s.cpu.reg rm) = r := congrArg Prod.fst ha
  rw [aluInstruction_idle h, result, ha]

/-- Settles O9: the ALU's ADD, with its flags from the exact sums, carried through the three cycles. -/
theorem addResult : Obligations.AddResult := fun _ rd _ _ _ h =>
  aluInstruction_of_alu h rd (alu_add _ _ _)

/-- Settles O10: the ALU's SUB carried through the three cycles, its word the exact difference modulo 2^64. -/
theorem subResult : Obligations.SubResult := by
  intro s rd rn rm imm h a b
  rw [← sub_eq_ofInt]
  exact aluInstruction_of_alu h rd (alu_sub a b _)

/-- Settles O11: the logic operations pass C through and clear V by definition. -/
theorem logicResults : Obligations.LogicResults := fun _ rd _ _ _ h =>
  ⟨aluInstruction_of_alu h rd (alu_eq rfl rfl rfl), aluInstruction_of_alu h rd (alu_eq rfl rfl rfl),
    aluInstruction_of_alu h rd (alu_eq rfl rfl rfl)⟩

/-- Settles O12: a word shifted is its number times or divided by a power of two, and V is cleared by definition. -/
theorem shiftResults : Obligations.ShiftResults := fun _ rd _ _ _ h =>
  ⟨aluInstruction_of_alu h rd (alu_eq (result_lsl _ _) (carry_lsl _ _ _) rfl),
    aluInstruction_of_alu h rd (alu_eq (result_lsr _ _) (carry_lsr _ _ _) rfl),
    aluInstruction_of_alu h rd (alu_eq (result_asr _ _) (carry_asr _ _ _) rfl)⟩

/-- CMP: SUB's flags and difference, no register (R159, D11). -/
theorem execCmp_of_alu {s : State} (h : s.soc.busIdle) {rn rm : RegIdx} {r : Word} {flags : Flags}
    (ha : alu .sub (s.cpu.reg rn) (s.cpu.reg rm) s.cpu.flags = (r, flags)) :
    execCmp rn rm s = .next
      { cpu := { s.cpu with
          pc := s.cpu.pc + 4
          flags := flags
          stage := .fetch
          uop := 0
          opA := s.cpu.reg rn
          opB := s.cpu.reg rm
          aluResult := r }
        soc := s.soc.afterTicks 3 } := by
  obtain ⟨rfl, rfl⟩ := Prod.ext_iff.mp ha
  obtain ⟨t, ht, rfl⟩ := threeCycles_idle h (d := fun s => s.readRegisterOperands rn rm)
    (e := State.executeCmp) (w := State.writeBackNone) (fun _ => rfl) (fun _ => rfl) (fun _ => rfl)
  exact ht

/-- Settles O13: the flags are SUB's, and N other than V is signed order. -/
theorem compareResult : Obligations.CompareResult := fun _ _ _ _ _ h =>
  ⟨_, execCmp_of_alu h (alu_sub _ _ _), decide_eq_true_iff, decide_eq_true_iff,
    sub_negative_ne_overflow_iff _ _, rfl⟩

end Sys2Proof.Machine
end

section
/-! PROOFS. LDR and STR (42_load_store.md): what a whole transaction with a RAM device, or with a device that answers at
once, leaves of memory and the devices, and the storage controller's registers seen from the bus. -/

namespace Sys2Proof.Machine

/-! ## What the ticks of a quiet machine keep -/

/-- Nothing of the controller, the storage stack, the configuration or the bytes of RAM and scratch RAM differs. -/
structure Soc.KeepsMemory (p q : Soc) : Prop where
  calm : p.Calm q
  bytes : ∀ k, (q.ramOf k).bytes = (p.ramOf k).bytes

theorem Soc.KeepsMemory.refl (p : Soc) : p.KeepsMemory p := ⟨.refl p, fun _ => rfl⟩

theorem Soc.KeepsMemory.trans {p q r : Soc} (h : p.KeepsMemory q) (k : q.KeepsMemory r) : p.KeepsMemory r :=
  ⟨h.calm.trans k.calm, fun d => (k.bytes d).trans (h.bytes d)⟩

/-- The lines of the bus are no part of what is kept. -/
theorem Soc.KeepsMemory.withBus {p q : Soc} (h : p.KeepsMemory q) (b : Bus) : p.KeepsMemory { q with bus := b } :=
  ⟨⟨h.calm.ctrl, h.calm.storage, h.calm.cfg⟩, h.bytes⟩

theorem Soc.KeepsMemory.afterTicks {p q : Soc} (h : p.KeepsMemory q) (hq : p.quiet) (n : Nat) :
    p.KeepsMemory (Soc.afterTicks n q) :=
  have ticks := Soc.afterTicks_quiet n (h.calm.quiet hq)
  h.trans ⟨ticks.calm, ticks.bytesOf⟩

theorem Soc.KeepsMemory.deviceTicks {p q : Soc} (h : p.KeepsMemory q) (hq : p.quiet) : p.KeepsMemory q.deviceTicks :=
  h.afterTicks hq 1

theorem Soc.KeepsMemory.ramBytes {p q : Soc} (h : p.KeepsMemory q) : q.ram.bytes = p.ram.bytes := h.bytes .ram

theorem Soc.KeepsMemory.scratchBytes {p q : Soc} (h : p.KeepsMemory q) : q.scratch.bytes = p.scratch.bytes :=
  h.bytes .scratchRam

/-! ## RAM devices (R61, R367) -/

/-- What a RAM device reads depends on its bytes alone, not on its latency state. -/
theorem Soc.KeepsMemory.ramValue {p q : Soc} (h : p.KeepsMemory q) (e : DeviceEntry) (a : Word) :
    q.ramValue e a = p.ramValue e a := by
  simp only [Soc.ramValue, Ram.transferRead, h.bytes]

theorem Soc.ramValue_eq (p : Soc) (e : DeviceEntry) (a : Word) :
    p.ramValue e a =
      if e.offset a + 8 ≤ e.size then join64 fun k => (p.ramOf e.device).bytes.read (e.offset a + k) else 0 := by
  unfold Soc.ramValue
  split
  · next hin => exact Ram.transferRead_inside _ hin
  · next hout => exact Ram.transferRead_outside _ (Nat.lt_of_not_le hout)

theorem Ram.transferWrite_bytes_congr {r r' : Ram} (h : r.bytes = r'.bytes) (size off : Nat) (v : Word) :
    (r.transferWrite size off v).bytes = (r'.transferWrite size off v).bytes := by
  unfold Ram.transferWrite
  split
  · exact congrArg (·.write64 off v) h
  · exact h

/-- A byte after a write transfer: one of the value's eight where they all lie in the device (D9), else the old one. -/
theorem Ram.read_transferWrite {r : Ram} (h : Memory.wf r.bytes) (size off : Nat) (v : Word) (a : Nat) :
    (r.transferWrite size off v).bytes.read a =
      if off + 8 ≤ size ∧ off ≤ a ∧ a < off + 8 then byteOf v (a - off) else r.bytes.read a := by
  by_cases hin : off + 8 ≤ size
  · rw [Ram.transferWrite_inside r hin, Memory.read_write64 h]
    simp only [hin, true_and]
  · rw [Ram.transferWrite_outside r (Nat.lt_of_not_le hin), if_neg fun hc => hin hc.1]

/-! ### Transactions with a RAM device -/

/-- Every cycle of a request that a device claims. -/
theorem Soc.served_of_cycle {p q : Soc} {e : DeviceEntry} (one : p.bus.read ≠ p.bus.write)
    (ht : p.target p.bus.address = some e) (h : p.cycle = .next q) : p.Served q := by
  obtain ⟨r, hr, hserved, -⟩ := Soc.cycle_served one ht
  cases hr.symm.trans h
  exact hserved

/-- A request to read a RAM device, some cycles later: memory is as it was, and once the transaction is done the value is
on the data lines, whether or not the device was busy. -/
structure Soc.Loading (p : Soc) (e : DeviceEntry) (q : Soc) : Prop where
  served : p.Served q
  kept : p.KeepsMemory q
  done : q.bus.wait = false → q.bus.data = p.ramValue e p.bus.address

/-- The cycle of the request, and every waiting cycle after it. -/
theorem Soc.loading_of_cycle {p m q : Soc} {e : DeviceEntry} (hr : p.bus.read = true) (hw : p.bus.write = false)
    (ht : p.target p.bus.address = some e) (hd : e.device = .ram ∨ e.device = .scratchRam) (hq : p.quiet)
    (hserved : p.Served m) (hkept : p.KeepsMemory m) (hc : m.cycle = .next q) : p.Loading e q := by
  have hread := hserved.read.trans hr
  have hwrite := hserved.write.trans hw
  have htarget : m.target m.bus.address = some e := by rw [hserved.address, hkept.calm.target, ht]
  have hserved' := Soc.served_of_cycle (by simp [hread, hwrite]) htarget hc
  obtain ⟨hcalm, hbytes, hdone⟩ := Soc.cycle_ramRead hread hwrite htarget hd (hkept.calm.quiet hq) hc
  refine ⟨hserved.trans hserved', hkept.trans ⟨hcalm, hbytes⟩, fun hclear => ?_⟩
  rw [(hdone hclear).1, hserved.address, hkept.ramValue]

/-- The bytes of a RAM device of kind `k` after a request to `e` to write was carried out. -/
def Soc.bytesWritten (p : Soc) (e : DeviceEntry) (k : DeviceKind) : Memory :=
  if k = e.device then ((p.ramOf k).transferWrite e.size (e.offset p.bus.address) p.bus.data).bytes
  else (p.ramOf k).bytes

/-- A request to write a RAM device, some cycles later: bytes change in the one cycle that ends the transaction. -/
structure Soc.Storing (p : Soc) (e : DeviceEntry) (q : Soc) : Prop where
  served : p.Served q
  calm : p.Calm q
  data : q.bus.data = p.bus.data
  waiting : q.bus.wait = true → ∀ k, (q.ramOf k).bytes = (p.ramOf k).bytes
  done : q.bus.wait = false → ∀ k ∈ [DeviceKind.ram, .scratchRam], (q.ramOf k).bytes = p.bytesWritten e k

/-- The cycle of the request, and every waiting cycle after it. -/
theorem Soc.storing_of_cycle {p m q : Soc} {e : DeviceEntry} (hr : p.bus.read = false) (hw : p.bus.write = true)
    (ht : p.target p.bus.address = some e) (hd : e.device = .ram ∨ e.device = .scratchRam) (hq : p.quiet)
    (hserved : p.Served m) (hkept : p.KeepsMemory m) (hdata : m.bus.data = p.bus.data) (hc : m.cycle = .next q) :
    p.Storing e q := by
  have hread := hserved.read.trans hr
  have hwrite := hserved.write.trans hw
  have htarget : m.target m.bus.address = some e := by rw [hserved.address, hkept.calm.target, ht]
  have hserved' := Soc.served_of_cycle (by simp [hread, hwrite]) htarget hc
  obtain ⟨hcalm, hlines, hwaiting, hdone⟩ :=
    Soc.cycle_ramWrite hread hwrite htarget hd (hkept.calm.quiet hq) hc
  refine ⟨hserved.trans hserved', hkept.calm.trans hcalm, hlines.trans hdata,
    fun hwait k => (hwaiting hwait k).trans (hkept.bytes k), fun hclear k hk => ?_⟩
  rw [hdone hclear k hk, hserved.address, hdata, Soc.bytesWritten]
  split
  · exact Ram.transferWrite_bytes_congr (hkept.bytes k) _ _ _
  · exact hkept.bytes k

/-! ## Requests (R126) -/

/-- The machine at the request of an LDR, after its two cycles with an idle bus (R120: D E). -/
abbrev State.loadRequested (s : State) (rn : RegIdx) (imm : Word) : Soc :=
  (Soc.afterTicks 2 s.soc).loadRequest (s.effectiveAddress rn imm)

/-- The machine at the request of an STR, after its two cycles with an idle bus. -/
abbrev State.storeRequested (s : State) (rd rn : RegIdx) (imm : Word) : Soc :=
  (Soc.afterTicks 2 s.soc).storeRequest (s.effectiveAddress rn imm) (s.cpu.reg rd)

theorem State.keepsMemory_loadRequested {s : State} (hq : s.soc.quiet) (rn : RegIdx) (imm : Word) :
    s.soc.KeepsMemory (s.loadRequested rn imm) :=
  ((Soc.KeepsMemory.refl s.soc).afterTicks hq 2).withBus _

theorem State.keepsMemory_storeRequested {s : State} (hq : s.soc.quiet) (rd rn : RegIdx) (imm : Word) :
    s.soc.KeepsMemory (s.storeRequested rd rn imm) :=
  ((Soc.KeepsMemory.refl s.soc).afterTicks hq 2).withBus _

/-- An LDR requests a read alone. -/
theorem State.loadRequested_write {s : State} (hi : s.soc.busIdle) (rn : RegIdx) (imm : Word) :
    (s.loadRequested rn imm).bus.write = false :=
  ((s.soc.afterTicks_ticks 2).busIdle hi).2

/-- An STR requests a write alone. -/
theorem State.storeRequested_read {s : State} (hi : s.soc.busIdle) (rd rn : RegIdx) (imm : Word) :
    (s.storeRequested rd rn imm).bus.read = false :=
  ((s.soc.afterTicks_ticks 2).busIdle hi).1

/-! ## Devices that answer at once (R45) -/

/-- Only a RAM device ever holds a transaction (R62). -/
theorem Soc.Requested.wait_clear {p : Soc} {e : DeviceEntry} (h : p.Requested e) (hram : e.device ≠ .ram)
    (hscratch : e.device ≠ .scratchRam) : p.bus.wait = false := by
  rw [← Bool.not_eq_true]
  intro hwait
  rcases (h.holds hwait).kind with hd | hd
  · exact hram hd
  · exact hscratch hd

/-- A load from such a device latches what the request cycle put on the data lines. -/
theorem load_device {s : State} (hi : s.soc.busIdle) (rd rn : RegIdx) (imm : Word) {e : DeviceEntry}
    (ht : s.soc.target (s.effectiveAddress rn imm) = some e) (hram : e.device ≠ .ram)
    (hscratch : e.device ≠ .scratchRam) :
    ∃ q, execLdr rd rn imm s = .next
        { cpu := { s.cpu with
            x := s.cpu.x.set rd q.bus.data
            pc := s.cpu.pc + 4
            stage := .fetch
            uop := 0
            opA := s.cpu.reg rn
            opB := imm
            aluResult := s.effectiveAddress rn imm
            memData := q.bus.data }
          soc := Soc.afterTicks 2 { q with bus := { q.bus with read := false } } } ∧
      (s.loadRequested rn imm).cycle = .next q := by
  obtain ⟨q, hexec, -, -, -, hcycle⟩ := load_claimed hi rd rn imm ht
    (fun q => (s.loadRequested rn imm).cycle = .next q) (fun _ hq => hq)
    (fun _ _ _ hr hwait _ => absurd hwait (by simp [hr.wait_clear hram hscratch]))
  exact ⟨q, hexec, hcycle⟩

/-- A store to such a device is over with the request cycle. -/
theorem store_device {s : State} (hi : s.soc.busIdle) (rd rn : RegIdx) (imm : Word) {e : DeviceEntry}
    (ht : s.soc.target (s.effectiveAddress rn imm) = some e) (hram : e.device ≠ .ram)
    (hscratch : e.device ≠ .scratchRam) :
    ∃ q, execStr rd rn imm s = .next
        { cpu := { s.cpu with
            pc := s.cpu.pc + 4
            stage := .fetch
            uop := 0
            opA := s.cpu.reg rn
            opB := imm
            aluResult := s.effectiveAddress rn imm }
          soc := Soc.afterTicks 2 { q with bus := { q.bus with write := false } } } ∧
      (s.storeRequested rd rn imm).cycle = .next q := by
  obtain ⟨q, hexec, -, -, -, hcycle⟩ := store_claimed hi rd rn imm ht
    (fun q => (s.storeRequested rd rn imm).cycle = .next q)
    (fun _ hq => hq) (fun _ _ _ hr hwait _ => absurd hwait (by simp [hr.wait_clear hram hscratch]))
  exact ⟨q, hexec, hcycle⟩

/-! ## The controller's registers (R271, R273, R274) -/

/-- R271's table: each register at its offset. -/
def Ctrl.table (c : Ctrl) (cap : BitVec 64) : List (Nat × BitVec 32) :=
  [ (0x00, cap.extractLsb' 0 32), (0x04, cap.extractLsb' 32 32), (0x08, 0x00010000), (0x0C, c.intms), (0x10, c.intmc),
    (0x14, c.cc), (0x1C, c.csts), (0x24, c.aqa), (0x28, c.asqLo), (0x2C, c.asqHi), (0x30, c.acqLo), (0x34, c.acqHi),
    (0x1000, c.sqTail), (0x1004, c.cqHead) ]

theorem lookup_cons_getD {α β : Type} [DecidableEq α] (a k : α) (v d : β) (rest : List (α × β)) :
    (((k, v) :: rest).lookup a).getD d = if a = k then v else (rest.lookup a).getD d := by
  rw [List.lookup_cons]
  split
  · next h => rw [if_pos (by simpa using h)]; rfl
  · next h => rw [if_neg (by simpa using h)]

theorem Ctrl.register_eq_table (c : Ctrl) (cap : BitVec 64) (off : Nat) :
    c.register cap off = ((c.table cap).lookup off).getD 0 := by
  simp only [Ctrl.table, lookup_cons_getD, List.lookup_nil, Option.getD_none]
  rfl

/-- The registers that a write changes and does nothing else by: all but CC, SQ0TDBL and the read-only ones. -/
def Ctrl.plainOffsets : List Nat := [0x0C, 0x10, 0x24, 0x28, 0x2C, 0x30, 0x34, 0x1004]

/-- A write elsewhere than to CC, SQ0TDBL or such a register is ignored (R273). -/
theorem Ctrl.store_ignored {off : Nat} (hcc : off ≠ 0x14) (htail : off ≠ 0x1000) (h : off ∉ Ctrl.plainOffsets)
    (c : Ctrl) (v : BitVec 32) : c.store off v = c := by
  simp only [Ctrl.plainOffsets, List.mem_cons, List.not_mem_nil, or_false, not_or] at h
  simp only [Ctrl.store, hcc, htail, h, if_false]

/-- A write to such a register is seen at its own offset alone. -/
theorem Ctrl.register_store_plain {off : Nat} (h : off ∈ Ctrl.plainOffsets) (c : Ctrl) (v : BitVec 32)
    (cap : BitVec 64) (o : Nat) :
    (c.store off v).register cap o = if o = off then v else c.register cap o := by
  simp only [Ctrl.plainOffsets, List.mem_cons, List.not_mem_nil, or_false] at h
  rcases h with rfl | rfl | rfl | rfl | rfl | rfl | rfl | rfl <;>
  · split
    · next ho => subst ho; rfl
    · next ho => simp [Ctrl.store, Ctrl.register, ho]

theorem Ctrl.register_store {off : Nat} (hcc : off ≠ 0x14) (htail : off ≠ 0x1000) (c : Ctrl) (v : BitVec 32)
    (cap : BitVec 64) (o : Nat) :
    (c.store off v).register cap o = if o = off ∧ off ∈ Ctrl.plainOffsets then v else c.register cap o := by
  by_cases h : off ∈ Ctrl.plainOffsets
  · simp only [Ctrl.register_store_plain h, h, and_true]
  · rw [Ctrl.store_ignored hcc htail h, if_neg fun hc => h hc.2]

/-- What a command in flight and the queue pointers rest on (R272). -/
structure Ctrl.SameCommand (c d : Ctrl) : Prop where
  csts : d.csts = c.csts
  sqTail : d.sqTail = c.sqTail
  sqHead : d.sqHead = c.sqHead
  cqTail : d.cqTail = c.cqTail
  pending : d.pending = c.pending
  busyTicks : d.busyTicks = c.busyTicks

theorem Ctrl.store_sameCommand {off : Nat} (hcc : off ≠ 0x14) (htail : off ≠ 0x1000) (c : Ctrl) (v : BitVec 32) :
    c.SameCommand (c.store off v) := by
  by_cases h : off ∈ Ctrl.plainOffsets
  · simp only [Ctrl.plainOffsets, List.mem_cons, List.not_mem_nil, or_false] at h
    rcases h with rfl | rfl | rfl | rfl | rfl | rfl | rfl | rfl <;> exact ⟨rfl, rfl, rfl, rfl, rfl, rfl⟩
  · rw [Ctrl.store_ignored hcc htail h]
    exact ⟨rfl, rfl, rfl, rfl, rfl, rfl⟩

/-- Setting Enable (R274). -/
theorem Ctrl.store_cc_enable {c : Ctrl} {v : BitVec 32} (hc : c.cc.getLsbD 0 = false) (hv : v.getLsbD 0 = true) :
    c.store 0x14 v = { c with cc := v, csts := c.csts ||| 1 } := by
  calc c.store 0x14 v
      = c.writeCc v := rfl
    _ = { c with cc := v, csts := setBit c.csts 0 } := by simp only [Ctrl.writeCc, checkBit, hc, hv]; rfl
    _ = _ := rfl

/-- Clearing Enable (R274, D29). -/
theorem Ctrl.store_cc_disable {c : Ctrl} {v : BitVec 32} (hc : c.cc.getLsbD 0 = true) (hv : v.getLsbD 0 = false) :
    c.store 0x14 v = { c with cc := v, csts := c.csts &&& ~~~1, sqHead := 0, cqTail := 0 } := by
  calc c.store 0x14 v
      = c.writeCc v := rfl
    _ = { c with cc := v, csts := clearBit c.csts 0, sqHead := 0, cqTail := 0 } := by
      simp only [Ctrl.writeCc, checkBit, hc, hv]; rfl
    _ = _ := rfl

/-- Clearing Enable leaves CSTS not Ready (R274). -/
theorem ready_of_enable_cleared (csts : BitVec 32) : checkBit (csts &&& ~~~1) 0 = false := by
  have hmask : csts &&& ~~~1 = clearBit csts 0 := rfl
  rw [hmask]
  exact checkBit_clearBit_self csts (by decide)

/-- Leaving Enable as it is (R274). -/
theorem Ctrl.store_cc_keep {c : Ctrl} {v : BitVec 32} (h : c.cc.getLsbD 0 = v.getLsbD 0) :
    c.store 0x14 v = { c with cc := v } := by
  calc c.store 0x14 v
      = c.writeCc v := rfl
    _ = { c with cc := v } := by
      cases hv : v.getLsbD 0 <;> simp only [Ctrl.writeCc, checkBit, h, hv] <;> rfl

/-- A write after which the controller has nothing to do fetches no command (R276, D25). -/
theorem Soc.controllerWrite_of_quiet {p : Soc} {off : Nat} {v : Word}
    (h : Soc.quiet { p with ctrl := p.ctrl.store off (v.extractLsb' 0 32) }) :
    p.controllerWrite off v = { p with ctrl := p.ctrl.store off (v.extractLsb' 0 32) } := by
  obtain ⟨-, hidle⟩ := h
  unfold Soc.controllerWrite Soc.ringSubmission
  dsimp only at hidle ⊢
  split
  · rcases hidle with hready | htail
    · rw [hready]; rfl
    · simp [htail]
  · rfl

/-- The machine after such a write and the device ticks of its cycle differs by the register alone. -/
theorem Soc.keepsMemory_controllerWrite {p : Soc} {off : Nat} {v : Word}
    (h : Soc.quiet { p with ctrl := p.ctrl.store off (v.extractLsb' 0 32) }) :
    Soc.KeepsMemory { p with ctrl := p.ctrl.store off (v.extractLsb' 0 32) } (Soc.deviceTicks
      { p.controllerWrite off v with bus := { (p.controllerWrite off v).bus with wait := false } }) := by
  rw [Soc.controllerWrite_of_quiet h]
  exact ((Soc.KeepsMemory.refl _).withBus _).deviceTicks h

/-! ### A cycle with a request to the controller -/

/-- A read puts the register at the address's offset on the data lines, and changes nothing else but the bus (R273). -/
theorem Soc.cycle_controllerRead {p q : Soc} {e : DeviceEntry} (hr : p.bus.read = true) (hw : p.bus.write = false)
    (ht : p.target p.bus.address = some e) (hd : e.device = .controller) (hq : p.quiet) (h : p.cycle = .next q) :
    p.KeepsMemory q ∧ q.bus.data = p.ctrl.read p.cfg.cap (e.offset p.bus.address) := by
  rw [Soc.cycle_deviceRead hr hw ht (by simp [hd]) (by simp [hd])] at h
  simp only [Soc.transferRead, hd] at h
  cases h
  have answered : p.KeepsMemory { p.countRead with bus := { p.countRead.bus with
      data := p.countRead.ctrl.read p.countRead.cfg.cap (e.offset p.bus.address), wait := false } } :=
    (Soc.KeepsMemory.refl p).withBus _
  exact ⟨answered.deviceTicks hq, by rw [(Soc.deviceTicks_quiet (answered.calm.quiet hq)).bus]; rfl⟩

/-- A write is the write handler's work in the bus tick, and the device ticks after it (R273). -/
theorem Soc.cycle_controllerWrite {p : Soc} {e : DeviceEntry} (hr : p.bus.read = false) (hw : p.bus.write = true)
    (ht : p.target p.bus.address = some e) (hd : e.device = .controller) :
    p.cycle = .next (Soc.deviceTicks
      { p.countWrite.controllerWrite (e.offset p.bus.address) p.bus.data with
        bus := { (p.countWrite.controllerWrite (e.offset p.bus.address) p.bus.data).bus with wait := false } }) := by
  rw [Soc.cycle_deviceWrite hr hw ht (by simp [hd]) (by simp [hd])]
  simp only [Soc.transferWrite, hd]

/-! ## The statements -/

/-- Settles O19: `load_claimed` and `store_claimed`, which ask nothing of what the devices do. -/
theorem memoryAccessCompletes : Obligations.MemoryAccessCompletes := by
  intro s rd rn rm imm e hi ht
  constructor
  · obtain ⟨q, hexec, hclear, -, hserved, -⟩ :=
      load_claimed hi rd rn imm ht (fun _ => True) (fun _ _ => trivial) (fun _ _ _ _ _ _ => trivial)
    have after := Soc.afterTicks_ticks 2 { q with bus := { q.bus with read := false } }
    exact ⟨_, q.bus.data, hexec, after.busIdle ⟨rfl, hserved.write.trans (State.loadRequested_write hi rn imm)⟩,
      after.wait.trans hclear, rfl⟩
  · obtain ⟨q, hexec, hclear, -, hserved, -⟩ :=
      store_claimed hi rd rn imm ht (fun _ => True) (fun _ _ => trivial) (fun _ _ _ _ _ _ => trivial)
    have after := Soc.afterTicks_ticks 2 { q with bus := { q.bus with write := false } }
    exact ⟨_, hexec, after.busIdle ⟨hserved.read.trans (State.storeRequested_read hi rd rn imm), rfl⟩,
      after.wait.trans hclear, rfl⟩

/-- Settles O20: the value latched is `Soc.ramValue` of the request, and nothing else of memory moves in any cycle. -/
theorem loadFromRam : Obligations.LoadFromRam := by
  intro s rd rn rm imm e hi hq ht hd off v
  have request := State.keepsMemory_loadRequested hq rn imm
  have hcycle (m q : Soc) : (s.loadRequested rn imm).Served m → (s.loadRequested rn imm).KeepsMemory m →
      m.cycle = .next q → (s.loadRequested rn imm).Loading e q :=
    Soc.loading_of_cycle rfl (State.loadRequested_write hi rn imm) ((request.calm.target _).trans ht) (by simpa using hd)
      (request.calm.quiet hq)
  obtain ⟨q, hexec, hclear, -, -, hload⟩ := load_claimed hi rd rn imm ht (Soc.Loading (s.loadRequested rn imm) e)
    (fun _ => hcycle _ _ (.refl _) (.refl _)) (fun _ _ hm _ _ => hcycle _ _ hm.served hm.kept)
  have hdata : q.bus.data = v := by
    rw [hload.done hclear, request.ramValue, Soc.ramValue_eq]
    rfl
  have after := ((request.trans hload.kept).withBus { q.bus with read := false }).afterTicks hq 2
  exact ⟨_, hexec, by rw [hdata], fun _ => by rw [after.ramBytes], fun _ => by rw [after.scratchBytes],
    after.calm.ctrl, after.calm.storage, after.calm.cfg⟩

/-- Settles O21: the bytes move in the cycle that ends the transaction, and in no other. -/
theorem storeToRam : Obligations.StoreToRam := by
  intro s rd rn rm imm e hi hq ht hd hwf off
  have request := State.keepsMemory_storeRequested hq rd rn imm
  have hcycle (m q : Soc) : (s.storeRequested rd rn imm).Served m → (s.storeRequested rd rn imm).KeepsMemory m →
      m.bus.data = s.cpu.reg rd → m.cycle = .next q → (s.storeRequested rd rn imm).Storing e q :=
    Soc.storing_of_cycle (State.storeRequested_read hi rd rn imm) rfl ((request.calm.target _).trans ht)
      (by simpa using hd) (request.calm.quiet hq)
  obtain ⟨q, hexec, hclear, -, -, hstore⟩ := store_claimed hi rd rn imm ht
    (Soc.Storing (s.storeRequested rd rn imm) e) (fun _ => hcycle _ _ (.refl _) (.refl _) rfl)
    (fun _ _ hm _ hwait => hcycle _ _ hm.served ⟨hm.calm, hm.waiting hwait⟩ hm.data)
  have hcalm := request.calm.trans hstore.calm
  have after := ((Soc.KeepsMemory.refl q).withBus { q.bus with write := false }).afterTicks (hcalm.quiet hq) 2
  have calm := hcalm.trans after.calm
  refine ⟨_, hexec, rfl, fun k hk a => ?_, calm.ctrl, calm.storage, calm.cfg⟩
  rw [after.bytes, hstore.done hclear k hk, Soc.bytesWritten]
  by_cases hke : k = e.device
  · subst hke
    rw [if_pos rfl, Ram.transferWrite_bytes_congr (request.bytes _), Ram.read_transferWrite hwf]
    simp only [true_and]
    rfl
  · rw [if_neg hke, request.bytes, if_neg fun hc => hke hc.1]

/-- Settles O22: the one cycle of the request reads the register, and no tick around it changes anything. -/
theorem loadFromController : Obligations.LoadFromController := by
  intro s rd rn rm imm e hi hq ht hd c registers v
  have request := State.keepsMemory_loadRequested hq rn imm
  obtain ⟨q, hexec, hcycle⟩ := load_device hi rd rn imm ht (by simp [hd]) (by simp [hd])
  obtain ⟨hread, hdata⟩ := Soc.cycle_controllerRead rfl (State.loadRequested_write hi rn imm)
    ((request.calm.target _).trans ht) hd (request.calm.quiet hq) hcycle
  have hvalue : q.bus.data = v := by
    rw [hdata, request.calm.ctrl, request.calm.cfg, Ctrl.read, Ctrl.register_eq_table]
    rfl
  have after := ((request.trans hread).withBus { q.bus with read := false }).afterTicks hq 2
  exact ⟨_, hexec, by rw [hvalue], after.calm.ctrl, after.ramBytes, after.scratchBytes, after.calm.storage⟩

/-- Settles O23: the register written is all that differs, once the controller has nothing to do after the write. -/
theorem storeToController : Obligations.StoreToController := by
  intro s rd rn rm imm e hi hq ht hd off v c idle request written ticked
  have hrequest : s.soc.KeepsMemory request := (State.keepsMemory_storeRequested hq rd rn imm).withBus _
  obtain ⟨q, hexec, hcycle⟩ := store_device hi rd rn imm ht (by simp [hd]) (by simp [hd])
  rw [Soc.cycle_controllerWrite (State.storeRequested_read hi rd rn imm) rfl ((hrequest.calm.target _).trans ht) hd]
    at hcycle
  have hticked : q = ticked := (Host.Outcome.next.inj hcycle).symm
  rw [hticked] at hexec
  refine ⟨_, hexec, rfl, rfl, ?_⟩
  generalize hsoc : Soc.afterTicks 2 { ticked with bus := { ticked.bus with write := false } } = soc
  intro kept
  have stored (d : Ctrl) (hstore : c.store off v = d)
      (hquiet : d.pending.valid = false ∧ (d.ready = false ∨ d.sqTail = d.sqHead)) : soc.ctrl = d ∧ kept := by
    have hd : request.ctrl.store off v = d := by rw [hrequest.calm.ctrl]; exact hstore
    have hquiet : Soc.quiet { request with ctrl := request.ctrl.store off v } := by rw [hd]; exact hquiet
    have after :=
      ((Soc.keepsMemory_controllerWrite hquiet).withBus { ticked.bus with write := false }).afterTicks hquiet 2
    rw [← hd]
    subst hsoc
    exact ⟨after.calm.ctrl, after.ramBytes.trans hrequest.ramBytes, after.scratchBytes.trans hrequest.scratchBytes,
      after.calm.storage.trans hrequest.calm.storage⟩
  have hoffset {k : Nat} (hk : off = k) : c.store off v = c.store k v := congrArg (c.store · v) hk
  obtain ⟨hpending, hidle⟩ := hq
  refine ⟨fun hcc htail => ?_, fun hoff => ⟨fun hc hv hqueue => ?_, fun hc hv => ?_, fun hkeep => ?_⟩,
    fun hoff hguard => ?_⟩
  · have same := Ctrl.store_sameCommand hcc htail c v
    obtain ⟨hctrl, hkept⟩ := stored _ rfl (by
      rw [same.pending, same.sqTail, same.sqHead, Ctrl.ready, same.csts]; exact ⟨hpending, hidle⟩)
    rw [hctrl]
    exact ⟨Ctrl.register_store hcc htail c v _, same.sqHead, same.cqTail, same.pending, same.busyTicks, hkept⟩
  · exact stored _ ((hoffset hoff).trans (Ctrl.store_cc_enable hc hv)) ⟨hpending, .inr hqueue⟩
  · exact stored _ ((hoffset hoff).trans (Ctrl.store_cc_disable hc hv))
      ⟨hpending, .inl (ready_of_enable_cleared c.csts)⟩
  · exact stored _ ((hoffset hoff).trans (Ctrl.store_cc_keep hkeep)) ⟨hpending, hidle⟩
  · exact stored { c with sqTail := v } (hoffset hoff) ⟨hpending, hguard⟩

end Sys2Proof.Machine
end

section
/-! PROOFS. MOV and the branches (43_move_branch.md): ADD of zero and an immediate that the 11-bit field can hold, and
the two ways a branch ends on an idle bus. -/

namespace Sys2Proof.Machine

/-! ## MOV (R190) -/

/-- Adding a word to zero gives the word, and neither carries nor overflows. -/
theorem alu_add_zero_left (b : Word) (flags : Flags) :
    alu .add 0 b flags = (b, { z := decide (b = 0), n := b.getLsbD 63, c := false, v := false }) := by
  have carry : AluOp.add.carry 0 b flags.c = false := by
    have zero : (0 : Word).toNat = 0 := rfl
    rw [carry_add, zero, Nat.zero_add]
    exact decide_eq_false b.isLt.not_ge
  have overflow : AluOp.add.overflow 0 b = false := by
    have zero : (0 : Word).toInt = 0 := rfl
    rw [overflow_add, zero, Int.zero_add]
    exact decide_eq_false (not_or.mpr ⟨b.le_toInt.not_gt, b.toInt_lt.not_ge⟩)
  exact alu_eq (BitVec.zero_add b) carry overflow

/-- An immediate that MOV's field can hold is a zero extension (R94), so it is not negative as a word. -/
theorem sign_clear_of_immediate_holds {imm : Word} (h : Shape.immediate.holds imm = true) :
    imm.getLsbD 63 = false := by
  have himm : imm = (imm.setWidth 11).setWidth 64 := beq_iff_eq.mp h
  rw [himm, BitVec.getLsbD_setWidth, BitVec.getLsbD_of_ge _ 63 (by decide), Bool.and_false]

/-- MOV's next state, from what the ALU answers for ADD(0, imm) (R125, D12). -/
theorem execMov_of_alu {s : State} (h : s.soc.busIdle) (rd rn : RegIdx) {imm r : Word} {flags : Flags}
    (ha : alu .add 0 imm s.cpu.flags = (r, flags)) :
    execMov rd rn imm s = .next
      { cpu := { s.cpu with
          x := s.cpu.x.set rd r
          pc := s.cpu.pc + 4
          flags := flags
          stage := .fetch
          uop := 0
          opA := 0
          opB := imm
          aluResult := r }
        soc := s.soc.afterTicks 3 } := by
  obtain ⟨rfl, rfl⟩ := Prod.ext_iff.mp ha
  obtain ⟨t, ht, rfl⟩ := threeCycles_idle h (d := fun s => s.readImmediateOperands rn imm)
    (e := State.executeMov) (w := fun s => s.writeBackResult rd) (fun _ => rfl) (fun _ => rfl) (fun _ => rfl)
  exact ht

/-- Settles O14: ADD(0, imm) answers the immediate, and N is clear because the field is zero-extended. -/
theorem moveResult : Obligations.MoveResult := by
  intro s rd rn rm imm h hwf
  have sign : imm.getLsbD 63 = false := sign_clear_of_immediate_holds hwf
  have answer := alu_add_zero_left imm s.cpu.flags
  rw [sign] at answer
  exact execMov_of_alu h rd rn answer

/-! ## B, BEQ and BNE (R191 to R194) -/

/-- Settles O17: each branch's condition holds where its flag says so, and a taken branch ends in Execute. (The name
`branchTaken` is the condition's.) -/
theorem branchTaken_holds : Obligations.BranchTaken := by
  intro s rd rn rm imm h taken
  refine ⟨?b, fun hz => ?beq, fun hz => ?bne⟩
  case b => exact branchInstruction_taken h imm (taken := fun _ => true) rfl
  case beq => exact branchInstruction_taken h imm (taken := fun flags => flags.z) hz
  case bne => exact branchInstruction_taken h imm (taken := fun flags => !flags.z) (congrArg not hz)

/-- Settles O18: each condition fails where its flag says so, and a branch not taken goes through WriteBack. -/
theorem branchNotTaken : Obligations.BranchNotTaken := by
  intro s rd rn rm imm h fallsThrough
  refine ⟨fun hz => ?beq, fun hz => ?bne⟩
  case beq => exact branchInstruction_not_taken h imm (taken := fun flags => flags.z) hz
  case bne => exact branchInstruction_not_taken h imm (taken := fun flags => !flags.z) (congrArg not hz)

end Sys2Proof.Machine
end

section
/-! PROOFS. NOP and HALT (44_system.md): three cycles that write the stale latch, and two that end in Execute. -/

namespace Sys2Proof.Machine

/-- NOP on an idle bus (R200): Execute leaves `alu_result` alone, so WriteBack writes what was latched before (D32). -/
theorem execNop_idle {s : State} (h : s.soc.busIdle) (rd rn rm : RegIdx) :
    execNop rd rn rm s = .next
      { cpu := { s.cpu with
          x := s.cpu.x.set rd s.cpu.aluResult
          pc := s.cpu.pc + 4
          stage := .fetch
          uop := 0
          opA := s.cpu.reg rn
          opB := s.cpu.reg rm }
        soc := s.soc.afterTicks 3 } := by
  obtain ⟨t, ht, rfl⟩ := threeCycles_idle h (d := fun s => s.readRegisterOperands rn rm)
    (e := State.executeNop) (w := fun s => s.writeBackResult rd) (fun _ => rfl) (fun _ => rfl) (fun _ => rfl)
  exact ht

/-- HALT on an idle bus (R201): the second cycle is the last, so the stage stays Execute and nothing retires (D13). -/
theorem execHalt_idle {s : State} (h : s.soc.busIdle) (rn rm : RegIdx) :
    execHalt rn rm s = .next
      { cpu := { s.cpu with
          halted := true
          stage := .execute
          opA := s.cpu.reg rn
          opB := s.cpu.reg rm }
        soc := s.soc.afterTicks 2 } := by
  have afterDecode : s.soc.deviceTicks.busIdle := s.soc.deviceTicks_ticks.busIdle h
  unfold execHalt
  rw [finishCycle_idle (by rw [readRegisterOperands_soc]; exact h), andThen_next,
    finishCycle_idle (by rw [executeHalt_soc]; exact afterDecode)]
  rfl

/-- Settles O15: NOP's next state is the one its three cycles leave, for any operand fields. -/
theorem nopResult : Obligations.NopResult := fun _ rd rn rm _ h => execNop_idle h rd rn rm

/-- Settles O16: HALT's next state is the one its two cycles leave, for any operand fields. -/
theorem haltResult : Obligations.HaltResult := fun _ _ rn rm _ h => execHalt_idle h rn rm

end Sys2Proof.Machine
end

section
/-! PROOFS. The NAND cell model (45_nand.md): what Program makes of the bytes of an area, the page that each operation
leaves, and the laws of R216 and R217. -/

namespace Sys2Proof.Machine

/-! ## The bytes of an area (R214) -/

/-- On areas of one length the check of Program asks that the AND be the incoming bytes. -/
theorem programmable_iff_programBytes {existing incoming : List Byte} (h : existing.length = incoming.length) :
    programmable existing incoming = true ↔ programBytes existing incoming = incoming := by
  induction existing generalizing incoming with
  | nil =>
    obtain rfl := List.length_eq_zero_iff.mp h.symm
    exact iff_of_true rfl rfl
  | cons e rest ih =>
    cases incoming with
    | nil => simp at h
    | cons i incoming =>
      have tail := ih (Nat.succ.inj h)
      simp only [programmable, programBytes] at tail
      simp only [programmable, programBytes, List.zip_cons_cons, List.all_cons, List.zipWith_cons_cons, Bool.and_eq_true,
        beq_iff_eq, List.cons.injEq, tail]

/-- An area of 0xFF takes any bytes as they are. -/
theorem programBytes_erased (incoming : List Byte) :
    programBytes (List.replicate incoming.length 0xFF) incoming = incoming := by
  induction incoming with
  | nil => rfl
  | cons i rest ih => exact congrArg₂ List.cons BitVec.allOnes_and ih

/-- No bit of an area went from 0 to 1 (R216). -/
def bitsOnlyClear (before after : List Byte) : Prop :=
  ∀ k, after.getD k 0 &&& before.getD k 0 = after.getD k 0

theorem bitsOnlyClear_refl (area : List Byte) : bitsOnlyClear area area := fun _ => BitVec.and_self

/-- Program's AND only clears bits, whatever comes in. -/
theorem bitsOnlyClear_programBytes (existing incoming : List Byte) :
    bitsOnlyClear existing (programBytes existing incoming) := by
  intro k
  induction existing generalizing incoming k with
  | nil => exact BitVec.and_zero
  | cons e rest ih =>
    cases incoming with
    | nil => exact BitVec.zero_and
    | cons i incoming =>
      cases k with
      | zero =>
        show e &&& i &&& e = e &&& i
        rw [BitVec.and_comm, ← BitVec.and_assoc, BitVec.and_self]
      | succ k => exact ih incoming k

/-! ## Program (R214, R216) -/

theorem pageNumber_inj {b c p q : Nat} (hp : p < 64) (hq : q < 64) : pageNumber c q = pageNumber b p ↔ c = b ∧ q = p := by
  simp only [pageNumber, Config.pagesPerBlock]
  omega

/-- A page after a write of one page. -/
theorem Nand.page_write {n : Nand} (hn : Nand.wf n) {b c p q : Nat} (hp : p < 64) (hq : q < 64) (g : Page) :
    ({ n with pages := Sparse.write Page.erased n.pages (pageNumber b p) g } : Nand).page c q =
      if c = b ∧ q = p then g else n.page c q := by
  refine (Sparse.read_write hn.1 _ _ _).trans ?_
  simp only [pageNumber_inj hp hq]
  rfl

/-- A Program that does not succeed leaves the chip as it was. -/
theorem Nand.program_failed {n : Nand} {b p : Nat} {x : List Byte} {oob : Option (List Byte)}
    (h : (n.program b p x oob).1 ≠ .success) : (n.program b p x oob).2 = n := by
  rcases n.program_cases b p x oob with ⟨-, same⟩ | ⟨g, hprog, -⟩
  · exact same
  · exact absurd (congrArg Prod.fst hprog) h

/-- A page after any Program: as before, or the page named, in which bits only cleared. -/
theorem Nand.page_program {n : Nand} (hn : Nand.wf n) (b p : Nat) (x : List Byte) (oob : Option (List Byte)) (c : Nat)
    {q : Nat} (hq : q < 64) :
    (n.program b p x oob).2.page c q = n.page c q ∨
    (c = b ∧ q = p) ∧ bitsOnlyClear (n.page c q).data ((n.program b p x oob).2.page c q).data ∧
      bitsOnlyClear (n.page c q).oob ((n.program b p x oob).2.page c q).oob := by
  rcases n.program_cases b p x oob with ⟨-, same⟩ | ⟨g, hprog, -, hp, -, -, hdata, hoob⟩
  · exact .inl (by rw [same])
  · rw [hprog, Nand.page_write hn hp hq]
    split
    · next named =>
      obtain ⟨rfl, rfl⟩ := named
      refine .inr ⟨⟨rfl, rfl⟩, ?_, ?_⟩
      · rw [hdata]
        exact bitsOnlyClear_programBytes _ _
      · cases oob with
        | none =>
          rw [show g.oob = _ from hoob]
          exact bitsOnlyClear_refl _
        | some bytes =>
          obtain ⟨-, -, hoob⟩ := hoob
          rw [hoob]
          exact bitsOnlyClear_programBytes _ _
    · exact .inl rfl

/-! ## Program and Read of the data area (R214, R215, R217) -/

/-- The arguments pass the checks of address and size that Program makes first (R212), on a well-formed chip. -/
structure Nand.InRange (n : Nand) (b p : Nat) (x : List Byte) : Prop where
  wf : Nand.wf n
  block : b < n.blockCount
  page : p < 64
  length : x.length = 4096

theorem Nand.InRange.programmable_iff {n : Nand} {b p : Nat} {x : List Byte} (h : n.InRange b p x) :
    programmable (n.page b p).data x = true ↔ programBytes (n.page b p).data x = x :=
  programmable_iff_programBytes ((Nand.page_sized h.wf b p).1.trans h.length.symm)

/-- Program succeeds iff the AND is what came in. -/
theorem Nand.InRange.success_iff {n : Nand} {b p : Nat} {x : List Byte} (h : n.InRange b p x) :
    (n.program b p x none).1 = .success ↔ programBytes (n.page b p).data x = x := by
  refine ⟨fun success => ?_, fun fits => ?_⟩
  · rcases n.program_cases b p x none with ⟨failed, -⟩ | ⟨-, -, -, -, -, fits, -⟩
    · exact absurd success failed
    · exact h.programmable_iff.mp fits
  · rw [Nand.program_success h.block h.page h.length (h.programmable_iff.mpr fits)]

/-- The data of the page after a Program that succeeds. -/
theorem Nand.InRange.page_data {n : Nand} {b p : Nat} {x : List Byte} (h : n.InRange b p x)
    (success : (n.program b p x none).1 = .success) :
    ((n.program b p x none).2.page b p).data = programBytes (n.page b p).data x := by
  have fits := h.programmable_iff.mpr (h.success_iff.mp success)
  rw [Nand.page_program_success h.wf h.block h.page h.length fits]

/-- After any Program, another of the same page is in range. -/
theorem Nand.InRange.again {n : Nand} {b p : Nat} {x y : List Byte} (h : n.InRange b p x) (hy : y.length = 4096) :
    (n.program b p x none).2.InRange b p y where
  wf := Nand.wf_program h.wf b p x none
  block := by rw [Nand.program_blockCount]; exact h.block
  page := h.page
  length := hy

/-- Read of a page of the chip into a buffer of its size gives the page's data. -/
theorem Nand.read_data {n : Nand} {b p : Nat} (hb : b < n.blockCount) (hp : p < 64) :
    (n.read b p 4096 none).data = (n.page b p).data := by
  have inRange : ¬ (n.blockCount ≤ b ∨ Config.pagesPerBlock ≤ p) := by simp only [Config.pagesPerBlock]; omega
  simp only [Nand.read, if_neg inRange, Config.pageSize, ne_eq, not_true_eq_false, if_false]

/-- Read after a Program that succeeds gives the AND. -/
theorem Nand.InRange.read_data {n : Nand} {b p : Nat} {x : List Byte} (h : n.InRange b p x)
    (success : (n.program b p x none).1 = .success) :
    ((n.program b p x none).2.read b p 4096 none).data = programBytes (n.page b p).data x := by
  have after := h.again h.length
  rw [Nand.read_data after.block after.page, h.page_data success]

/-! ## Erase (R213, R217) -/

theorem Page.erased_bytes : ∀ byte ∈ Page.erased.data ++ Page.erased.oob, byte = 0xFF := by
  intro byte h
  rcases List.mem_append.mp h with h | h <;> exact List.eq_of_mem_replicate h

/-- Erase counts itself on its block. -/
theorem Nand.erase_eraseCount {n : Nand} {b : Nat} (hb : b < n.blockCount) :
    (n.erase b).2.eraseCount b = n.eraseCount b + 1 := by
  have hlen : b < n.blocks.length := hb
  simp only [Nand.erase, if_neg hb.not_ge, Nand.eraseCount, List.getD_eq_getElem?_getD, List.getElem?_modify_eq,
    List.getElem?_eq_getElem hlen, Option.map_eq_map, Option.map_some, Option.getD_some]

/-! ## The obligations -/

/-- Settles O46: Program answers by the AND, of 0xFF and X the first time and of X and Y the second. -/
theorem nandLaws : Obligations.NandLaws := by
  intro n b p x y hn hb hp hx hy
  have first : n.InRange b p x := ⟨hn, hb, hp, hx⟩
  refine ⟨fun erased => ?_, fun q hq => ?_, Nand.erase_eraseCount hb⟩
  · have hand : programBytes (n.page b p).data x = x := by
      rw [erased, Page.erased, show Config.pageSize = x.length from hx.symm]
      exact programBytes_erased x
    have success := first.success_iff.mpr hand
    have hdata : ((n.program b p x none).2.page b p).data = x := (first.page_data success).trans hand
    have second := first.again hy
    refine ⟨success, (first.read_data success).trans hand, ?_, fun success => ?_⟩
    · rw [second.success_iff, hdata]
      rfl
    · rw [second.read_data success, hdata]
      rfl
  · rw [Nand.erase_page hb b hq, if_pos rfl]
    exact Page.erased_bytes

/-- Settles O47: a page after Program is as before, or it is the page named and its bits only cleared. -/
theorem cellBits : Obligations.CellBits := by
  intro n b p x oob hn m
  refine ⟨Nand.program_failed, fun c q k hq => ?_, fun c q hq _ other => ?_, fun hb c q hq => Nand.erase_page hb c hq⟩
  · rcases Nand.page_program hn b p x oob c hq with same | ⟨-, data, oobBytes⟩
    · rw [show m.page c q = n.page c q from same]
      exact ⟨bitsOnlyClear_refl _ k, bitsOnlyClear_refl _ k⟩
    · exact ⟨data k, oobBytes k⟩
  · rcases Nand.page_program hn b p x oob c hq with same | ⟨named, -⟩
    · exact same
    · exact absurd named other

end Sys2Proof.Machine
end

section
/-! PROOFS. The FTL's Write, Read and GarbageCollect (46_ftl.md) over one page of the chip: what a Program that
succeeds leaves, what steps 4 and 5 of Write make of it, which block garbage collection takes, and that only its erase
touches the block table of the chip. -/

namespace Sys2Proof.Machine

/-! ## Program with an OOB record, and Read (R214, R215) -/

/-- A Program with OOB data that succeeds was in range and leaves the incoming bytes in its page, whatever the page
held: the check of R214 asks that the AND be the incoming bytes. -/
theorem Nand.program_oob_success {n m : Nand} (hn : Nand.wf n) {b p : Nat} {x oob : List Byte}
    (h : n.program b p x (some oob) = (.success, m)) :
    b < n.blockCount ∧ p < 64 ∧ ∀ c q, q < 64 → m.page c q = if c = b ∧ q = p then ⟨x, oob⟩ else n.page c q := by
  rcases n.program_cases b p x (some oob) with ⟨failed, -⟩ | ⟨g, hprog, hb, hp, hx, fitsX, hdata, hoob, fitsOob, hg⟩
  · exact absurd (congrArg Prod.fst h) failed
  · obtain ⟨sizedX, sizedOob⟩ := Nand.page_sized hn b p
    have contents : g = ⟨x, oob⟩ := by
      rw [programmable_iff_programBytes (sizedX.trans hx.symm)] at fitsX
      rw [programmable_iff_programBytes (sizedOob.trans hoob.symm)] at fitsOob
      obtain ⟨data, oobBytes⟩ := g
      exact congrArg₂ Page.mk (hdata.trans fitsX) (hg.trans fitsOob)
    have hm : m = { n with pages := Sparse.write Page.erased n.pages (pageNumber b p) g } := by
      rw [hprog] at h
      exact (congrArg Prod.snd h).symm
    exact ⟨hb, hp, fun c q hq => by rw [hm, Nand.page_write hn hp hq, contents]⟩

/-- An erased page takes any data and any OOB area of the right sizes. -/
theorem Nand.program_erased {n : Nand} {b p : Nat} {x oob : List Byte} (hb : b < n.blockCount) (hp : p < 64)
    (hx : x.length = 4096) (hoob : oob.length = 64) (erased : n.page b p = Page.erased) :
    (n.program b p x (some oob)).1 = .success := by
  have fits : ∀ bytes : List Byte, programmable (List.replicate bytes.length 0xFF) bytes = true := fun bytes =>
    (programmable_iff_programBytes List.length_replicate).mpr (programBytes_erased bytes)
  have fitsX := fits x
  have fitsOob := fits oob
  have inRange : ¬ (n.blockCount ≤ b ∨ Config.pagesPerBlock ≤ p) := by simp only [Config.pagesPerBlock]; omega
  rw [hx] at fitsX
  rw [hoob] at fitsOob
  simp only [Nand.program, if_neg inRange, erased, Page.erased, hx, hoob, fitsX, fitsOob, Config.pageSize,
    Config.oobSize, ne_eq, not_true_eq_false, if_false, Bool.and_self, if_true]

/-- Read of a page of the chip succeeds and gives its data. -/
theorem Nand.read_inRange {n : Nand} {b p : Nat} (hb : b < n.blockCount) (hp : p < 64) :
    n.read b p 4096 none = ⟨.success, (n.page b p).data, none⟩ := by
  have inRange : ¬ (n.blockCount ≤ b ∨ Config.pagesPerBlock ≤ p) := by simp only [Config.pagesPerBlock]; omega
  simp only [Nand.read, if_neg inRange, Config.pageSize, ne_eq, not_true_eq_false, if_false]

/-! ## Steps 4 and 5 of Write, and Read of a mapped LBA (R234, R235) -/

/-- The chip after steps 4 and 5 of Write is what its Program leaves, succeed or fail. -/
theorem Storage.programAt_nand (st : Storage) (c : Cursor) (lba : BitVec 32) (buf : List Byte) :
    (st.programAt c lba buf).2.nand = (st.nand.program c.block c.next buf (some (oobRecord lba))).2 := by
  unfold Storage.programAt
  split <;> next h => rw [h]

/-- They answer what Program answers. -/
theorem Storage.programAt_status (st : Storage) (c : Cursor) (lba : BitVec 32) (buf : List Byte) :
    (st.programAt c lba buf).1 = (st.nand.program c.block c.next buf (some (oobRecord lba))).1 := by
  unfold Storage.programAt
  split <;> next h => rw [h]

/-- What they leave where they succeed: the program, the LBA mapped to the cursor's page, the cursor moved on. -/
theorem Storage.programAt_success {st st' : Storage} {c : Cursor} {lba : BitVec 32} {buf : List Byte}
    (h : st.programAt c lba buf = (.success, st')) :
    st.nand.program c.block c.next buf (some (oobRecord lba)) = (.success, st'.nand) ∧
      st'.ftl.l2p = (st.ftl.map lba (pbaOf c.block c.next)).l2p ∧ st'.ftl.active = c.advance ∧
      st'.ftl.freeList = st.ftl.freeList := by
  unfold Storage.programAt at h
  split at h
  · next nand program =>
    cases h
    refine ⟨program, ?_⟩
    dsimp only
    split <;> next advance => exact ⟨rfl, advance.symm, rfl⟩
  · next _ _ failed _ => exact absurd (congrArg Prod.fst h) failed

/-- A lookup after a mapping. -/
theorem Ftl.lookup_map {f g : Ftl} {lba pba : BitVec 32} (hf : Sparse.wf none f.l2p) (hg : g.l2p = (f.map lba pba).l2p)
    (other : BitVec 32) : g.lookup other = if other = lba then some pba else f.lookup other := by
  rw [Ftl.lookup, hg, Ftl.map_l2p, Sparse.read_write hf]
  simp only [BitVec.toNat_inj]
  rfl

theorem pageNumber_lt {n b p : Nat} (hb : b < n) (hp : p < 64) : pageNumber b p < 64 * n := by
  simp only [pageNumber, Config.pagesPerBlock]
  omega

/-- A PBA names its page, on a chip that 32 bits can address (R230). -/
theorem pbaOf_page {b p : Nat} (hb : b < 2 ^ 26) (hp : p < 64) : pbaBlock (pbaOf b p) = b ∧ pbaPage (pbaOf b p) = p := by
  have fits : (pbaOf b p).toNat = pageNumber b p := by
    rw [pbaOf, BitVec.toNat_ofNat, Nat.mod_eq_of_lt]
    exact pageNumber_lt hb hp
  exact ⟨by rw [pbaBlock, fits, pageNumber_div hp], by rw [pbaPage, fits, pageNumber_mod hp]⟩

/-- Read of an LBA mapped to a page of the chip gives the page's data. -/
theorem Storage.read_mapped {st : Storage} {lba : BitVec 32} {b p : Nat} (mapped : st.ftl.lookup lba = some (pbaOf b p))
    (hb : b < st.nand.blockCount) (hp : p < 64) (addressable : st.nand.blockCount ≤ 2 ^ 26) :
    st.read lba = (.success, (st.nand.page b p).data) := by
  obtain ⟨block, page⟩ := pbaOf_page (Nat.lt_of_lt_of_le hb addressable) hp
  simp only [Storage.read, mapped, block, page, Config.pageSize, Nand.read_inRange hb hp]

/-- Read of an unmapped LBA (R235). -/
theorem Storage.read_unmapped {st : Storage} {lba : BitVec 32} (h : st.ftl.lookup lba = none) :
    st.read lba = (.success, List.replicate 4096 0xFF) := by
  rw [Storage.read, h]
  rfl

/-- After steps 4 and 5 of Write succeed, Read gives the value written. -/
theorem Storage.read_programAt {st st' : Storage} (hst : st.wf) (addressable : st.nand.blockCount ≤ 2 ^ 26) {c : Cursor}
    {lba : BitVec 32} {buf : List Byte} (h : st.programAt c lba buf = (.success, st')) :
    st'.read lba = (.success, buf) := by
  obtain ⟨program, l2p, -, -⟩ := Storage.programAt_success h
  obtain ⟨hb, hp, page⟩ := Nand.program_oob_success hst.1 program
  have blocks : st'.nand.blockCount = st.nand.blockCount := by
    simpa only [program] using st.nand.program_blockCount c.block c.next buf (some (oobRecord lba))
  have mapped : st'.ftl.lookup lba = some (pbaOf c.block c.next) := by rw [Ftl.lookup_map hst.2 l2p, if_pos rfl]
  rw [Storage.read_mapped mapped (blocks ▸ hb) hp (blocks ▸ addressable), page _ _ hp, if_pos ⟨rfl, rfl⟩]

/-! ## The chip's block table under Write and GarbageCollect (R237, R238) -/

theorem Storage.programAt_blocks (st : Storage) (c : Cursor) (lba : BitVec 32) (buf : List Byte) :
    (st.programAt c lba buf).2.nand.blocks = st.nand.blocks := by
  rw [Storage.programAt_nand, Nand.program_blocks]

theorem Storage.writeSurvivor_blocks (st : Storage) (lba : BitVec 32) (buf : List Byte) :
    (st.writeSurvivor lba buf).2.nand.blocks = st.nand.blocks := by
  unfold Storage.writeSurvivor
  dsimp only
  split
  · exact Storage.programAt_blocks _ _ lba buf
  · split
    · exact Storage.programAt_blocks _ _ lba buf
    · rfl

theorem Storage.writeSurvivors_blocks (st : Storage) (live : List (BitVec 32 × List Byte)) :
    (st.writeSurvivors live).2.nand.blocks = st.nand.blocks := by
  induction live generalizing st with
  | nil => rfl
  | cons e rest ih =>
    have first := st.writeSurvivor_blocks e.1 e.2
    unfold Storage.writeSurvivors
    split
    · next written => rw [written] at first; exact (ih _).trans first
    · next written => rw [written] at first; exact first

/-- What GarbageCollect makes of the block table: nothing, or the erase of the victim; the latter where it succeeds. -/
theorem Storage.garbageCollect_blocks (st : Storage) :
    (st.garbageCollect.1 = false ∧ st.garbageCollect.2.nand.blocks = st.nand.blocks) ∨
    ∃ v i, st.ftl.victim = some (v, i) ∧ v < st.nand.blockCount ∧
      st.garbageCollect.2.nand.blocks = (st.nand.erase v).2.blocks := by
  unfold Storage.garbageCollect
  split
  · exact .inl ⟨rfl, rfl⟩
  · next v i victim =>
    split
    · exact .inl ⟨rfl, rfl⟩
    · by_cases inRange : st.nand.blockCount ≤ v
      · rw [Nand.erase, if_pos inRange]
        exact .inl ⟨rfl, rfl⟩
      · refine .inr ⟨v, i, victim, not_le.mp inRange, ?_⟩
        rw [Nand.erase, if_neg inRange]
        exact Storage.writeSurvivors_blocks _ _

theorem Storage.garbageCollect_blockCount (st : Storage) : st.garbageCollect.2.nand.blockCount = st.nand.blockCount := by
  rcases st.garbageCollect_blocks with ⟨-, same⟩ | ⟨v, i, -, -, erased⟩
  · exact congrArg List.length same
  · exact (congrArg List.length erased).trans (st.nand.erase_blockCount v)

theorem Storage.allocate_blockCount (st : Storage) : st.allocate.2.nand.blockCount = st.nand.blockCount := by
  unfold Storage.allocate
  split
  · rfl
  · have collected := st.garbageCollect_blockCount
    split
    · next gc => rw [gc] at collected; exact collected
    · next gc =>
      rw [gc] at collected
      split
      · exact collected
      · split <;> exact collected

/-- A Write that succeeds ends in steps 4 and 5, over a stack that is as well formed and as large (R234). -/
theorem Storage.write_success {st st' : Storage} (hst : st.wf) {lba : BitVec 32} {buf : List Byte}
    (h : st.write lba buf = (.success, st')) :
    ∃ (mid : Storage) (c : Cursor), mid.wf ∧ mid.nand.blockCount = st.nand.blockCount ∧
      mid.programAt c lba buf = (.success, st') := by
  have start : Storage.wf { st with ftl := st.ftl.invalidate lba } := ⟨hst.1, by simpa using hst.2⟩
  unfold Storage.write at h
  dsimp only at h
  split at h
  · next c _ => exact ⟨_, c, start, rfl, h⟩
  · have wf := Storage.wf_allocate start
    have blocks := Storage.allocate_blockCount { st with ftl := st.ftl.invalidate lba }
    split at h
    · next allocated => rw [allocated] at wf blocks; exact ⟨_, _, wf, blocks, h⟩
    · cases h

/-- Settles O48: a Write that succeeds ends in a Program that leaves `buf` in the page it maps the LBA to. -/
theorem writeThenRead : Obligations.WriteThenRead := by
  intro st st' lba buf hn hl2p addressable
  refine ⟨fun success => ?_, Storage.read_unmapped⟩
  obtain ⟨mid, c, wf, blocks, programmed⟩ := Storage.write_success ⟨hn, hl2p⟩ success
  exact Storage.read_programAt wf (blocks ▸ addressable) programmed

/-! ## The victim (R237 step 1, D22) -/

/-- Block `best` is to be taken before block `other`: fewer valid pages, or as many and no higher index. -/
def TakenBefore (best other : Nat × BlockInfo) : Prop :=
  popcount best.2.valid ≤ popcount other.2.valid ∧
    (popcount other.2.valid = popcount best.2.valid → best.1 ≤ other.1)

theorem TakenBefore.refl (e : Nat × BlockInfo) : TakenBefore e e := ⟨le_rfl, fun _ => le_rfl⟩

theorem TakenBefore.trans {a b c : Nat × BlockInfo} (h : TakenBefore a b) (k : TakenBefore b c) : TakenBefore a c := by
  unfold TakenBefore at *
  omega

/-- `best` is the choice among the entries of the block table seen so far. -/
structure Ftl.ChoiceAmong (f : Ftl) (seen : List (BlockInfo × Nat)) (best : Option (Nat × BlockInfo)) : Prop where
  mem : ∀ e ∈ best, e.swap ∈ seen
  least : ∀ e ∈ seen, f.victimCandidate e.2 e.1 = true → ∃ c, best = some c ∧ TakenBefore c e.swap

/-- One more entry, of a higher index than those seen. -/
theorem Ftl.ChoiceAmong.betterVictim {f : Ftl} {seen : List (BlockInfo × Nat)} {best : Option (Nat × BlockInfo)}
    (h : f.ChoiceAmong seen best) {e : BlockInfo × Nat} (higher : ∀ d ∈ seen, d.2 < e.2) :
    f.ChoiceAmong (seen ++ [e]) (betterVictim f best e) := by
  have keep : ∀ c ∈ best, c.swap ∈ seen ++ [e] := fun c hc => List.mem_append_left _ (h.mem c hc)
  have take : ∀ c ∈ some e.swap, c.swap ∈ seen ++ [e] := by simp
  unfold Machine.betterVictim
  split
  · next candidate =>
    split
    · exact ⟨take, fun d hd hcand => ⟨_, rfl, by
        rcases List.mem_append.mp hd with old | new
        · obtain ⟨c, hc, -⟩ := h.least d old hcand
          cases hc
        · obtain rfl := List.mem_singleton.mp new
          exact .refl _⟩⟩
    · next v i =>
      have lower : v < e.2 := higher _ (h.mem (v, i) rfl)
      split
      · next fewer =>
        refine ⟨take, fun d hd hcand => ⟨_, rfl, ?_⟩⟩
        rcases List.mem_append.mp hd with old | new
        · obtain ⟨c, hc, before⟩ := h.least d old hcand
          cases hc
          exact TakenBefore.trans ⟨fewer.le, fun same => absurd same fewer.ne'⟩ before
        · obtain rfl := List.mem_singleton.mp new
          exact .refl _
      · next noFewer =>
        refine ⟨keep, fun d hd hcand => ?_⟩
        rcases List.mem_append.mp hd with old | new
        · exact h.least d old hcand
        · obtain rfl := List.mem_singleton.mp new
          exact ⟨_, rfl, not_lt.mp noFewer, fun _ => lower.le⟩
  · next noCandidate =>
    refine ⟨keep, fun d hd hcand => ?_⟩
    rcases List.mem_append.mp hd with old | new
    · exact h.least d old hcand
    · obtain rfl := List.mem_singleton.mp new
      exact absurd hcand noCandidate

theorem Ftl.choiceAmong_foldl (f : Ftl) {l : List (BlockInfo × Nat)} (ascending : l.Pairwise (·.2 < ·.2)) :
    f.ChoiceAmong l (l.foldl (betterVictim f) none) := by
  induction l using List.reverseRecOn with
  | nil => exact ⟨nofun, nofun⟩
  | append_singleton seen e ih =>
    obtain ⟨hseen, -, higher⟩ := List.pairwise_append.mp ascending
    rw [List.foldl_append]
    exact (ih hseen).betterVictim fun d hd => higher d hd e (List.mem_singleton_self e)

theorem zipIdx_ascending {α : Type} (l : List α) : l.zipIdx.Pairwise (·.2 < ·.2) := by
  rw [← List.pairwise_map (f := Prod.snd) (R := (· < ·)), List.zipIdx_map_snd]
  exact List.pairwise_lt_range'

/-- The victim is taken before every other candidate. -/
theorem Ftl.victim_takenBefore {f : Ftl} {v : Nat} {i : BlockInfo} (h : f.victim = some (v, i)) {b : Nat} {j : BlockInfo}
    (hj : f.info[b]? = some j) (candidate : f.victimCandidate b j = true) : TakenBefore (v, i) (b, j) := by
  have choice := f.choiceAmong_foldl (zipIdx_ascending f.info)
  obtain ⟨c, hc, before⟩ := choice.least (j, b) (List.mem_zipIdx_iff_getElem?.mpr hj) candidate
  obtain rfl : c = (v, i) := Option.some.inj (hc.symm.trans h)
  exact before

/-- Erase of another block does not count (R238). -/
theorem Nand.erase_eraseCount_other (n : Nand) {b c : Nat} (h : c ≠ b) : (n.erase b).2.eraseCount c = n.eraseCount c := by
  unfold Nand.erase
  split
  · rfl
  · simp only [Nand.eraseCount, List.getD_eq_getElem?_getD, List.getElem?_modify_ne _ _ h.symm]

/-- Settles O52: the scan keeps the best candidate so far, and of GC's operations only the erase touches a counter. -/
theorem collectionErasesVictim : Obligations.CollectionErasesVictim := by
  refine ⟨fun f v i victim => ?_, fun st st' success => ?_⟩
  · obtain ⟨info, candidate⟩ := Ftl.victim_candidate victim
    exact ⟨info, candidate, fun b j hj hcand => Ftl.victim_takenBefore victim hj hcand⟩
  · rcases st.garbageCollect_blocks with ⟨failed, -⟩ | ⟨v, i, victim, inRange, blocks⟩
    · rw [success] at failed
      cases failed
    · rw [success] at blocks
      refine ⟨v, i, victim, fun b => ?_⟩
      have counters : st'.nand.eraseCount b = (st.nand.erase v).2.eraseCount b := by
        rw [Nand.eraseCount, blocks]
        rfl
      rw [counters]
      split
      · next same => rw [same, Nand.erase_eraseCount inRange]
      · next other => exact st.nand.erase_eraseCount_other other

end Sys2Proof.Machine
end

section
/-! PROOFS. Mount's scan of a block (R233) by what page 0 holds, the OOB record it looks for (R232), and the FTL that
mounting a fresh chip gives. -/

namespace Sys2Proof.Machine

/-! ## The OOB record (R232) -/

theorem oobRecord_length (lba : BitVec 32) : (oobRecord lba).length = 64 := by
  simp [oobRecord, bytesOf32]

theorem hasMagic_oobRecord (lba : BitVec 32) : hasMagic (oobRecord lba) = true := by
  rw [hasMagic, oobRecord, List.append_assoc, List.take_left' (bytesOf64_length _), beq_self_eq_true]

theorem hasMagic_erased : hasMagic Page.erased.oob = false := by decide

/-- A 32-bit value is the join of its bytes. -/
theorem dwordAt_bytesOf32 (v : BitVec 32) (before after : List Byte) :
    dwordAt (before ++ bytesOf32 v ++ after) before.length = v := by
  have byte : ∀ i < 4, (before ++ bytesOf32 v ++ after).getD (before.length + i) 0 = v.extractLsb' (8 * i) 8 := by
    intro i hi
    simp [bytesOf32, List.getD_eq_getElem?_getD, List.getElem?_append_right, List.getElem?_append_left, hi]
  have byte0 := byte 0 (by decide)
  rw [Nat.add_zero] at byte0
  rw [dwordAt, byte 3 (by decide), byte 2 (by decide), byte 1 (by decide), byte0]
  apply BitVec.eq_of_getLsbD_eq
  intro i hi
  simp only [BitVec.getLsbD_append, BitVec.getLsbD_extractLsb']
  split_ifs
  all_goals
    rw [decide_eq_true (by omega), Bool.true_and]
    congr 1
    omega

theorem oobLba_oobRecord (lba : BitVec 32) : oobLba (oobRecord lba) = lba :=
  dwordAt_bytesOf32 lba (bytesOf64 Config.oobMagic) (List.replicate 52 0xFF)

/-! ## The scan of a block (R233) -/

theorem Nand.readWithOob_inRange {n : Nand} {b p : Nat} (hb : b < n.blockCount) (hp : p < 64) :
    n.readWithOob b p = ⟨.success, (n.page b p).data, some (n.page b p).oob⟩ := by
  have inRange : ¬ (n.blockCount ≤ b ∨ Config.pagesPerBlock ≤ p) := by simp only [Config.pagesPerBlock]; omega
  simp only [Nand.readWithOob, Nand.read, if_neg inRange, ne_eq, not_true_eq_false, if_false]

/-- A block without the magic in page 0 is Free and goes on the free list. -/
theorem Ftl.scanBlock_without_magic {nand : Nand} {b : Nat} (hb : b < nand.blockCount)
    (h : hasMagic (nand.page b 0).oob = false) (f : Ftl) :
    f.scanBlock nand b = { f.setState b .free with freeList := b :: f.freeList } := by
  simp only [Ftl.scanBlock, Nand.readWithOob_inRange hb (by decide : 0 < 64), ReadResult.oobBytes, Option.getD_some, h,
    ne_eq, not_true_eq_false, if_false, Bool.not_false, if_true]

/-- A block with the magic in page 0: that page contributes, and the others are scanned. -/
theorem Ftl.scanBlock_with_magic {nand : Nand} {b : Nat} (hb : b < nand.blockCount)
    (h : hasMagic (nand.page b 0).oob = true) (f : Ftl) :
    f.scanBlock nand b =
      ((f.contribute b 0 (nand.page b 0).oob).setState b .full).scanPages nand b pagesAfterFirst := by
  simp only [Ftl.scanBlock, Nand.readWithOob_inRange hb (by decide : 0 < 64), ReadResult.oobBytes, Option.getD_some, h,
    ne_eq, not_true_eq_false, if_false, Bool.not_true, Bool.false_eq_true]

/-- One page of the scan: with the magic it contributes and the scan goes on, without it the block is Active there. -/
theorem Ftl.scanPages_cons {nand : Nand} {b : Nat} (hb : b < nand.blockCount) (f : Ftl) (p : Fin 64)
    (rest : List (Fin 64)) :
    f.scanPages nand b (p :: rest) =
      if hasMagic (nand.page b p).oob = true then (f.contribute b p (nand.page b p).oob).scanPages nand b rest
      else { f.setState b .active with active := some ⟨b, p⟩ } := by
  simp only [Ftl.scanPages, Nand.readWithOob_inRange hb p.isLt, ReadResult.oobBytes, Option.getD_some, true_and]

/-! ## Mount of a fresh chip -/

/-- Setting a block's state to what it is changes nothing. -/
theorem Ftl.setState_same {f : Ftl} {b : Nat} {state : BlockState} (h : ∀ i ∈ f.info, i.state = state) :
    f.setState b state = f := by
  have info : (f.info.modify b fun i => { i with state := state }) = f.info := by
    refine List.ext_getElem? fun c => ?_
    rw [List.getElem?_modify]
    split
    · cases hi : f.info[c]? with
      | none => rfl
      | some i => simp [← h i (List.mem_of_getElem? hi)]
    · simp
  rw [Ftl.setState, Ftl.updateInfo, info]

/-- Scanning the first `m` blocks of a fresh chip puts them on the free list, block 0 on top, and nothing else. -/
theorem Ftl.scan_fresh {m n : Nat} (hm : m ≤ n) (free : List Nat) :
    (List.range m).reverse.foldl (Ftl.scanBlock (Nand.fresh n)) ⟨[], List.replicate n ⟨.free, 0, 0⟩, free, none⟩ =
      ⟨[], List.replicate n ⟨.free, 0, 0⟩, List.range m ++ free, none⟩ := by
  induction m generalizing free with
  | zero => rfl
  | succ m ih =>
    have inRange : m < (Nand.fresh n).blockCount := by simpa [Nand.blockCount, Nand.fresh] using hm
    rw [List.range_succ, List.reverse_append, List.reverse_singleton, List.singleton_append, List.foldl_cons,
      Ftl.scanBlock_without_magic inRange hasMagic_erased,
      Ftl.setState_same fun i hi => by rw [List.eq_of_mem_replicate hi], ih (by omega), List.append_assoc,
      List.singleton_append]

theorem Ftl.mount_fresh (n : Nat) : Ftl.mount (Nand.fresh n) = Ftl.fresh n := by
  have blocks : (Nand.fresh n).blockCount = n := List.length_replicate
  have start : Ftl.unscanned (Nand.fresh n) = ⟨[], List.replicate n ⟨.free, 0, 0⟩, [], none⟩ := by
    simp [Ftl.unscanned, Nand.fresh]
  rw [Ftl.mount, blocks, start, Ftl.scan_fresh le_rfl, List.append_nil]
  rfl

/-- Settles O51: no page 0 has the magic, so every block is pushed, from the highest index down. -/
theorem mountOfFreshChip : Obligations.MountOfFreshChip :=
  ⟨Ftl.mount_fresh, (Ftl.mount_fresh _).symm⟩

end Sys2Proof.Machine
end

section
/-! PROOFS. A log of Writes with distinct LBAs on a fresh chip (R241): the `k`-th Write programs the `k`-th page of the
chip, in the order of page numbers. That is what the chip holds and the FTL maps after `k` Writes, and what Mount's scan
finds again. -/

namespace Sys2Proof.Machine

/-- A sequence of Writes, each an LBA and its value, to be written in order. -/
abbrev WriteLog := List (BitVec 32 × List Byte)

/-- Writes of whole pages with distinct LBAs that fit in a chip of `n` blocks, which 32 bits can address (R230, R241). -/
structure WriteLog.Fits (log : WriteLog) (n : Nat) : Prop where
  addressable : n ≤ 2 ^ 26
  sized : ∀ w ∈ log, w.2.length = 4096
  distinct : (log.map Prod.fst).Nodup
  capacity : log.length ≤ 64 * n

/-- An LBA has one place in the log. -/
theorem WriteLog.Fits.place_unique {log : WriteLog} {n : Nat} (h : log.Fits n) {j k : Nat} {lba : BitVec 32}
    {x y : List Byte} (hj : log[j]? = some (lba, x)) (hk : log[k]? = some (lba, y)) : j = k := by
  have lbaAt : ∀ {i : Nat} {z : List Byte}, log[i]? = some (lba, z) → (log.map Prod.fst)[i]? = some lba := by
    intro i z hi
    rw [List.getElem?_map, hi]
    rfl
  have hlt : j < (log.map Prod.fst).length := (List.getElem?_eq_some_iff.mp (lbaAt hj)).1
  exact (List.getElem?_inj hlt h.distinct).mp ((lbaAt hj).trans (lbaAt hk).symm)

/-! ## The page numbers -/

theorem pageNumber_div_mod (k : Nat) : pageNumber (k / 64) (k % 64) = k := Nat.div_add_mod' k 64

/-- The page number has its block as quotient (R22). -/
theorem pageNumber_block {b p : Nat} (hp : p < 64) : pageNumber b p / 64 = b := pageNumber_div hp

/-! ## What the FTL maps -/

/-- The FTL maps the LBAs that the log has among the given page numbers, each to its page, and no other. -/
structure Ftl.MapsLog (f : Ftl) (log : WriteLog) (pages : Set Nat) : Prop where
  wf : Sparse.wf none f.l2p
  lookup : ∀ lba pba, f.lookup lba = some pba ↔ ∃ j ∈ pages, ∃ buf, log[j]? = some (lba, buf) ∧ pba = BitVec.ofNat 32 j

section

variable {f g : Ftl} {log : WriteLog} {n : Nat} {pages : Set Nat}

theorem Ftl.MapsLog.of_l2p (h : f.MapsLog log pages) (hl2p : g.l2p = f.l2p) : g.MapsLog log pages := by
  have same : g.lookup = f.lookup := funext fun lba => by rw [Ftl.lookup, hl2p, Ftl.lookup]
  exact ⟨hl2p ▸ h.wf, fun lba pba => by rw [same]; exact h.lookup lba pba⟩

/-- Page numbers past the end of the log do not matter. -/
theorem Ftl.MapsLog.congr (h : f.MapsLog log pages) {pages' : Set Nat}
    (same : ∀ j < log.length, j ∈ pages ↔ j ∈ pages') : f.MapsLog log pages' := by
  refine ⟨h.wf, fun lba pba => (h.lookup lba pba).trans ?_⟩
  have place : ∀ {j : Nat} {w}, log[j]? = some w → j < log.length := fun hj => (List.getElem?_eq_some_iff.mp hj).1
  constructor
  · rintro ⟨j, hj, buf, hw, hpba⟩
    exact ⟨j, (same j (place hw)).mp hj, buf, hw, hpba⟩
  · rintro ⟨j, hj, buf, hw, hpba⟩
    exact ⟨j, (same j (place hw)).mpr hj, buf, hw, hpba⟩

/-- Nothing is mapped. -/
theorem Ftl.MapsLog.of_empty (hf : f.l2p = []) (past : ∀ j < log.length, j ∉ pages) : f.MapsLog log pages := by
  have empty : f.MapsLog log ∅ := by
    refine ⟨hf ▸ ⟨.nil, nofun⟩, fun lba pba => iff_of_false ?_ (by simp)⟩
    rw [Ftl.lookup, hf]
    exact nofun
  exact empty.congr fun j hj => by simp [past j hj]

/-- An LBA of the log whose page is not among those given is unmapped. -/
theorem Ftl.MapsLog.lookup_eq_none (h : f.MapsLog log pages) (fits : log.Fits n) {k : Nat} {lba : BitVec 32}
    {buf : List Byte} (hk : log[k]? = some (lba, buf)) (fresh : k ∉ pages) : f.lookup lba = none := by
  refine Option.eq_none_iff_forall_ne_some.mpr fun pba mapped => ?_
  obtain ⟨j, hj, x, hx, -⟩ := (h.lookup lba pba).mp mapped
  exact fresh (fits.place_unique hx hk ▸ hj)

/-- Mapping the log's LBA of one more page. -/
theorem Ftl.MapsLog.map (h : f.MapsLog log pages) (fits : log.Fits n) {k : Nat} {lba : BitVec 32} {buf : List Byte}
    (hk : log[k]? = some (lba, buf)) (hg : g.l2p = (f.map lba (BitVec.ofNat 32 k)).l2p) :
    g.MapsLog log (insert k pages) := by
  refine ⟨hg ▸ Sparse.wf_write h.wf _ _, fun other pba => ?_⟩
  rw [Ftl.lookup_map h.wf hg]
  split
  · next same =>
    subst same
    constructor
    · rintro ⟨⟩
      exact ⟨k, Set.mem_insert k pages, buf, hk, rfl⟩
    · rintro ⟨j, -, x, hx, rfl⟩
      rw [fits.place_unique hx hk]
  · next different =>
    refine (h.lookup other pba).trans ⟨?_, ?_⟩
    · rintro ⟨j, hj, rest⟩
      exact ⟨j, Set.mem_insert_of_mem k hj, rest⟩
    · rintro ⟨j, rfl | hj, x, hx, hpba⟩
      · rw [hk] at hx
        cases hx
        exact absurd rfl different
      · exact ⟨j, hj, x, hx, hpba⟩

end

/-! ## What the chip holds -/

/-- The chip has `n` blocks, the first `k` Writes of the log in its first `k` pages, and all else erased. -/
structure Nand.HoldsLog (nand : Nand) (log : WriteLog) (n k : Nat) : Prop where
  wf : Nand.wf nand
  blocks : nand.blockCount = n
  written : ∀ b p lba buf, p < 64 → pageNumber b p < k → log[pageNumber b p]? = some (lba, buf) →
    nand.page b p = ⟨buf, oobRecord lba⟩
  erased : ∀ b p, p < 64 → k ≤ pageNumber b p → nand.page b p = Page.erased

/-- A Program of page number `k` that succeeds, with the log's value and OOB record. -/
theorem Nand.HoldsLog.program {nand nand' : Nand} {log : WriteLog} {n k : Nat} (h : nand.HoldsLog log n k)
    {lba : BitVec 32} {buf : List Byte} (hk : log[k]? = some (lba, buf)) {b p : Nat} (here : pageNumber b p = k)
    (success : nand.program b p buf (some (oobRecord lba)) = (.success, nand')) : nand'.HoldsLog log n (k + 1) := by
  obtain ⟨-, onPage, page⟩ := Nand.program_oob_success h.wf success
  have after : (nand.program b p buf (some (oobRecord lba))).2 = nand' := congrArg Prod.snd success
  refine ⟨after ▸ Nand.wf_program h.wf _ _ _ _, after ▸ (Nand.program_blockCount ..).trans h.blocks, ?_, ?_⟩
  · intro c q lba' buf' hq before hw
    rw [page c q hq]
    split
    · next same =>
      rw [(pageNumber_inj onPage hq).mpr same, here, hk] at hw
      cases hw
      rfl
    · next other =>
      rw [← pageNumber_inj onPage hq, here] at other
      exact h.written c q lba' buf' hq (by omega) hw
  · intro c q hq past
    have other : ¬ (c = b ∧ q = p) := by
      rw [← pageNumber_inj onPage hq]
      omega
    rw [page c q hq, if_neg other]
    exact h.erased c q hq (by omega)

/-- An FTL that maps the whole log over a chip that holds it reads it back (R241). -/
theorem Storage.read_log {st : Storage} {log : WriteLog} {n : Nat} (fits : log.Fits n)
    (holds : st.nand.HoldsLog log n log.length) (maps : st.ftl.MapsLog log Set.univ) :
    (∀ w ∈ log, st.read w.1 = (.success, w.2)) ∧
    (∀ lba, lba ∉ log.map Prod.fst → st.read lba = (.success, List.replicate 4096 0xFF)) := by
  constructor
  · rintro ⟨lba, buf⟩ hw
    obtain ⟨k, hk⟩ := List.mem_iff_getElem?.mp hw
    have place : k < log.length := (List.getElem?_eq_some_iff.mp hk).1
    have inRange : k / 64 < n := by have := fits.capacity; omega
    have onPage : k % 64 < 64 := Nat.mod_lt k (by decide)
    have mapped : st.ftl.lookup lba = some (pbaOf (k / 64) (k % 64)) := by
      rw [pbaOf, pageNumber_div_mod]
      exact (maps.lookup lba _).mpr ⟨k, trivial, buf, hk, rfl⟩
    rw [Storage.read_mapped mapped (holds.blocks.symm ▸ inRange) onPage (holds.blocks.symm ▸ fits.addressable),
      holds.written _ _ lba buf onPage (by rwa [pageNumber_div_mod]) (by rwa [pageNumber_div_mod])]
  · intro lba absent
    refine Storage.read_unmapped (Option.eq_none_iff_forall_ne_some.mpr fun pba mapped => absent ?_)
    obtain ⟨j, -, buf, hj, -⟩ := (maps.lookup lba pba).mp mapped
    exact List.mem_map_of_mem (List.mem_of_getElem? hj)

/-! ## Writing the log (R234, R236) -/

/-- The cursor at page number `k`. -/
def cursorAt (k : Nat) : Cursor := ⟨k / 64, ⟨k % 64, Nat.mod_lt k (by decide)⟩⟩

/-- The active-block cursor after `k` Writes: none where the last of them filled its block, or there was none. -/
def cursorAfter (k : Nat) : Option Cursor := if k % 64 = 0 then none else some (cursorAt k)

theorem pageNumber_cursorAt (k : Nat) : pageNumber (cursorAt k).block (cursorAt k).next = k := pageNumber_div_mod k

theorem advance_cursorAt (k : Nat) : (cursorAt k).advance = cursorAfter (k + 1) := by
  by_cases last : k % 64 + 1 < 64
  · have block : (k + 1) / 64 = k / 64 := by omega
    have page : (k + 1) % 64 = k % 64 + 1 := by omega
    simp [Cursor.advance, cursorAfter, cursorAt, last, block, page]
  · have filled : (k + 1) % 64 = 0 := by omega
    simp [Cursor.advance, cursorAfter, cursorAt, last, filled]

/-- The storage stack after the first `k` Writes of the log: the blocks after the one written last are on the free list,
the lowest on top (R231). -/
structure Storage.AfterWrites (st : Storage) (log : WriteLog) (n k : Nat) : Prop where
  holds : st.nand.HoldsLog log n k
  maps : st.ftl.MapsLog log {j | j < k}
  active : st.ftl.active = cursorAfter k
  freeList : st.ftl.freeList = (List.range n).drop ((k + 63) / 64)

theorem Storage.AfterWrites.fresh (log : WriteLog) (n : Nat) : AfterWrites ⟨Nand.fresh n, Ftl.fresh n⟩ log n 0 where
  holds :=
    { wf := ⟨⟨.nil, nofun⟩, nofun⟩
      blocks := List.length_replicate
      written := fun _ _ _ _ _ past => absurd past (Nat.not_lt_zero _)
      erased := fun _ _ _ _ => rfl }
  maps := .of_empty rfl fun _ _ => Nat.not_lt_zero _
  active := rfl
  freeList := rfl

/-- Allocate takes the top of the free list where there is one (R236). -/
theorem Storage.allocate_of_freeList {st : Storage} {b : Nat} {rest : List Nat} (h : st.ftl.freeList = b :: rest) :
    ∃ f, st.allocate = (some ⟨b, 0⟩, { st with ftl := f }) ∧ f.l2p = st.ftl.l2p ∧ f.freeList = rest := by
  refine ⟨{ st.ftl.setState b .active with freeList := rest, active := some ⟨b, 0⟩ }, ?_, rfl, rfl⟩
  rw [Storage.allocate, Ftl.openFreeBlock, h]

/-- Clearing the valid bit of an LBA that is not mapped does nothing (R234 step 2). -/
theorem Ftl.invalidate_of_unmapped {f : Ftl} {lba : BitVec 32} (h : f.lookup lba = none) : f.invalidate lba = f := by
  rw [Ftl.invalidate, h]

/-- The next Write programs page number `k`: at the cursor, or in a block it takes from the free list. -/
theorem Storage.AfterWrites.write_eq {st : Storage} {log : WriteLog} {n k : Nat} (h : st.AfterWrites log n k)
    (fits : log.Fits n) {lba : BitVec 32} {buf : List Byte} (hk : log[k]? = some (lba, buf)) :
    ∃ f, st.write lba buf = Storage.programAt { st with ftl := f } (cursorAt k) lba buf ∧ f.l2p = st.ftl.l2p ∧
      f.freeList = (List.range n).drop (k / 64 + 1) := by
  have unmapped : st.ftl.lookup lba = none := h.maps.lookup_eq_none fits hk (lt_irrefl k)
  have active := h.active
  have freeList := h.freeList
  rw [Storage.write, Ftl.invalidate_of_unmapped unmapped]
  unfold cursorAfter at active
  split at active
  · next newBlock =>
    have place : k < log.length := (List.getElem?_eq_some_iff.mp hk).1
    have inRange : k / 64 < (List.range n).length := by
      rw [List.length_range]
      have := fits.capacity
      omega
    have top : st.ftl.freeList = k / 64 :: (List.range n).drop (k / 64 + 1) := by
      rw [freeList, show (k + 63) / 64 = k / 64 by omega, List.drop_eq_getElem_cons inRange, List.getElem_range]
    obtain ⟨f, allocated, l2p, rest⟩ := Storage.allocate_of_freeList top
    have cursor : (⟨k / 64, 0⟩ : Cursor) = cursorAt k := congrArg (Cursor.mk (k / 64)) (Fin.ext newBlock.symm)
    exact ⟨f, by simp only [active, allocated, cursor], l2p, rest⟩
  · next sameBlock =>
    exact ⟨st.ftl, by simp only [active], rfl, by rw [freeList, show (k + 63) / 64 = k / 64 + 1 by omega]⟩

/-- One more Write of the log. -/
theorem Storage.AfterWrites.write {st : Storage} {log : WriteLog} {n k : Nat} (h : st.AfterWrites log n k)
    (fits : log.Fits n) {lba : BitVec 32} {buf : List Byte} (hk : log[k]? = some (lba, buf)) :
    (st.write lba buf).2.AfterWrites log n (k + 1) := by
  obtain ⟨f, write, l2p, freeList⟩ := h.write_eq fits hk
  have place : k < log.length := (List.getElem?_eq_some_iff.mp hk).1
  have inRange : (cursorAt k).block < st.nand.blockCount := by
    rw [h.holds.blocks]
    show k / 64 < n
    have := fits.capacity
    omega
  have onPage := (cursorAt k).next.isLt
  have erased : st.nand.page (cursorAt k).block (cursorAt k).next = Page.erased :=
    h.holds.erased _ _ onPage (pageNumber_cursorAt k).ge
  have success : (Storage.programAt { st with ftl := f } (cursorAt k) lba buf).1 = .success := by
    rw [Storage.programAt_status]
    exact Nand.program_erased inRange onPage (fits.sized _ (List.mem_of_getElem? hk)) (oobRecord_length lba) erased
  obtain ⟨program, mapped, advanced, free⟩ := Storage.programAt_success (Prod.ext success rfl)
  rw [write]
  refine ⟨h.holds.program hk (pageNumber_cursorAt k) program, ?_, ?_, ?_⟩
  · rw [pbaOf, pageNumber_cursorAt] at mapped
    refine ((h.maps.of_l2p l2p).map fits hk mapped).congr fun j _ => ?_
    show j = k ∨ j < k ↔ j < k + 1
    omega
  · rw [advanced, advance_cursorAt]
  · rw [free, show (k + 1 + 63) / 64 = k / 64 + 1 by omega]
    exact freeList

/-- The storage stack after Writes on a fresh chip. -/
def Storage.writeAll (log : WriteLog) (n : Nat) : Storage :=
  log.foldl (fun st w => (Storage.write st w.1 w.2).2) ⟨Nand.fresh n, Ftl.fresh n⟩

theorem Storage.writeAll_take {log : WriteLog} {n : Nat} (fits : log.Fits n) {k : Nat} (hk : k ≤ log.length) :
    (Storage.writeAll (log.take k) n).AfterWrites log n k := by
  induction k with
  | zero => exact .fresh log n
  | succ k ih =>
    rw [List.take_succ_eq_append_getElem hk, Storage.writeAll, List.foldl_append]
    exact (ih (Nat.le_of_succ_le hk)).write fits (List.getElem?_eq_getElem hk)

theorem Storage.writeAll_afterWrites {log : WriteLog} {n : Nat} (fits : log.Fits n) :
    (Storage.writeAll log n).AfterWrites log n log.length := by
  simpa only [List.take_length] using Storage.writeAll_take fits le_rfl

/-- Settles O49: the Writes fill the pages in order, so that each finds an erased page and none is overwritten. -/
theorem distinctWritesRoundTrip : Obligations.DistinctWritesRoundTrip := by
  intro n writes addressable sized distinct capacity st
  have fits : WriteLog.Fits writes n := ⟨addressable, sized, distinct, capacity⟩
  have after := Storage.writeAll_afterWrites fits
  exact Storage.read_log fits after.holds (after.maps.congr fun j hj => iff_of_true hj trivial)

/-! ## Mount over the log (R233) -/

theorem mem_pagesAfterFirst (p : Fin 64) : p ∈ pagesAfterFirst ↔ p ≠ 0 := by decide +revert

theorem pagesAfterFirst_ascending : pagesAfterFirst.Pairwise (· < ·) :=
  (List.pairwise_lt_finRange 64).drop

section

variable {nand : Nand} {log : WriteLog} {n b : Nat} {f : Ftl} {pages : Set Nat}

/-- A page has the magic iff the log reaches it. -/
theorem Nand.HoldsLog.hasMagic_iff (h : nand.HoldsLog log n log.length) {p : Nat} (hp : p < 64) :
    hasMagic (nand.page b p).oob = true ↔ pageNumber b p < log.length := by
  constructor
  · contrapose!
    intro past
    rw [h.erased b p hp past, hasMagic_erased]
    decide
  · intro place
    rw [h.written b p _ _ hp place (List.getElem?_eq_getElem place)]
    exact hasMagic_oobRecord _

/-- Contribute of a page that the log reaches. -/
theorem Ftl.MapsLog.contribute (h : f.MapsLog log pages) (fits : log.Fits n) (holds : nand.HoldsLog log n log.length)
    {p : Nat} (hp : p < 64) (place : pageNumber b p < log.length) :
    (f.contribute b p (nand.page b p).oob).MapsLog log (insert (pageNumber b p) pages) := by
  obtain ⟨⟨lba, buf⟩, hw⟩ : ∃ w, log[pageNumber b p]? = some w := ⟨_, List.getElem?_eq_getElem place⟩
  refine h.map fits hw ?_
  rw [holds.written b p lba buf hp place hw, Ftl.contribute, oobLba_oobRecord, Ftl.setValid_l2p, Ftl.map_l2p,
    Ftl.map_l2p, Ftl.invalidate_l2p]
  rfl

/-- The scan of ascending pages of a block maps them: a page that the log does not reach ends the scan, and the log does
not reach the pages after it. -/
theorem Ftl.MapsLog.scanPages (h : f.MapsLog log pages) (fits : log.Fits n) (holds : nand.HoldsLog log n log.length)
    (hb : b < n) {scanned : List (Fin 64)} (ascending : scanned.Pairwise (· < ·)) :
    (f.scanPages nand b scanned).MapsLog log (pages ∪ {j | ∃ p ∈ scanned, j = pageNumber b p}) := by
  induction scanned generalizing f pages with
  | nil => exact h.congr fun j _ => by simp
  | cons p rest ih =>
    obtain ⟨later, ascending⟩ := List.pairwise_cons.mp ascending
    rw [Ftl.scanPages_cons (holds.blocks.symm ▸ hb)]
    simp only [holds.hasMagic_iff p.isLt]
    split
    · next place =>
      refine (ih (h.contribute fits holds p.isLt place) ascending).congr fun j _ => ?_
      simp only [Set.mem_union, Set.mem_insert_iff, Set.mem_ofPred_eq, List.exists_mem_cons_iff]
      tauto
    · next past =>
      have kept : Ftl.MapsLog { f.setState b .active with active := some ⟨b, p⟩ } log pages := h.of_l2p rfl
      refine kept.congr fun j place => ⟨Or.inl, ?_⟩
      rintro (old | ⟨q, hq, rfl⟩)
      · exact old
      · have from_p : pageNumber b p ≤ pageNumber b q := by
          rcases List.mem_cons.mp hq with rfl | hq
          · exact le_rfl
          · exact Nat.add_le_add_left (later q hq).le _
        exact absurd (from_p.trans_lt place) past

/-- The scan of one block, those of higher index having been scanned. -/
theorem Ftl.MapsLog.scanBlock (h : f.MapsLog log {j | b + 1 ≤ j / 64}) (fits : log.Fits n)
    (holds : nand.HoldsLog log n log.length) (hb : b < n) : (f.scanBlock nand b).MapsLog log {j | b ≤ j / 64} := by
  have inRange : b < nand.blockCount := holds.blocks.symm ▸ hb
  by_cases place : pageNumber b 0 < log.length
  · rw [Ftl.scanBlock_with_magic inRange ((holds.hasMagic_iff (by decide)).mpr place)]
    have page0 : ((f.contribute b 0 (nand.page b 0).oob).setState b .full).MapsLog log
        (insert (pageNumber b 0) {j | b + 1 ≤ j / 64}) :=
      (h.contribute fits holds (by decide) place).of_l2p rfl
    refine (page0.scanPages fits holds hb pagesAfterFirst_ascending).congr fun j _ => ?_
    simp only [Set.mem_union, Set.mem_insert_iff, Set.mem_ofPred_eq, mem_pagesAfterFirst]
    constructor
    · rintro ((rfl | above) | ⟨p, -, rfl⟩)
      · exact (pageNumber_block (by decide)).ge
      · omega
      · exact (pageNumber_block p.isLt).ge
    · intro here
      by_cases above : b + 1 ≤ j / 64
      · exact .inl (.inr above)
      · obtain rfl : j / 64 = b := by omega
        by_cases first : j % 64 = 0
        · exact .inl (.inl (by rw [← first, pageNumber_div_mod]))
        · exact .inr ⟨⟨j % 64, Nat.mod_lt j (by decide)⟩, fun zero => first (congrArg Fin.val zero),
            (pageNumber_div_mod j).symm⟩
  · have noMagic : hasMagic (nand.page b 0).oob = false :=
      Bool.eq_false_iff.mpr fun magic => place ((holds.hasMagic_iff (by decide)).mp magic)
    rw [Ftl.scanBlock_without_magic inRange noMagic]
    have kept : Ftl.MapsLog { f.setState b .free with freeList := b :: f.freeList } log {j | b + 1 ≤ j / 64} :=
      h.of_l2p rfl
    refine kept.congr fun j hj => ?_
    simp only [pageNumber, Config.pagesPerBlock] at place
    simp only [Set.mem_ofPred_eq]
    omega

/-- The scan of the blocks from `m - 1` down to 0, those from `m` on having been scanned. -/
theorem Ftl.MapsLog.scanBlocks (fits : log.Fits n) (holds : nand.HoldsLog log n log.length) {m : Nat} (hm : m ≤ n)
    (h : f.MapsLog log {j | m ≤ j / 64}) :
    ((List.range m).reverse.foldl (Ftl.scanBlock nand) f).MapsLog log Set.univ := by
  induction m generalizing f with
  | zero => exact h.congr fun j _ => by simp
  | succ m ih =>
    rw [List.range_succ, List.reverse_append, List.reverse_singleton, List.singleton_append, List.foldl_cons]
    exact ih (by omega) (h.scanBlock fits holds hm)

/-- Mount over a chip that holds the log maps all of it. -/
theorem Ftl.mount_mapsLog (fits : log.Fits n) (holds : nand.HoldsLog log n log.length) :
    (Ftl.mount nand).MapsLog log Set.univ := by
  rw [Ftl.mount, holds.blocks]
  refine .scanBlocks fits holds le_rfl (.of_empty rfl fun j hj => ?_)
  have := fits.capacity
  simp only [Set.mem_ofPred_eq]
  omega

end

/-- Settles O50: the OOB records of the pages written give Mount the map that the Writes had made. -/
theorem distinctWritesPersist : Obligations.DistinctWritesPersist := by
  intro n writes addressable sized distinct capacity nand st
  have fits : WriteLog.Fits writes n := ⟨addressable, sized, distinct, capacity⟩
  have holds := (Storage.writeAll_afterWrites fits).holds
  exact Storage.read_log fits holds (Ftl.mount_mapsLog fits holds)

end Sys2Proof.Machine
end

section
/-! PROOFS. The storage controller (47_storage_controller.md): writes to CC, the command fetch of a doorbell, and the
tick that executes a Write or a Read command, where every bypass access of the DMA falls in RAM. -/

namespace Sys2Proof.Machine

/-! ## Writes to CC (R274) -/

/-- Settles O53: a write to CC is the store of the register, in its three cases. -/
theorem controllerEnable : Obligations.ControllerEnable := by
  intro p v c cc
  have enable : cc.getLsbD 0 = v.getLsbD 0 := by simp [cc]
  have stored {d : Ctrl} (h : c.store 0x14 cc = d) : p.controllerWrite 0x14 v = { p with ctrl := d } := by
    rw [← h]
    rfl
  refine ⟨fun hc hv => ?_, fun hc hv => ?_, fun hkeep => ?_⟩
  · exact stored (Ctrl.store_cc_enable hc (enable.trans hv))
  · exact stored (Ctrl.store_cc_disable hc (enable.trans hv))
  · exact stored (Ctrl.store_cc_keep (hkeep.trans enable.symm))

/-! ## Bytes of words (R61, R65) -/

theorem byteOf_join64 (f : Nat → Byte) {k : Nat} (hk : k < 8) : byteOf (join64 f) k = f k := by
  apply BitVec.eq_of_getLsbD_eq
  intro i hi
  simp only [byteOf, join64, BitVec.getLsbD_extractLsb', BitVec.getLsbD_append, hi, decide_true, Bool.true_and]
  interval_cases k <;> grind

theorem bytesOf64_join64 (f : Nat → Byte) : bytesOf64 (join64 f) = (List.range 8).map f :=
  List.map_congr_left fun _ hk => byteOf_join64 f (List.mem_range.mp hk)

theorem byteOf_wordAt (buffer : List Byte) (i : Nat) {k : Nat} (hk : k < 8) :
    byteOf (wordAt buffer i) k = buffer.getD (8 * i + k) 0 :=
  byteOf_join64 _ hk

/-- Bytes taken eight at a time, in order, are the bytes in order. -/
theorem flatMap_range_eight {α : Type} (f : Nat → α) (n : Nat) :
    ((List.range n).flatMap fun i => (List.range 8).map fun k => f (8 * i + k)) = (List.range (8 * n)).map f := by
  induction n with
  | zero => rfl
  | succ n ih =>
    rw [List.range_succ (n := n), List.flatMap_append, ih, Nat.mul_succ, List.range_add, List.map_append,
      List.flatMap_singleton, List.map_map]
    rfl

/-- The upper half of a word that is shifted up by 32 bits, the lower half being 0. -/
theorem setWidth_shiftLeft_eq_append (x : BitVec 32) : x.setWidth 64 <<< 32 = x ++ (0 : BitVec 32) := by
  apply BitVec.eq_of_getLsbD_eq
  intro i hi
  simp only [BitVec.getLsbD_shiftLeft, BitVec.getLsbD_setWidth, BitVec.getLsbD_append]
  grind

/-! ## Bypass accesses in RAM (R56, R57) -/

theorem Soc.target_inRange {p : Soc} {a : Word} {e : DeviceEntry} (h : p.target a = some e) :
    e.base.toNat ≤ a.toNat ∧ a.toNat < e.base.toNat + e.size := by
  simpa [DeviceEntry.inRange] using List.find?_some h

/-- Offsets count with addresses inside a device that does not pass the end of the address space. -/
theorem offset_add_ofNat {e : DeviceEntry} {a : Word} (ha : e.base.toNat ≤ a.toNat)
    (hspace : e.base.toNat + e.size ≤ 2 ^ 64) {k : Nat} (hk : e.offset a + k < e.size) :
    e.offset (a + BitVec.ofNat 64 k) = e.offset a + k := by
  unfold DeviceEntry.offset at *
  have hk' : k % 2 ^ 64 = k := Nat.mod_eq_of_lt (by omega)
  rw [BitVec.toNat_add, BitVec.toNat_ofNat, hk', Nat.mod_eq_of_lt (by omega)]
  omega

theorem Soc.bypassRead_ram {p : Soc} {a : Word} {e : DeviceEntry} (ht : p.target a = some e) (hd : e.device = .ram)
    (hin : e.offset a + 8 ≤ e.size) : p.bypassRead a = (true, p.ram.bytes.read64 (e.offset a), p.countRead) := by
  rw [Soc.bypassRead_claimed ht, Soc.transferRead, hd]
  exact congrArg (fun v => (true, v, p.countRead)) (p.ram.transferRead_inside hin)

theorem Soc.bypassWrite_ram {p : Soc} {a : Word} {e : DeviceEntry} (ht : p.target a = some e) (hd : e.device = .ram)
    (hin : e.offset a + 8 ≤ e.size) (v : Word) :
    p.bypassWrite a v =
      (true, { p.countWrite with ram := { p.ram with bytes := p.ram.bytes.write64 (e.offset a) v } }) := by
  rw [Soc.bypassWrite_claimed ht, Soc.transferWrite, hd]
  exact congrArg (fun r => (true, { p.countWrite with ram := r })) (p.ram.transferWrite_inside hin v)

/-! ## Command fetch (R275 to R277) -/

/-- The command in the 64 bytes at an offset of RAM (R275). -/
def Memory.commandAt (m : Memory) (off : Nat) : Pending where
  valid := true
  opcode := m.read off
  prp1 := join64 fun k => m.read (off + (24 + k))
  lba := m.read (off + 43) ++ m.read (off + 42) ++ m.read (off + 41) ++ m.read (off + 40)
  nblocks := m.read (off + 51) ++ m.read (off + 50) ++ m.read (off + 49) ++ m.read (off + 48)

/-- The command from the quadwords of its slot (R277). -/
theorem Memory.commandAt_eq (m : Memory) (off : Nat) :
    m.commandAt off =
      ⟨true, (m.read64 off).extractLsb' 0 8, m.read64 (off + 24), (m.read64 (off + 40)).extractLsb' 0 32,
        (m.read64 (off + 48)).extractLsb' 0 32⟩ := by
  have opcode : (m.read64 off).extractLsb' 0 8 = m.read off :=
    byteOf_join64 (fun k => m.read (off + k)) (by decide : 0 < 8)
  have dword (a : Nat) : (m.read64 a).extractLsb' 0 32 = wordOfBytes (m.read a) (m.read (a + 1)) (m.read (a + 2))
      (m.read (a + 3)) := join64_extractLsb' _
  rw [opcode, dword, dword]
  simp only [Memory.commandAt, wordOfBytes, Memory.read64, Nat.add_assoc, Nat.reduceAdd]

/-- A command fetch from RAM: four bypass reads, and the update of the controller that R277 lists. -/
theorem Soc.fetchCommand_ram {p : Soc} {e : DeviceEntry} (hd : e.device = .ram)
    (hspace : e.base.toNat + e.size ≤ 2 ^ 64) (hin : e.offset p.ctrl.submissionSlot + 56 ≤ e.size)
    (h0 : p.target p.ctrl.submissionSlot = some e) (h24 : p.target (p.ctrl.submissionSlot + 24) = some e)
    (h40 : p.target (p.ctrl.submissionSlot + 40) = some e) (h48 : p.target (p.ctrl.submissionSlot + 48) = some e) :
    p.fetchCommand = { p.countRead.countRead.countRead.countRead with
      ctrl := { p.ctrl with
        pending := p.ram.bytes.commandAt (e.offset p.ctrl.submissionSlot)
        sqHead := nextPointer p.ctrl.sqHead p.cfg.sqDepth
        busyTicks := p.cfg.busyTicks } } := by
  have read {q : Soc} {a : Word} {k : Nat} (hk : k ≤ 48) (ha : a = p.ctrl.submissionSlot + BitVec.ofNat 64 k)
      (ht : q.target a = some e) (hram : q.ram = p.ram) :
      q.bypassRead a = (true, p.ram.bytes.read64 (e.offset p.ctrl.submissionSlot + k), q.countRead) := by
    have offset : e.offset a = e.offset p.ctrl.submissionSlot + k := by
      rw [ha]
      exact offset_add_ofNat (Soc.target_inRange h0).1 hspace (by omega)
    rw [Soc.bypassRead_ram ht hd (by omega), offset, hram]
  have r0 := Soc.bypassRead_ram h0 hd (by omega)
  have r24 := read (q := p.countRead) (a := p.ctrl.submissionSlot + 24) (k := 24) (by decide) rfl h24 rfl
  have r40 := read (q := p.countRead.countRead) (a := p.ctrl.submissionSlot + 40) (k := 40) (by decide) rfl h40 rfl
  have r48 := read (q := p.countRead.countRead.countRead) (a := p.ctrl.submissionSlot + 48) (k := 48) (by decide) rfl
    h48 rfl
  simp only [Soc.fetchCommand, r0, r24, r40, r48, Memory.commandAt_eq]
  rfl

/-- The machine once SQ0TDBL holds a new tail (R276). -/
def Soc.withTail (p : Soc) (tail : BitVec 32) : Soc := { p with ctrl := { p.ctrl with sqTail := tail } }

theorem Soc.controllerWrite_doorbell (p : Soc) (v : Word) :
    p.controllerWrite 0x1000 v = (p.withTail (v.extractLsb' 0 32)).ringSubmission := rfl

/-- Settles O54: the write stores the tail, and R276's condition decides on the fetch. -/
theorem doorbellFetchesCommand : Obligations.DoorbellFetchesCommand := by
  intro p v e tail slot off byte hd hspace hin h0 h24 h40 h48
  rw [Soc.controllerWrite_doorbell]
  refine ⟨fun hready hidle htail => ?_, fun hbusy => if_neg ?_⟩
  · have fetched : (p.withTail tail).ringSubmission = (p.withTail tail).fetchCommand :=
      if_pos (by simp [Soc.withTail, Ctrl.ready, checkBit, hready, hidle, htail])
    rw [fetched, Soc.fetchCommand_ram (p := p.withTail tail) hd hspace hin h0 h24 h40 h48]
    exact ⟨rfl, rfl, rfl⟩
  · rcases hbusy with hready | hvalid
    · have notReady : (p.withTail tail).ctrl.ready = false := hready
      simp [tail, notReady]
    · simp [Soc.withTail, hvalid]

/-! ## DMA in RAM (R281, R282) -/

theorem dmaWords_length : dmaWords.length = 512 := List.length_range

/-- Words of a DMA buffer at `base` that lie in the RAM device `e`. -/
structure Soc.DmaInRam (p : Soc) (e : DeviceEntry) (base : Word) (words : List Nat) : Prop where
  device : e.device = .ram
  targets : ∀ i ∈ words, p.target (base + BitVec.ofNat 64 (8 * i)) = some e
  offsets : ∀ i ∈ words, e.offset (base + BitVec.ofNat 64 (8 * i)) = e.offset base + 8 * i
  inside : ∀ i ∈ words, e.offset base + 8 * i + 8 ≤ e.size

theorem Soc.DmaInRam.tail {p : Soc} {e : DeviceEntry} {base : Word} {i : Nat} {rest : List Nat}
    (h : p.DmaInRam e base (i :: rest)) {q : Soc} (hcfg : q.cfg = p.cfg) : q.DmaInRam e base rest where
  device := h.device
  targets j hj := by simpa only [Soc.target, hcfg] using h.targets j (List.mem_cons_of_mem i hj)
  offsets j hj := h.offsets j (List.mem_cons_of_mem i hj)
  inside j hj := h.inside j (List.mem_cons_of_mem i hj)

theorem Soc.DmaInRam.head {p : Soc} {e : DeviceEntry} {base : Word} {i : Nat} {rest : List Nat}
    (h : p.DmaInRam e base (i :: rest)) :
    p.target (base + BitVec.ofNat 64 (8 * i)) = some e ∧
      e.offset (base + BitVec.ofNat 64 (8 * i)) = e.offset base + 8 * i ∧ e.offset base + 8 * i + 8 ≤ e.size :=
  ⟨h.targets i List.mem_cons_self, h.offsets i List.mem_cons_self, h.inside i List.mem_cons_self⟩

/-- The 4096-byte block at `base`, which a command moves. -/
theorem Soc.dmaInRam_block {p : Soc} {e : DeviceEntry} {base : Word} (hd : e.device = .ram)
    (hspace : e.base.toNat + e.size ≤ 2 ^ 64) (hin : e.offset base + 4096 ≤ e.size)
    (ht : ∀ i < 512, p.target (base + BitVec.ofNat 64 (8 * i)) = some e) : p.DmaInRam e base dmaWords := by
  have below {i : Nat} (hi : i ∈ dmaWords) : i < 512 := List.mem_range.mp hi
  have hbase : e.base.toNat ≤ base.toNat := by
    have := (Soc.target_inRange (ht 0 (by decide))).1
    simpa using this
  refine ⟨hd, fun i hi => ht i (below hi), fun i hi => ?_, fun i hi => ?_⟩
  · have := below hi
    exact offset_add_ofNat hbase hspace (by omega)
  · have := below hi
    omega

/-- The machine after `n` more read handler calls (D7). -/
def Soc.countReads (p : Soc) (n : Nat) : Soc :=
  { p with bus := { p.bus with readCount := p.bus.readCount + n } }

theorem Soc.countRead_countReads (p : Soc) (n : Nat) : p.countRead.countReads n = p.countReads (n + 1) := by
  simp only [Soc.countReads, Soc.countRead, Nat.add_assoc, Nat.add_comm 1 n]

/-- The reads of a DMA give the bytes of their words in order, and count. -/
theorem Soc.dmaRead_ram {e : DeviceEntry} {base : Word} {words : List Nat} {p : Soc} (h : p.DmaInRam e base words) :
    p.dmaRead base words =
      (some (words.flatMap fun i => bytesOf64 (p.ram.bytes.read64 (e.offset base + 8 * i))),
        p.countReads words.length) := by
  induction words generalizing p with
  | nil => rfl
  | cons i rest ih =>
    obtain ⟨ht, hoffset, hin⟩ := h.head
    have read := Soc.bypassRead_ram ht h.device (by rw [hoffset]; exact hin)
    rw [hoffset] at read
    simp only [Soc.dmaRead, read, ih (h.tail (q := p.countRead) rfl), Soc.countRead_countReads, List.flatMap_cons,
      List.length_cons]
    rfl

/-- The bytes of RAM after the writes of a DMA, in order. -/
def Memory.writeWords (m : Memory) (off : Nat) (buffer : List Byte) (words : List Nat) : Memory :=
  words.foldl (fun m i => m.write64 (off + 8 * i) (wordAt buffer i)) m

theorem Memory.wf_writeWords {m : Memory} (h : Memory.wf m) (off : Nat) (buffer : List Byte) (words : List Nat) :
    Memory.wf (m.writeWords off buffer words) := by
  induction words generalizing m with
  | nil => exact h
  | cons i rest ih => exact ih (Memory.wf_write64 h _ _)

/-- The first `n` words written are the first `8 n` bytes of the buffer, zeros past its end. -/
theorem Memory.read_writeWords {m : Memory} (h : Memory.wf m) (off : Nat) (buffer : List Byte) (n a : Nat) :
    (m.writeWords off buffer (List.range n)).read a =
      if off ≤ a ∧ a < off + 8 * n then buffer.getD (a - off) 0 else m.read a := by
  induction n with
  | zero => rw [if_neg (by omega)]; rfl
  | succ n ih =>
    have last : m.writeWords off buffer (List.range (n + 1)) =
        (m.writeWords off buffer (List.range n)).write64 (off + 8 * n) (wordAt buffer n) := by
      simp only [Memory.writeWords, List.range_succ, List.foldl_append, List.foldl_cons, List.foldl_nil]
    rw [last, Memory.read_write64 (Memory.wf_writeWords h _ _ _), ih]
    by_cases hlast : off + 8 * n ≤ a ∧ a < off + 8 * n + 8
    · rw [if_pos hlast, if_pos (by omega), byteOf_wordAt _ _ (by omega)]
      congr 1
      omega
    · rw [if_neg hlast]
      by_cases hbefore : off ≤ a ∧ a < off + 8 * n
      · rw [if_pos hbefore, if_pos (by omega)]
      · rw [if_neg hbefore, if_neg (by omega)]

/-- The machine after the writes of a DMA to a buffer at an offset of RAM (R57, R282). -/
def Soc.dmaWritten (p : Soc) (off : Nat) (buffer : List Byte) (words : List Nat) : Soc :=
  { p with
    ram := { p.ram with bytes := p.ram.bytes.writeWords off buffer words }
    bus := { p.bus with writeCount := p.bus.writeCount + words.length } }

theorem Soc.dmaWritten_bytes (p : Soc) (off : Nat) (buffer : List Byte) (words : List Nat) :
    (p.dmaWritten off buffer words).ram.bytes = p.ram.bytes.writeWords off buffer words := rfl

/-- Writes to RAM leave the controller, the storage stack and the configuration alone. -/
theorem Soc.dmaWritten_calm (p : Soc) (off : Nat) (buffer : List Byte) (words : List Nat) :
    p.Calm (p.dmaWritten off buffer words) := ⟨rfl, rfl, rfl⟩

/-- The writes of a DMA change the words' bytes of RAM, and a traffic counter. -/
theorem Soc.dmaWrite_ram {e : DeviceEntry} {base : Word} {words : List Nat} {p : Soc} (h : p.DmaInRam e base words)
    (buffer : List Byte) :
    p.dmaWrite base buffer words = (true, p.dmaWritten (e.offset base) buffer words) := by
  induction words generalizing p with
  | nil => rfl
  | cons i rest ih =>
    obtain ⟨ht, hoffset, hin⟩ := h.head
    have write := Soc.bypassWrite_ram ht h.device (by rw [hoffset]; exact hin) (wordAt buffer i)
    rw [hoffset] at write
    simp only [Soc.dmaWrite, write]
    rw [ih (h.tail (by rfl))]
    simp only [Soc.dmaWritten, Soc.countWrite, Memory.writeWords, List.foldl_cons, List.length_cons, Nat.add_assoc,
      Nat.add_comm 1 rest.length]

/-! ## Commands (R279 to R282) -/

/-- The status code of a completion: 0 on success, else the error code (R279). -/
def Soc.statusCode (p : Soc) (status : Status) : BitVec 15 :=
  if status = .success then 0 else p.cfg.scInternalError

/-- A Write command whose bypass reads succeed hands their bytes to the FTL (R281). -/
theorem Soc.executeWrite_of_dmaRead {p q : Soc} {buffer : List Byte}
    (h : p.dmaRead p.ctrl.pending.prp1 dmaWords = (some buffer, q)) :
    p.executeWrite = (q.statusCode (q.storage.write p.ctrl.pending.lba buffer).1,
      { q with storage := (q.storage.write p.ctrl.pending.lba buffer).2 }) := by
  unfold Soc.executeWrite
  generalize dmaWords = words at h ⊢
  simp only [h]
  cases hw : q.storage.write p.ctrl.pending.lba buffer with
  | mk status st => cases status <;> rfl

/-- A Write command whose buffer lies in RAM hands the buffer's bytes to the FTL (R281). -/
theorem Soc.executeWrite_ram {p : Soc} {e : DeviceEntry} (h : p.DmaInRam e p.ctrl.pending.prp1 dmaWords) :
    let off := e.offset p.ctrl.pending.prp1
    let done := p.storage.write p.ctrl.pending.lba ((List.range 4096).map fun k => p.ram.bytes.read (off + k))
    p.executeWrite = (p.statusCode done.1, { p.countReads 512 with storage := done.2 }) := by
  intro off done
  have buffer : (dmaWords.flatMap fun i => bytesOf64 (p.ram.bytes.read64 (off + 8 * i))) =
      (List.range 4096).map fun k => p.ram.bytes.read (off + k) := by
    have block := flatMap_range_eight (fun k => p.ram.bytes.read (off + k)) 512
    simpa only [dmaWords, Memory.read64, bytesOf64_join64, Nat.add_assoc, Nat.reduceMul] using block
  have read := Soc.dmaRead_ram h
  rw [buffer, dmaWords_length] at read
  exact Soc.executeWrite_of_dmaRead read

/-- A Read command whose buffer lies in RAM and whose LBA the FTL can read (R282). -/
theorem Soc.executeRead_ram {p : Soc} {e : DeviceEntry} (h : p.DmaInRam e p.ctrl.pending.prp1 dmaWords)
    {data : List Byte} (hread : p.storage.read p.ctrl.pending.lba = (.success, data)) :
    p.executeRead = (0, p.dmaWritten (e.offset p.ctrl.pending.prp1) data dmaWords) := by
  simp only [Soc.executeRead, hread, Soc.dmaWrite_ram h]

/-- The eight bytes of a completion (R279, D27). -/
def completionWord (sc : BitVec 15) : Word := statusDword sc ++ (0 : BitVec 32)

/-- A completion whose entry lies in RAM. -/
theorem Soc.postCompletion_ram {p : Soc} {e : DeviceEntry} (hd : e.device = .ram)
    (ht : p.target p.ctrl.completionAddress = some e) (hin : e.offset p.ctrl.completionAddress + 8 ≤ e.size)
    (sc : BitVec 15) :
    p.postCompletion sc = { p.countWrite with
      ram := { p.ram with bytes := p.ram.bytes.write64 (e.offset p.ctrl.completionAddress) (completionWord sc) }
      ctrl := { p.ctrl with cqTail := nextPointer p.ctrl.cqTail p.cfg.cqDepth } } := by
  simp only [Soc.postCompletion, setWidth_shiftLeft_eq_append, Soc.bypassWrite_ram ht hd hin]
  rfl

/-- The machine with the controller's busy time over. -/
def Soc.due (p : Soc) : Soc := { p with ctrl := { p.ctrl with busyTicks := 0 } }

theorem Soc.due_ram (p : Soc) : p.due.ram = p.ram := rfl

/-- The tick that ends the busy time completes the command (R280). -/
theorem Soc.controllerTick_due {p : Soc} (hv : p.ctrl.pending.valid = true) (hb : p.ctrl.busyTicks ≤ 1) :
    p.controllerTick = p.due.completeCommand := by
  have elapsed : p.ctrl.busyTicks - 1 = 0 := by omega
  simp only [Soc.controllerTick, hv, elapsed, if_true, Soc.due]

/-- The controller after the completion of its command (R280). -/
def Ctrl.completed (c : Ctrl) (depth : Nat) : Ctrl :=
  { c with
    busyTicks := 0
    cqTail := nextPointer c.cqTail depth
    pending := { c.pending with valid := false } }

/-- The tick that ends the busy time, from the status code and the machine that the execution of the command gives. -/
theorem Soc.controllerTick_completes {p q : Soc} {e : DeviceEntry} {sc : BitVec 15}
    (hv : p.ctrl.pending.valid = true) (hb : p.ctrl.busyTicks ≤ 1) (hexec : p.due.executeCommand = (sc, q))
    (hctrl : q.ctrl = p.due.ctrl) (hcfg : q.cfg = p.cfg) (hd : e.device = .ram)
    (ht : p.target p.ctrl.completionAddress = some e) (hin : e.offset p.ctrl.completionAddress + 8 ≤ e.size) :
    p.controllerTick.storage = q.storage ∧
      p.controllerTick.ram = { q.ram with
        bytes := q.ram.bytes.write64 (e.offset p.ctrl.completionAddress) (completionWord sc) } ∧
      p.controllerTick.ctrl = p.ctrl.completed p.cfg.cqDepth := by
  have address : q.ctrl.completionAddress = p.ctrl.completionAddress := by rw [hctrl]; rfl
  have target : q.target q.ctrl.completionAddress = some e := by
    rw [address]
    simpa only [Soc.target, hcfg] using ht
  have posted := Soc.postCompletion_ram hd target (by rw [address]; exact hin) sc
  rw [Soc.controllerTick_due hv hb, Soc.completeCommand, hexec]
  dsimp only
  rw [posted, address, hctrl, hcfg]
  exact ⟨rfl, rfl, rfl⟩

/-- Settles O55: the FTL is given the buffer's bytes, and its status decides the completion. -/
theorem writeCommand : Obligations.WriteCommand := by
  intro p e base off entry buffer done sc hv hop hb hd hspace hin hbuffer hentry hpost q
  have dma : p.due.DmaInRam e base dmaWords := Soc.dmaInRam_block hd hspace hin hbuffer
  have hexec : p.due.executeCommand = (sc, { p.due.countReads 512 with storage := done.2 }) :=
    (if_pos hop).trans (Soc.executeWrite_ram dma)
  exact Soc.controllerTick_completes hv hb hexec rfl rfl hd hentry hpost

/-- The bytes of the completion of a command that succeeded: 0 but for the lowest of the upper half (D27). -/
theorem byteOf_completionWord_zero {k : Nat} (hk : k < 8) : byteOf (completionWord 0) k = if k = 4 then 1 else 0 := by
  interval_cases k <;> decide

/-- Settles O56: the DMA's bytes, and the completion's over them where they overlap. -/
theorem readCommand : Obligations.ReadCommand := by
  intro p e data base off entry post hv hop hb hread hwf hd hspace hin hbuffer hentry hpost
  have dma : p.due.DmaInRam e base dmaWords := Soc.dmaInRam_block hd hspace hin hbuffer
  have hop1 : p.due.ctrl.pending.opcode ≠ 0x01 := fun h => absurd (hop.symm.trans h) (by decide)
  have hcommand : p.due.executeCommand = p.due.executeRead := (if_neg hop1).trans (if_pos hop)
  have hexec : p.due.executeCommand = (0, p.due.dmaWritten off data dmaWords) :=
    hcommand.trans (Soc.executeRead_ram dma hread)
  have calm := p.due.dmaWritten_calm off data dmaWords
  obtain ⟨hstorage, hram, hctrl⟩ := Soc.controllerTick_completes hv hb hexec calm.ctrl calm.cfg hd hentry hpost
  generalize p.controllerTick = q at hstorage hram hctrl ⊢
  refine ⟨hstorage.trans calm.storage, fun a => ?_, hctrl⟩
  have address : e.offset p.ctrl.completionAddress = post := rfl
  have hposted : q.ram.bytes = (p.ram.bytes.writeWords off data dmaWords).write64 post (completionWord 0) := by
    simp only [hram, address, Soc.dmaWritten_bytes, Soc.due_ram]
  have hwritten : Memory.wf (p.ram.bytes.writeWords off data dmaWords) := Memory.wf_writeWords hwf off data dmaWords
  have hbuffered : (p.ram.bytes.writeWords off data dmaWords).read a =
      if off ≤ a ∧ a < off + 4096 then data.getD (a - off) 0 else p.ram.bytes.read a :=
    Memory.read_writeWords hwf off data 512 a
  rw [hposted, Memory.read_write64 hwritten, hbuffered]
  by_cases inEntry : post ≤ a ∧ a < post + 8
  · rw [if_pos inEntry, if_pos inEntry, byteOf_completionWord_zero (by omega)]
    by_cases h4 : a = post + 4
    · rw [if_pos h4, if_pos (by omega)]
    · rw [if_neg h4, if_neg (by omega)]
  · rw [if_neg inEntry, if_neg inEntry]

end Sys2Proof.Machine
end

section
/-! PROOFS. Steps that do not retire (60_exceptions.md R350 to R353): the stuck state that an address without a device
leads to and that every later step keeps, and the two refusals, which are all else that a step can answer. -/

namespace Sys2Proof.Machine

/-! ## The stuck state (R353) -/

/-- A request that no device claims, after its cycle: the decode failure, and the ticks (R53). -/
def Soc.unanswered (p : Soc) : Soc := Soc.deviceTicks { p with bus := p.bus.busFailure }

/-- The lines and signals after such a cycle: the request as it was, with Error and Wait. -/
structure Soc.Unanswered (p q : Soc) : Prop where
  address : q.bus.address = p.bus.address
  data : q.bus.data = p.bus.data
  read : q.bus.read = p.bus.read
  write : q.bus.write = p.bus.write
  error : q.bus.error = true
  wait : q.bus.wait = true
  target : ∀ a, q.target a = p.target a

theorem Soc.unanswered_lines (p : Soc) : p.Unanswered p.unanswered :=
  have ticks := Soc.deviceTicks_ticks { p with bus := p.bus.busFailure }
  ⟨ticks.address, ticks.data, ticks.read, ticks.write, ticks.error, ticks.wait, ticks.target⟩

theorem Soc.keepsMemory_unanswered {p : Soc} (h : p.quiet) : p.KeepsMemory p.unanswered :=
  ((Soc.KeepsMemory.refl p).withBus _).deviceTicks h

/-- Stuck is waiting, with Wait, on a request for an address that no device claims. -/
theorem stuck_iff (s : State) :
    s.stuck = true ↔ s.waiting = true ∧ s.soc.bus.wait = true ∧ (s.soc.bus.read || s.soc.bus.write) = true ∧
      s.soc.target s.soc.bus.address = none := by
  simp only [State.stuck, Soc.claimed, Bool.and_eq_true, Bool.not_eq_true', Option.isSome_eq_false_iff,
    Option.isNone_iff_eq_none, and_assoc]

/-- A CPU in a waiting micro-op is stuck once its request has gone unanswered. -/
theorem stuck_of_unanswered {c : Cpu} {p : Soc} (hw : State.waiting ⟨c, p.unanswered⟩ = true)
    (one : p.bus.read ≠ p.bus.write) (ht : p.target p.bus.address = none) : State.stuck ⟨c, p.unanswered⟩ = true := by
  have lines := p.unanswered_lines
  refine (stuck_iff _).mpr ⟨hw, lines.wait, ?_, ?_⟩
  · show (p.unanswered.bus.read || p.unanswered.bus.write) = true
    rw [lines.read, lines.write]
    cases hr : p.bus.read <;> cases hwr : p.bus.write <;> simp_all
  · show p.unanswered.target p.unanswered.bus.address = none
    rw [lines.address, lines.target, ht]

/-- What a quiet machine has kept once a request went unanswered that itself kept memory. -/
theorem unanswered_keeps {s : State} {p : Soc} (h : s.soc.quiet → s.soc.KeepsMemory p) (hq : s.soc.quiet) :
    p.unanswered.ram.bytes = s.soc.ram.bytes ∧ p.unanswered.scratch.bytes = s.soc.scratch.bytes ∧
      p.unanswered.ctrl = s.soc.ctrl ∧ p.unanswered.storage = s.soc.storage :=
  have kept := (h hq).trans (Soc.keepsMemory_unanswered ((h hq).calm.quiet hq))
  ⟨kept.ramBytes, kept.scratchBytes, kept.calm.ctrl, kept.calm.storage⟩

/-- A running CPU in Memory micro-op 1 waits (R127). -/
theorem waiting_inMemory {c : Cpu} (h : c.halted = false) (rn : RegIdx) (imm : Word) (p : Soc) :
    State.waiting ⟨c.inMemory rn imm, p⟩ = true := by
  simp [State.waiting, Cpu.inMemory, h]

/-- At an instruction's start the CPU runs and is in Fetch micro-op 0. -/
theorem atInstructionStart_iff (s : State) :
    s.atInstructionStart = true ↔ s.cpu.halted = false ∧ s.cpu.stage = .fetch ∧ s.cpu.uop = 0 := by
  simp only [State.atInstructionStart, Bool.and_eq_true, Bool.not_eq_true', beq_iff_eq, and_assoc]

/-- At an instruction's start, a step is the fetch and what follows it. -/
theorem step_of_atInstructionStart {s : State} (h : s.atInstructionStart = true) :
    step s = andThen s.fetch State.runFetched :=
  if_pos h

/-- A step whose fetch no device claims ends in Fetch micro-op 1 (R353). -/
theorem step_unclaimed {s : State} (h : s.atInstructionStart = true) (ha : s.cpu.pc.toNat % 4 = 0)
    (ht : s.soc.target s.cpu.pc = none) :
    step s = .next ⟨{ s.cpu with uop := 1 }, (s.soc.fetchRequest s.cpu.pc).unanswered⟩ := by
  have hstage : s.cpu.stage ≠ .decode := by simp [((atInstructionStart_iff s).mp h).2.1]
  rw [step_of_atInstructionStart h, fetch_unclaimed ha ht, andThen_next]
  exact if_neg hstage

/-- Settles O25: each of the three requests goes unanswered, and the CPU waits for it. -/
theorem unmappedAccessSticks : Obligations.UnmappedAccessSticks := by
  constructor
  · intro s rd rn rm imm hi hrun ht waiting failed
    have ticks := s.soc.afterTicks_ticks 2
    have idle := ticks.busIdle hi
    have unclaimed : (Soc.afterTicks 2 s.soc).target (s.effectiveAddress rn imm) = none := (ticks.target _).trans ht
    constructor
    · obtain ⟨_, hexec, rfl⟩ := load_unclaimed hi rd rn imm ht
      have lines := (s.loadRequested rn imm).unanswered_lines
      refine ⟨_, hexec, ⟨?_, rfl, lines.address, lines.error, lines.wait, ?_⟩, lines.read, lines.write.trans idle.2⟩
      · exact stuck_of_unanswered (waiting_inMemory hrun rn imm _) (Soc.loadRequest_one idle _) unclaimed
      · exact unanswered_keeps fun hq => State.keepsMemory_loadRequested hq rn imm
    · obtain ⟨_, hexec, rfl⟩ := store_unclaimed hi rd rn imm ht
      have lines := (s.storeRequested rd rn imm).unanswered_lines
      refine ⟨_, hexec, ⟨?_, rfl, lines.address, lines.error, lines.wait, ?_⟩, lines.read.trans idle.1, lines.write,
        lines.data⟩
      · exact stuck_of_unanswered (waiting_inMemory hrun rn imm _) (Soc.storeRequest_one idle _ _) unclaimed
      · exact unanswered_keeps fun hq => State.keepsMemory_storeRequested hq rd rn imm
  · intro s h ha ht
    obtain ⟨hrun, hstage, -⟩ := (atInstructionStart_iff s).mp h
    have lines := (s.soc.fetchRequest s.cpu.pc).unanswered_lines
    refine ⟨_, step_unclaimed h ha ht, ?_, rfl, lines.address, lines.error, lines.wait, lines.read, lines.write, ?_⟩
    · exact stuck_of_unanswered (by simp [State.waiting, hrun, hstage]) (s.soc.fetchRequest_one _) ht
    · exact unanswered_keeps fun _ => (Soc.KeepsMemory.refl s.soc).withBus _

/-- A waiting CPU is not at an instruction's start. -/
theorem atInstructionStart_of_waiting {s : State} (h : s.waiting = true) : s.atInstructionStart = false := by
  simp only [State.waiting, Bool.and_eq_true, beq_iff_eq] at h
  simp [State.atInstructionStart, h.1.2]

/-- Settles O26: the CPU sees Wait, and its request goes unanswered again. -/
theorem stuckStays : Obligations.StuckStays := by
  intro s hs one
  obtain ⟨hwaiting, hwait, -, ht⟩ := (stuck_iff s).mp hs
  have lines := s.soc.unanswered_lines
  refine ⟨⟨s.cpu, s.soc.unanswered⟩, ?_, stuck_of_unanswered hwaiting one ht, rfl, lines.address, lines.read,
    lines.write, lines.error⟩
  calc step s = cycle s := if_neg (by simp [atInstructionStart_of_waiting hwaiting])
    _ = s.finishCycle := by rw [cycle, cpuTick_waiting hwaiting hwait, andThen_next]
    _ = .next ⟨s.cpu, s.soc.unanswered⟩ := finishCycle_eq (Soc.cycle_unclaimed one ht)

/-! ## What a step can answer (R350) -/

theorem threeCycles_completes {s : State} (h : s.soc.busIdle) {d e w : State → State} (hd : ∀ t, (d t).soc = t.soc)
    (he : ∀ t, (e t).soc = t.soc) (hw : ∀ t, (w t).soc = t.soc) : ∃ t, s.threeCycles d e w = .next t :=
  (threeCycles_idle h hd he hw).imp' _ fun _ ht => ht.1

theorem branchInstruction_completes {s : State} (h : s.soc.busIdle) (imm : Word) (taken : Flags → Bool) :
    ∃ t, s.branchInstruction imm taken = .next t := by
  cases ht : taken s.cpu.flags with
  | true => exact ⟨_, branchInstruction_taken h imm ht⟩
  | false => exact ⟨_, branchInstruction_not_taken h imm ht⟩

theorem execLdr_completes {s : State} (h : s.soc.busIdle) (rd rn : RegIdx) (imm : Word) :
    ∃ t, execLdr rd rn imm s = .next t := by
  cases ht : s.soc.target (s.effectiveAddress rn imm) with
  | none =>
    obtain ⟨_, hexec, -⟩ := load_unclaimed h rd rn imm ht
    exact ⟨_, hexec⟩
  | some e =>
    obtain ⟨_, hexec, -⟩ :=
      load_claimed h rd rn imm ht (fun _ => True) (fun _ _ => trivial) (fun _ _ _ _ _ _ => trivial)
    exact ⟨_, hexec⟩

theorem execStr_completes {s : State} (h : s.soc.busIdle) (rd rn : RegIdx) (imm : Word) :
    ∃ t, execStr rd rn imm s = .next t := by
  cases ht : s.soc.target (s.effectiveAddress rn imm) with
  | none =>
    obtain ⟨_, hexec, -⟩ := store_unclaimed h rd rn imm ht
    exact ⟨_, hexec⟩
  | some e =>
    obtain ⟨_, hexec, -⟩ :=
      store_claimed h rd rn imm ht (fun _ => True) (fun _ _ => trivial) (fun _ _ _ _ _ _ => trivial)
    exact ⟨_, hexec⟩

/-- Every instruction answers a next state on an idle bus. -/
theorem exec_completes {s : State} (h : s.soc.busIdle) (i : Instr) : ∃ t, exec i s = .next t := by
  cases i with
  | ldr rd rn _ imm => exact execLdr_completes h rd rn imm
  | str rd rn _ imm => exact execStr_completes h rd rn imm
  | b | beq | bne =>
    simp only [exec, execB, execBeq, execBne]
    exact branchInstruction_completes h _ _
  | halt _ rn rm _ => exact ⟨_, execHalt_idle h rn rm⟩
  | nop | add | sub | and | or | xor | lsl | lsr | asr | cmp | mov =>
    simp only [exec, execNop, execAdd, execSub, execAnd, execOr, execXor, execLsl, execLsr, execAsr, execCmp, execMov,
      State.aluInstruction]
    exact threeCycles_completes h (fun _ => rfl) (fun _ => rfl) (fun _ => rfl)

/-- A field whose opcode is reserved is the reserved one. -/
theorem field_of_ofField_eq_reserved {f g : BitVec 6} (h : Op.ofField g = .reserved f) : g = f := by
  have hg := Op.tag_ofField g
  rw [h] at hg
  calc g = (f.setWidth 8).setWidth 6 := hg.symm
    _ = f.setWidth 6 := f.setWidth_setWidth_of_le (by decide)
    _ = f := f.setWidth_eq

/-- The outcomes that a step has at an aligned `pc`. -/
def Completes (o : Out) : Prop :=
  (∃ t, o = .next t) ∨ ∃ f, Op.ofField f = .reserved f ∧ o = .refused (.reservedOpcode f)

/-- What follows a fetch that latched a word (R96, R99). -/
theorem runFetched_completes {f : State} {w : InstrWord} (hstage : f.cpu.stage = .decode)
    (hinstr : f.cpu.instr = decode w) (hidle : f.soc.busIdle) : Completes f.runFetched := by
  unfold State.runFetched
  rw [if_pos hstage, hinstr]
  rcases decoded_instr_cases (decode w) with ⟨i, hi, -⟩ | ⟨g, hg, hop⟩
  · rw [hi]
    exact .inl (exec_completes hidle i)
  · rw [hg]
    have hop : Op.ofField (w.extractLsb' 26 6) = .reserved g := hop
    rw [field_of_ofField_eq_reserved hop] at hop
    exact .inr ⟨g, hop, rfl⟩

theorem step_completes {s : State} (h : s.atInstructionStart = true) (ha : s.cpu.pc.toNat % 4 = 0) :
    Completes (step s) := by
  cases ht : s.soc.target s.cpu.pc with
  | none => exact .inl ⟨_, step_unclaimed h ha ht⟩
  | some e =>
    obtain ⟨q, hfetch, -, -, hserved, -⟩ :=
      fetch_claimed ha ht (fun _ => True) (fun _ _ => trivial) (fun _ _ _ _ _ _ => trivial)
    rw [step_of_atInstructionStart h, hfetch, andThen_next]
    exact runFetched_completes rfl rfl ((Soc.deviceTicks_ticks _).busIdle ⟨rfl, hserved.write⟩)

theorem step_unaligned {s : State} (h : s.atInstructionStart = true) (ha : s.cpu.pc.toNat % 4 ≠ 0) :
    step s = .refused (.unalignedFetch s.cpu.pc) := by
  rw [step_of_atInstructionStart h, fetch_unaligned ha, andThen_refused]

/-- Four bytes with a reserved opcode are those of a word that has it (R90). -/
theorem decodeWord_of_decodeBytes_error {b0 b1 b2 b3 : Byte} {e : DecodeError}
    (h : decodeBytes [b0, b1, b2, b3] = .error e) : decodeWord (wordOfBytes b0 b1 b2 b3) = .error e := by
  cases hword : decodeWord (wordOfBytes b0 b1 b2 b3) with
  | ok j => simp only [decodeBytes, hword] at h; cases h
  | error err => simp only [decodeBytes, hword] at h; cases h; rfl

/-- The step of a reserved opcode in RAM (R99, U1). -/
theorem step_reserved {s : State} {e : DeviceEntry} {f : BitVec 6} (h : s.atInstructionStart = true)
    (ha : s.cpu.pc.toNat % 4 = 0) (hs : s.soc.servedByRam s.cpu.pc e) (hq : s.soc.quiet)
    (hop : (decode (s.soc.fetchedWord e s.cpu.pc)).op = .reserved f) : step s = .refused (.reservedOpcode f) := by
  obtain ⟨g, hfetch, hcpu, -⟩ := fetch_ram ha hs hq
  have hinstr : g.cpu.instr.instr = .error f := by
    rw [hcpu]
    exact (Decoded.instr_eq_error_iff _ f).mpr hop
  rw [step_of_atInstructionStart h, hfetch, andThen_next, State.runFetched, if_pos (by rw [hcpu]), hinstr]

/-- Settles O30: an unaligned `pc` is refused before the fetch, and at an aligned one only the opcode can be. -/
theorem stepOutcomes : Obligations.StepOutcomes := by
  intro s h
  refine ⟨fun r hr => ?_, step_unaligned h, fun r hr => ?_, ?_⟩
  · by_cases ha : s.cpu.pc.toNat % 4 = 0
    · rcases step_completes h ha with ⟨t, ht⟩ | ⟨f, -, hf⟩
      · cases ht.symm.trans hr
      · cases hf.symm.trans hr
    · cases (step_unaligned h ha).symm.trans hr
  · by_cases ha : s.cpu.pc.toNat % 4 = 0
    · rcases step_completes h ha with ⟨t, ht⟩ | ⟨f, hop, hf⟩
      · cases ht.symm.trans hr
      · cases hf.symm.trans hr
        exact .inr ⟨f, rfl, hop⟩
    · cases (step_unaligned h ha).symm.trans hr
      exact .inl ⟨rfl, ha⟩
  · intro e f ha hs hq off hin hbytes
    refine step_reserved h ha hs hq ((decodeWord_eq_reserved_iff _ f).mp ?_)
    have hram : s.soc.ramOf e.device = s.soc.ram := by rw [hs.2.1]; rfl
    rw [Soc.fetchedWord, Soc.ramValue, hram, Ram.transferRead_inside (off := e.offset s.cpu.pc) _ hin,
      Memory.read64, join64_extractLsb']
    exact decodeWord_of_decodeBytes_error hbytes

end Sys2Proof.Machine
end

section
/-! PROOFS. The peripherals (60_exceptions.md R359 to R366): what a load or a store at one of them leaves, and the PIC's
choice among the pending lines. -/

namespace Sys2Proof.Machine

/-! ## The PIC (R359, R363) -/

/-- A bit vector is not zero exactly if one of its bits is set. -/
theorem ne_zero_iff_exists_bit {w : Nat} (v : BitVec w) : v ≠ 0 ↔ ∃ i : Fin w, v.getLsbD i = true := by
  constructor
  · intro h
    have hbit : v.getLsbD v.ctz.toNat = true := BitVec.getLsbD_true_ctz_of_ne_zero h
    exact ⟨⟨v.ctz.toNat, BitVec.lt_of_getLsbD hbit⟩, hbit⟩
  · rintro ⟨i, hi⟩ rfl
    simp at hi

/-- The lowest pending line is found in rising order (R359). -/
theorem Pic.lowestPendingLine_eq_find? (p : Pic) :
    p.lowestPendingLine = Fin.find? fun i => (p.status &&& p.enable).getLsbD i :=
  Fin.find?_eq_find?_finRange.symm

/-- Settles O57: the first line that `find?` meets, and a bit vector that is not zero. -/
theorem interruptPriority : Obligations.InterruptPriority := by
  intro p
  refine ⟨fun i => by rw [Pic.lowestPendingLine_eq_find?, Fin.find?_eq_some_iff], ?_⟩
  rw [Pic.pending, bne_iff_ne]
  exact ne_zero_iff_exists_bit _

/-- Writing a word to IRQ_ACK clears the bits written as 1 (R363). -/
theorem Pic.acknowledge_status (p : Pic) (word : Word) (line : Nat) :
    (p.acknowledge word).status.getLsbD line = (p.status.getLsbD line && !word.getLsbD line) := by
  have hwidth : p.status.getLsbD line = true → line < 16 := BitVec.lt_of_getLsbD
  simp only [Pic.acknowledge, BitVec.getLsbD_and, BitVec.getLsbD_not, BitVec.getLsbD_setWidth]
  cases hline : p.status.getLsbD line with
  | false => rfl
  | true => simp only [hwidth hline, decide_true, Bool.true_and]

/-! ## Registers with a side effect (R365, R366) -/

theorem Peripherals.fifo_afterRead (p : Peripherals) (device : DeviceKind) (off : Nat) :
    (p.afterRead device off).keyboard.fifo =
      if device = .keyboard ∧ off = 0x4 then p.keyboard.fifo.tail else p.keyboard.fifo := by
  cases device
  case keyboard => by_cases h : off = 0x4 <;> simp [Peripherals.afterRead, h]
  case mouse => by_cases h4 : off = 0x4 <;> by_cases h8 : off = 0x8 <;> simp [Peripherals.afterRead, h4, h8]
  all_goals rfl

theorem Peripherals.dataX_afterRead (p : Peripherals) (device : DeviceKind) (off : Nat) :
    (p.afterRead device off).mouse.dataX = if device = .mouse ∧ off = 0x4 then 0 else p.mouse.dataX := by
  cases device
  case keyboard => by_cases h : off = 0x4 <;> simp [Peripherals.afterRead, h]
  case mouse => by_cases h4 : off = 0x4 <;> by_cases h8 : off = 0x8 <;> simp [Peripherals.afterRead, h4, h8]
  all_goals rfl

theorem Peripherals.dataY_afterRead (p : Peripherals) (device : DeviceKind) (off : Nat) :
    (p.afterRead device off).mouse.dataY = if device = .mouse ∧ off = 0x8 then 0 else p.mouse.dataY := by
  cases device
  case keyboard => by_cases h : off = 0x4 <;> simp [Peripherals.afterRead, h]
  case mouse =>
    by_cases h4 : off = 0x4
    · simp [Peripherals.afterRead, h4]
    · by_cases h8 : off = 0x8 <;> simp [Peripherals.afterRead, h4, h8]
  all_goals rfl

/-! ## A cycle with a request to a peripheral (R360) -/

/-- The devices that 60_exceptions.md calls peripherals. -/
abbrev peripheralKinds : List DeviceKind := [.uart, .pic, .timer, .keyboard, .mouse]

theorem ne_ram_of_peripheral {k : DeviceKind} (h : k ∈ peripheralKinds) : k ≠ .ram ∧ k ≠ .scratchRam := by
  revert h
  cases k <;> decide

theorem Soc.transferRead_peripheral (p : Soc) {e : DeviceEntry} (hd : e.device ∈ peripheralKinds) (a : Word) :
    p.transferRead e a = p.peripheralRead e.device (e.offset a) := by
  revert hd
  unfold Soc.transferRead
  cases e.device <;> simp

theorem Soc.transferWrite_peripheral (p : Soc) {e : DeviceEntry} (hd : e.device ∈ peripheralKinds) (a v : Word) :
    p.transferWrite e a v = p.peripheralWrite e.device (e.offset a) v := by
  revert hd
  unfold Soc.transferWrite
  cases e.device <;> simp

/-- A read puts the next free value on the data lines, and has the register's side effect. -/
theorem Soc.cycle_peripheralRead {p q : Soc} {e : DeviceEntry} (hr : p.bus.read = true) (hw : p.bus.write = false)
    (ht : p.target p.bus.address = some e) (hd : e.device ∈ peripheralKinds) (hq : p.quiet) (h : p.cycle = .next q) :
    p.KeepsMemory q ∧ q.bus.data = Config.peripheralRead p.freeCount ∧
      (p.periph.afterRead e.device (e.offset p.bus.address)).Ticked q.periph := by
  obtain ⟨hram, hscratch⟩ := ne_ram_of_peripheral hd
  rw [Soc.cycle_deviceRead hr hw ht hram hscratch, Soc.transferRead_peripheral _ hd, peripheralRead_eq] at h
  cases h
  have answered : p.KeepsMemory { p.countRead with
      periph := p.periph.afterRead e.device (e.offset p.bus.address)
      freeCount := p.freeCount + 1
      bus := { p.countRead.bus with data := Config.peripheralRead p.freeCount, wait := false } } :=
    ⟨⟨rfl, rfl, rfl⟩, fun _ => rfl⟩
  have ticks := Soc.deviceTicks_quiet (answered.calm.quiet hq)
  exact ⟨answered.deviceTicks hq, congrArg Bus.data ticks.bus, ticks.periph⟩

/-- A write changes that peripheral's registers. -/
theorem Soc.cycle_peripheralWrite {p q : Soc} {e : DeviceEntry} (hr : p.bus.read = false) (hw : p.bus.write = true)
    (ht : p.target p.bus.address = some e) (hd : e.device ∈ peripheralKinds) (hq : p.quiet) (h : p.cycle = .next q) :
    p.KeepsMemory q ∧ (p.periph.afterWrite e.device (e.offset p.bus.address) p.bus.data
      (Config.peripheralRegister p.freeCount)).Ticked q.periph := by
  obtain ⟨hram, hscratch⟩ := ne_ram_of_peripheral hd
  rw [Soc.cycle_deviceWrite hr hw ht hram hscratch, Soc.transferWrite_peripheral _ hd, peripheralWrite_eq] at h
  cases h
  have written : p.KeepsMemory { p.countWrite with
      periph := p.periph.afterWrite e.device (e.offset p.bus.address) p.bus.data (Config.peripheralRegister p.freeCount)
      freeCount := p.freeCount + 1
      bus := { p.countWrite.bus with wait := false } } :=
    ⟨⟨rfl, rfl, rfl⟩, fun _ => rfl⟩
  exact ⟨written.deviceTicks hq, (Soc.deviceTicks_quiet (written.calm.quiet hq)).periph⟩

/-! ## LDR and STR at a peripheral -/

/-- Settles O24: the one cycle of the request has the side effect, and the ticks around it keep what is claimed. -/
theorem peripheralAccess : Obligations.PeripheralAccess := by
  intro s rd rn rm imm e hi hq ht hd off kept v
  obtain ⟨hram, hscratch⟩ := ne_ram_of_peripheral hd
  have before := (Soc.afterTicks_quiet 2 hq).periph
  constructor
  · have request := State.keepsMemory_loadRequested hq rn imm
    obtain ⟨q, hexec, hcycle⟩ := load_device hi rd rn imm ht hram hscratch
    obtain ⟨hread, hdata, hperiph⟩ := Soc.cycle_peripheralRead rfl (State.loadRequested_write hi rn imm)
      ((request.calm.target _).trans ht) hd (request.calm.quiet hq) hcycle
    have keeps := (request.trans hread).withBus { q.bus with read := false }
    have after := keeps.afterTicks hq 2
    have ticked := hperiph.trans (Soc.afterTicks_quiet 2 (keeps.calm.quiet hq)).periph
    have hvalue : q.bus.data = v := hdata
    refine ⟨_, hexec, ⟨after.ramBytes, after.scratchBytes, after.calm.ctrl, after.calm.storage⟩, by rw [hvalue], ?_, ?_,
      ?_⟩
    · rw [ticked.fifo, Peripherals.fifo_afterRead, ← before.fifo]
      rfl
    · rw [ticked.dataX, Peripherals.dataX_afterRead, ← before.dataX]
      rfl
    · rw [ticked.dataY, Peripherals.dataY_afterRead, ← before.dataY]
      rfl
  · have request := State.keepsMemory_storeRequested hq rd rn imm
    obtain ⟨q, hexec, hcycle⟩ := store_device hi rd rn imm ht hram hscratch
    obtain ⟨hwrite, hperiph⟩ := Soc.cycle_peripheralWrite (State.storeRequested_read hi rd rn imm) rfl
      ((request.calm.target _).trans ht) hd (request.calm.quiet hq) hcycle
    have keeps := (request.trans hwrite).withBus { q.bus with write := false }
    have after := keeps.afterTicks hq 2
    have ticked := hperiph.trans (Soc.afterTicks_quiet 2 (keeps.calm.quiet hq)).periph
    have hoffset : e.offset (s.storeRequested rd rn imm).bus.address = off := rfl
    rw [hoffset] at ticked
    refine ⟨_, hexec, ⟨after.ramBytes, after.scratchBytes, after.calm.ctrl, after.calm.storage⟩, rfl,
      fun hpic hoff => ?_, fun hpic hoff line hline => ?_⟩
    · rw [hpic, hoff] at ticked
      have narrow : (s.cpu.reg rd).setWidth 16 = (s.cpu.reg rd).extractLsb' 0 16 :=
        BitVec.setWidth_eq_extractLsb' (by decide)
      exact ticked.irqEnable.trans narrow
    · rw [hpic, hoff] at ticked
      rw [ticked.irqLines line hline, ← before.irqLines line hline]
      exact Pic.acknowledge_status _ _ line

end Sys2Proof.Machine
end

section
/-! PROOFS. What the host does from outside (70_reset_and_hazards.md): CPU Reset and the loader; and the words that the
spec writes out (30_encoding.md section 5). -/

namespace Sys2Proof

/-- Settles O4: each word's decoded form is that of its instruction. -/
theorem decodeWorkedWords : Obligations.DecodeWorkedWords := by
  have worked {w : InstrWord} {i : Instr} (h : i.decoded = decode w) : decodeWord w = .ok i :=
    (decodeWord_eq_ok_iff w i).mpr h
  exact ⟨worked (by decide), worked (by decide), worked (by decide), worked (by decide), worked (by decide),
    worked (by decide), worked (by decide)⟩

namespace Machine

/-! ## CPU Reset (R390, R392) -/

/-- Every register of a CPU that was reset is 0. -/
theorem reg_reset (entry : Word) (i : RegIdx) : (Cpu.reset entry).reg i = 0 :=
  Vector.getElem_replicate i.isLt

/-- The word 0x00000000 is NOP with all fields 0 (R15). -/
theorem decode_zero : decode 0 = Decoded.zero := by decide

/-- Settles O41: the CPU is `Cpu.reset entry` whatever it was, and nothing else is touched. -/
theorem cpuResetLeaves : Obligations.CpuResetLeaves := by
  intro entry s t
  exact ⟨reg_reset entry, rfl, rfl, rfl, rfl, rfl, decode_zero.symm, rfl, rfl, rfl, rfl, rfl, rfl⟩

/-! ## The loader (R396, D37) -/

/-- The range of an image lies in a device. -/
def DestinationInside (e : DeviceEntry) (addr : Word) (image : List Byte) : Prop :=
  e.base.toNat ≤ addr.toNat ∧ addr.toNat + image.length ≤ e.base.toNat + e.size

theorem loadImage_inside {s : State} {addr : Word} {image : List Byte} {e : DeviceEntry}
    (he : ramEntry s.soc.cfg = some e) (h : DestinationInside e addr image) :
    loadImage addr image s = some { s with soc := { s.soc with ram :=
      { s.soc.ram with bytes := s.soc.ram.bytes.writeBytes (e.offset addr) image } } } := by
  unfold loadImage
  rw [he]
  exact if_pos h

theorem loadImage_outside {s : State} {addr : Word} {image : List Byte} {e : DeviceEntry}
    (he : ramEntry s.soc.cfg = some e) (h : ¬ DestinationInside e addr image) : loadImage addr image s = none := by
  unfold loadImage
  rw [he]
  exact if_neg h

/-- Settles O42: the load is one run of bytes written to RAM, or nothing. -/
theorem loaderWritesImage : Obligations.LoaderWritesImage := by
  intro s addr image e he hwf off
  exact ⟨fun h => ⟨_, loadImage_inside he h, rfl, fun a => Memory.read_writeBytes hwf off a image, rfl⟩,
    loadImage_outside he⟩

end Machine

end Sys2Proof
end

section
/-! PROOFS. The assembler (48_assembler.md R326 to R337): ranges and packing of immediates, branch offsets, and what the
words of a program decode to. -/

namespace Sys2Proof.Machine

/-! ## Immediates (R332) -/

theorem fitsS11_iff (offset : Int) : fitsS11 offset = true ↔ -1024 ≤ offset ∧ offset ≤ 1023 := by
  simp only [fitsS11, Bool.and_eq_true, decide_eq_true_iff]

theorem u11Field_inRange (i : AsmInstr) {v : Word} (h : v.toNat ≤ 2047) : u11Field i v = .ok (v.setWidth 11) :=
  if_pos h

theorem u11Field_outOfRange (i : AsmInstr) {v : Word} (h : 2047 < v.toNat) :
    u11Field i v = .error ⟨.encoder, i.line, "immediate out of range: " ++ toString v.toInt⟩ :=
  if_neg h.not_ge

theorem s11Field_inRange (i : AsmInstr) {offset : Int} (h : -1024 ≤ offset ∧ offset ≤ 1023) :
    s11Field i offset = .ok (BitVec.ofInt 11 offset) :=
  if_pos ((fitsS11_iff offset).mpr h)

theorem s11Field_outOfRange (i : AsmInstr) {offset : Int} (h : ¬ (-1024 ≤ offset ∧ offset ≤ 1023)) :
    s11Field i offset = .error ⟨.encoder, i.line, "offset out of range: " ++ toString offset⟩ :=
  if_neg fun hfits => h ((fitsS11_iff offset).mp hfits)

/-- An unsigned immediate in range is its own low 11 bits. -/
theorem toNat_setWidth_eleven {v : Word} (h : v.toNat ≤ 2047) : (v.setWidth 11).toNat = v.toNat := by
  rw [BitVec.toNat_setWidth]
  exact Nat.mod_eq_of_lt (by omega)

/-- The low 11 bits of an offset's two's complement, as a number. -/
theorem toNat_ofInt_eleven (offset : Int) : (BitVec.ofInt 11 offset).toNat = (offset % 2048).toNat :=
  BitVec.toNat_ofInt offset

/-- A branch's sign extension undoes the packing of an offset in range (R94). -/
theorem signExtend_ofInt_eleven {offset : Int} (h : -1024 ≤ offset ∧ offset ≤ 1023) :
    (BitVec.ofInt 11 offset).signExtend 64 = BitVec.ofInt 64 offset := by
  have value : (BitVec.ofInt 11 offset).toInt = offset := by
    rw [BitVec.toInt_ofInt]
    exact Int.bmod_eq_of_le (by omega) (by omega)
  rw [BitVec.signExtend, value]

/-- The zero extension of LDR and STR reads the packed offset as the number modulo 2048 (R94). -/
theorem setWidth_ofInt_eleven (offset : Int) :
    (BitVec.ofInt 11 offset).setWidth 64 = BitVec.ofInt 64 (offset % 2048) := by
  have packed := toNat_ofInt_eleven offset
  apply BitVec.eq_of_toNat_eq
  rw [BitVec.toNat_setWidth, packed, BitVec.toNat_ofInt]
  omega

/-- Settles O60: the two range checks, and the two extensions of what they let through. -/
theorem immediateRanges : Obligations.ImmediateRanges := by
  intro i v offset
  refine ⟨fun h => ⟨_, u11Field_inRange i h, ?_⟩, u11Field_outOfRange i,
    fun h => ⟨_, s11Field_inRange i h, ?_, ?_, ?_, ?_⟩, fun h => s11Field_outOfRange i (by omega)⟩
  · apply BitVec.eq_of_toNat_eq
    rw [BitVec.toNat_setWidth, toNat_setWidth_eleven h]
    exact Nat.mod_eq_of_lt v.isLt
  · rw [toNat_ofInt_eleven]
    omega
  · exact signExtend_ofInt_eleven h
  · intro hneg
    have wrapped : offset % 2048 = 2048 + offset := by omega
    rw [← wrapped]
    exact setWidth_ofInt_eleven offset
  · intro hpos
    have same : offset % 2048 = offset := by omega
    exact (setWidth_ofInt_eleven offset).trans (by rw [same])

/-! ## Branch offsets (R326) -/

theorem branch_shape {op : Op} (h : op ∈ [Op.b, .beq, .bne]) : op.shape = .branch := by
  revert h
  cases op <;> simp [Op.shape]

/-- A branch's label whose offset is in range (R326). -/
theorem resolveOperand_inRange {table : SymbolTable} {op : Op} {index line addr : Nat} {name : Name}
    (hop : op.shape = .branch) (haddr : table.address name = some addr)
    (hfits : fitsS11 ((addr : Int) - (4 * index : Nat)) = true) :
    resolveOperand table op index line (.label name) =
      .ok (.immediate (BitVec.ofInt 64 ((addr : Int) - (4 * index : Nat)))) := by
  simp only [resolveOperand, haddr, hop, hfits, if_true]

theorem resolveOperand_outOfRange {table : SymbolTable} {op : Op} {index line addr : Nat} {name : Name}
    (hop : op.shape = .branch) (haddr : table.address name = some addr)
    (hfits : ¬ fitsS11 ((addr : Int) - (4 * index : Nat)) = true) :
    resolveOperand table op index line (.label name) = .error ⟨.resolver, line,
      "branch offset out of range: " ++ toString ((addr : Int) - (4 * index : Nat))⟩ := by
  simp only [resolveOperand, haddr, hop, hfits, if_true, if_false, Bool.false_eq_true]

/-- Offsets add up modulo 2^64. -/
theorem ofNat_add_ofInt {a b : Nat} {offset : Int} (h : (a : Int) + offset = b) :
    BitVec.ofNat 64 a + BitVec.ofInt 64 offset = BitVec.ofNat 64 b := by
  rw [← BitVec.ofInt_natCast, ← BitVec.ofInt_natCast, ← BitVec.ofInt_add, h]

/-- Settles O59: an offset of whole instructions fits 11 bits exactly for -256 to 255 of them. -/
theorem branchOffsets : Obligations.BranchOffsets := by
  intro table op index line target name hop haddr offset
  have hshape := branch_shape hop
  have hoffset : ((4 * target : Nat) : Int) - (4 * index : Nat) = offset := by
    simp only [offset]
    push_cast
    rfl
  have hfits : fitsS11 (((4 * target : Nat) : Int) - (4 * index : Nat)) = true ↔
      -256 ≤ (target : Int) - index ∧ (target : Int) - index ≤ 255 := by
    rw [fitsS11_iff]
    omega
  refine ⟨fun hrange => ⟨?_, fun pc hpc => ?_⟩, fun hrange =>
    ⟨_, resolveOperand_outOfRange hshape haddr (mt hfits.mp hrange)⟩⟩
  · rw [← hoffset]
    exact resolveOperand_inRange hshape haddr (hfits.mpr hrange)
  · rw [hpc, signExtend_ofInt_eleven (by omega)]
    exact ofNat_add_ofInt (by omega)

/-! ## The fields of an instruction (R330, R331) -/

/-- The fields as numbers. -/
structure AsmFields.Are (f : AsmFields) (op : Op) (rd rn rm imm11 : Nat) : Prop where
  op : f.op = op
  rd : f.rd.val = rd
  rn : f.rn.val = rn
  rm : f.rm.val = rm
  imm11 : f.imm11.toNat = imm11

/-- If a sequence of encoder steps succeeds, its first one did. -/
theorem bind_eq_ok {α β : Type} {x : Except AsmError α} {g : α → Except AsmError β} {b : β} (h : x >>= g = .ok b) :
    ∃ a, x = .ok a ∧ g a = .ok b := by
  cases x with
  | ok a => exact ⟨a, rfl, h⟩
  | error e => exact nomatch h

theorem regField_eq_ok {i : AsmInstr} {index : Nat} {r : RegIdx} (h : regField i index = .ok r) : r.val = index := by
  unfold regField at h
  split at h
  · cases h; rfl
  · cases h

theorem u11Field_eq_ok {i : AsmInstr} {v : Word} {b : BitVec 11} (h : u11Field i v = .ok b) : b.toNat = v.toNat := by
  by_cases hrange : v.toNat ≤ 2047
  · cases (u11Field_inRange i hrange).symm.trans h
    exact toNat_setWidth_eleven hrange
  · cases (u11Field_outOfRange i (Nat.lt_of_not_le hrange)).symm.trans h

theorem s11Field_eq_ok {i : AsmInstr} {offset : Int} {b : BitVec 11} (h : s11Field i offset = .ok b) :
    -1024 ≤ offset ∧ offset ≤ 1023 ∧ b.toNat = (offset % 2048).toNat := by
  by_cases hrange : -1024 ≤ offset ∧ offset ≤ 1023
  · cases (s11Field_inRange i hrange).symm.trans h
    exact ⟨hrange.1, hrange.2, toNat_ofInt_eleven offset⟩
  · cases (s11Field_outOfRange i hrange).symm.trans h

theorem bareFields_eq_ok {i : AsmInstr} {f : AsmFields} (h : bareFields i = .ok f) :
    i.operands = [] ∧ f.Are i.op 0 0 0 0 := by
  unfold bareFields at h
  split at h
  · next hops => cases h; exact ⟨hops, rfl, rfl, rfl, rfl, rfl⟩
  · cases h

theorem threeOperandFields_eq_ok {i : AsmInstr} {f : AsmFields} (h : threeOperandFields i = .ok f) :
    (∃ d n m, i.operands = [.register d, .register n, .register m] ∧ f.Are i.op d n m 0) ∨
      ∃ d n v, i.operands = [.register d, .register n, .immediate v] ∧ f.Are i.op d n 0 v.toNat := by
  unfold threeOperandFields at h
  split at h
  · next d n m hops =>
    obtain ⟨rd, hd, h⟩ := bind_eq_ok h
    obtain ⟨rn, hn, h⟩ := bind_eq_ok h
    obtain ⟨rm, hm, h⟩ := bind_eq_ok h
    cases h
    exact .inl ⟨d, n, m, hops, rfl, regField_eq_ok hd, regField_eq_ok hn, regField_eq_ok hm, rfl⟩
  · next d n v hops =>
    obtain ⟨rd, hd, h⟩ := bind_eq_ok h
    obtain ⟨rn, hn, h⟩ := bind_eq_ok h
    obtain ⟨imm, himm, h⟩ := bind_eq_ok h
    cases h
    exact .inr ⟨d, n, v, hops, rfl, regField_eq_ok hd, regField_eq_ok hn, rfl, u11Field_eq_ok himm⟩
  · cases h

theorem compareFields_eq_ok {i : AsmInstr} {f : AsmFields} (h : compareFields i = .ok f) :
    (∃ n m, i.operands = [.register n, .register m] ∧ f.Are i.op 0 n m 0) ∨
      ∃ n v, i.operands = [.register n, .immediate v] ∧ f.Are i.op 0 n 0 v.toNat := by
  unfold compareFields at h
  split at h
  · next n m hops =>
    obtain ⟨rn, hn, h⟩ := bind_eq_ok h
    obtain ⟨rm, hm, h⟩ := bind_eq_ok h
    cases h
    exact .inl ⟨n, m, hops, rfl, rfl, regField_eq_ok hn, regField_eq_ok hm, rfl⟩
  · next n v hops =>
    obtain ⟨rn, hn, h⟩ := bind_eq_ok h
    obtain ⟨imm, himm, h⟩ := bind_eq_ok h
    cases h
    exact .inr ⟨n, v, hops, rfl, rfl, regField_eq_ok hn, rfl, u11Field_eq_ok himm⟩
  · cases h

theorem moveFields_eq_ok {i : AsmInstr} {f : AsmFields} (h : moveFields i = .ok f) :
    (∃ d v, i.operands = [.register d, .immediate v] ∧ f.Are i.op d 0 0 v.toNat) ∨
      ∃ d m, i.operands = [.register d, .register m] ∧ f.Are i.op d 0 m 0 := by
  unfold moveFields at h
  split at h
  · next d v hops =>
    obtain ⟨rd, hd, h⟩ := bind_eq_ok h
    obtain ⟨imm, himm, h⟩ := bind_eq_ok h
    cases h
    exact .inl ⟨d, v, hops, rfl, regField_eq_ok hd, rfl, rfl, u11Field_eq_ok himm⟩
  · next d m hops =>
    obtain ⟨rd, hd, h⟩ := bind_eq_ok h
    obtain ⟨rm, hm, h⟩ := bind_eq_ok h
    cases h
    exact .inr ⟨d, m, hops, rfl, regField_eq_ok hd, rfl, regField_eq_ok hm, rfl⟩
  · cases h

theorem memoryFields_eq_ok {i : AsmInstr} {f : AsmFields} (h : memoryFields i = .ok f) :
    ∃ d n offset preIndexed writeBack, i.operands = [.register d, .memory n offset preIndexed writeBack] ∧
      -1024 ≤ offset ∧ offset ≤ 1023 ∧ f.Are i.op d n 0 (offset % 2048).toNat := by
  unfold memoryFields at h
  split at h
  · next d n offset preIndexed writeBack hops =>
    obtain ⟨rd, hd, h⟩ := bind_eq_ok h
    obtain ⟨rn, hn, h⟩ := bind_eq_ok h
    obtain ⟨imm, himm, h⟩ := bind_eq_ok h
    cases h
    obtain ⟨hlow, hhigh, hbits⟩ := s11Field_eq_ok himm
    exact ⟨d, n, offset, preIndexed, writeBack, hops, hlow, hhigh, rfl, regField_eq_ok hd, regField_eq_ok hn, rfl,
      hbits⟩
  · cases h

theorem branchFields_eq_ok {i : AsmInstr} {f : AsmFields} (h : branchFields i = .ok f) :
    ∃ v, i.operands = [.immediate v] ∧ -1024 ≤ v.toInt ∧ v.toInt ≤ 1023 ∧
      f.Are i.op 0 0 0 (v.toInt % 2048).toNat := by
  unfold branchFields at h
  split at h
  · next v hops =>
    obtain ⟨imm, himm, h⟩ := bind_eq_ok h
    cases h
    obtain ⟨hlow, hhigh, hbits⟩ := s11Field_eq_ok himm
    exact ⟨v, hops, hlow, hhigh, rfl, rfl, rfl, rfl, hbits⟩
  · cases h

/-! ## Words (R337) -/

/-- The fields of a word as numbers, the immediate as its 11 bits. -/
def Decoded.HasFields (d : Decoded) (rd rn rm imm11 : Nat) : Prop :=
  d.rd.val = rd ∧ d.rn.val = rn ∧ d.rm.val = rm ∧ (d.imm.setWidth 11).toNat = imm11

/-- The word of some fields decodes to them, whatever the shape makes of the immediate. -/
theorem decode_word {f : AsmFields} {op : Op} {rd rn rm imm11 : Nat} (h : f.Are op rd rn rm imm11)
    (hop : ∀ g, op ≠ .reserved g) :
    (decode f.word).op = op ∧ Decoded.HasFields (decode f.word) rd rn rm imm11 := by
  obtain ⟨rfl, rfl, rfl, rfl, rfl⟩ := h
  unfold AsmFields.word
  rw [decode_encodeFields, Op.ofField_tag hop]
  exact ⟨rfl, rfl, rfl, rfl, congrArg BitVec.toNat (Shape.setWidth_immediate64 _ _)⟩

/-- The words of a program are those of its instructions' fields, in order (R330). -/
theorem encodeInstrs_forall {instrs : List AsmInstr} {words : List InstrWord} (h : encodeInstrs instrs = .ok words) :
    List.Forall₂ (fun i w => ∃ f, encoderFields i = .ok f ∧ f.word = w) instrs words := by
  induction instrs generalizing words with
  | nil => cases h; exact .nil
  | cons i rest ih =>
    unfold encodeInstrs at h
    split at h
    · cases h
    · next f hf =>
      split at h
      · next later hlater => cases h; exact .cons ⟨f, hf, rfl⟩ (ih hlater)
      · cases h

/-- Two lists related element by element are so at every place. -/
theorem forall₂_getElem? {α β : Type} {R : α → β → Prop} {xs : List α} {ys : List β} (h : List.Forall₂ R xs ys)
    {k : Nat} {x : α} {y : β} (hx : xs[k]? = some x) (hy : ys[k]? = some y) : R x y := by
  obtain ⟨hkx, rfl⟩ := List.getElem?_eq_some_iff.mp hx
  obtain ⟨hky, rfl⟩ := List.getElem?_eq_some_iff.mp hy
  exact (List.forall₂_iff_get.mp h).2 k hkx hky

/-- The four stages of a program that passes them (R310, R334). -/
theorem assemble_eq_ok {source : List Char} {tokens : List Token} {ast : Ast} {instrs : List AsmInstr}
    {words : List InstrWord} (hlex : lexSource source = .ok tokens) (hparse : parseTokens tokens = .ok ast)
    (hresolve : resolveAst ast = .ok instrs) (hencode : encodeInstrs instrs = .ok words) :
    assemble source = .ok (imageOf words ast.data) := by
  simp only [assemble, hlex, hparse, hresolve, hencode]

/-- Settles O58: each word is that of the fields its operands give, by the row of R331's table for its opcode. -/
theorem assembledProgramDecodes : Obligations.AssembledProgramDecodes := by
  intro source tokens ast instrs words hlex hparse hresolve hencode
  have hwords := encodeInstrs_forall hencode
  refine ⟨assemble_eq_ok hlex hparse hresolve hencode, hwords.length_eq.symm, fun k i w hi hw => ?_⟩
  obtain ⟨f, hf, rfl⟩ := forall₂_getElem? hwords hi hw
  obtain ⟨op, operands, line, column⟩ := i
  cases op with
  | nop | halt =>
    obtain ⟨hops, hare⟩ := bareFields_eq_ok hf
    obtain ⟨hop, hfields⟩ := decode_word hare (by simp)
    exact ⟨hop, .inl ⟨by simp, hops, hfields⟩⟩
  | add | sub | and | or | xor | lsl | lsr | asr =>
    rcases threeOperandFields_eq_ok hf with ⟨d, n, m, hops, hare⟩ | ⟨d, n, v, hops, hare⟩ <;>
      obtain ⟨hop, hfields⟩ := decode_word hare (by simp)
    · exact ⟨hop, .inr (.inl ⟨by simp, .inl ⟨d, n, m, hops, hfields⟩⟩)⟩
    · exact ⟨hop, .inr (.inl ⟨by simp, .inr ⟨d, n, v, hops, hfields⟩⟩)⟩
  | cmp =>
    rcases compareFields_eq_ok hf with ⟨n, m, hops, hare⟩ | ⟨n, v, hops, hare⟩ <;>
      obtain ⟨hop, hfields⟩ := decode_word hare (by simp)
    · exact ⟨hop, .inr (.inr (.inl ⟨rfl, .inl ⟨n, m, hops, hfields⟩⟩))⟩
    · exact ⟨hop, .inr (.inr (.inl ⟨rfl, .inr ⟨n, v, hops, hfields⟩⟩))⟩
  | mov =>
    rcases moveFields_eq_ok hf with ⟨d, v, hops, hare⟩ | ⟨d, m, hops, hare⟩ <;>
      obtain ⟨hop, hfields⟩ := decode_word hare (by simp)
    · exact ⟨hop, .inr (.inr (.inr (.inl ⟨rfl, .inl ⟨d, v, hops, hfields⟩⟩)))⟩
    · exact ⟨hop, .inr (.inr (.inr (.inl ⟨rfl, .inr ⟨d, m, hops, hfields⟩⟩)))⟩
  | ldr | str =>
    obtain ⟨d, n, offset, preIndexed, writeBack, hops, hlow, hhigh, hare⟩ := memoryFields_eq_ok hf
    obtain ⟨hop, hfields⟩ := decode_word hare (by simp)
    exact ⟨hop, .inr (.inr (.inr (.inr (.inl
      ⟨by simp, d, n, offset, preIndexed, writeBack, hops, hlow, hhigh, hfields⟩))))⟩
  | b | beq | bne =>
    obtain ⟨v, hops, hlow, hhigh, hare⟩ := branchFields_eq_ok hf
    obtain ⟨hop, hfields⟩ := decode_word hare (by simp)
    exact ⟨hop, .inr (.inr (.inr (.inr (.inr ⟨by simp, v, hops, hlow, hhigh, hfields⟩))))⟩
  | reserved g => cases hf

end Sys2Proof.Machine
end
